-- ==== Sys2Proof/Config.lean ====
section
/-! DEFINITION. What an implementation fixes: the fixed parameters of spec/00_scope.md R7, and the two
open parameters of R8, which the spec leaves open and which therefore have no value here. -/

namespace Sys2Proof

/-- Where pixel placement stops (R8, decision D13). -/
inductive VclipLimit where
  /-- SCREEN: at screen row H. -/
  | screen
  /-- RECT: at the end of the frame rectangle, min(top + height, H). -/
  | rect
deriving DecidableEq, Repr, Inhabited

/-- What RestoreBackground does to the remembered canvas while `prev` is SAME (R8, decision D15). -/
inductive RbPrevPolicy where
  /-- IN_PLACE: `prev` stays SAME, so the remembered canvas is cleared too. -/
  | inPlace
  /-- DETACH: the canvas is first kept as a snapshot. -/
  | detach
deriving DecidableEq, Repr, Inhabited

/-- VCLIP_LIMIT (R8). No body: nothing can be proved of which value it has. DESIGN CHOICE, log 12. -/
opaque Config.vclipLimit : VclipLimit

/-- RB_PREV_POLICY (R8). No body: nothing can be proved of which value it has. DESIGN CHOICE, log 12. -/
opaque Config.rbPrevPolicy : RbPrevPolicy

/-- MAX_CODE_WIDTH (R7). -/
abbrev Config.maxCodeWidth : Nat := 12

/-- DICT_CAP (R7). -/
abbrev Config.dictCap : Nat := 4096

/-- MIN_CODE_SIZE_CLAMP (R7). -/
abbrev Config.minCodeSizeClamp : Nat := 11

/-- MIN_CODE_SIZE_LOW (R7). -/
abbrev Config.minCodeSizeLow : Nat := 2

/-- The fixed part of the header: signature and logical screen descriptor (R102). -/
abbrev Config.headerBytes : Nat := 13

end Sys2Proof
end

