-- ==== Sys2Proof/Word.lean ====
section
/-! DEFINITION. The units of the input buffer (spec/20_memory.md R70, R77): bytes, and the 16-bit
fields made of two of them. -/

namespace Sys2Proof

/-- One byte of the input buffer (R70). -/
abbrev Byte := BitVec 8

/-- A run of bytes, the lowest offset first. -/
abbrev Bytes := List Byte

/-- A 16-bit field (R7: coordinates, sizes, delay). -/
abbrev U16 := BitVec 16

end Sys2Proof
end

