-- ==== Sys2Proof/Syntax.lean ====
section
/-! DEFINITION. The instructions of the core as syntax: one constructor of `Instr` for each row of
spec/opcode_table.json, with the operands that spec/30_encoding.md gives it.

An operand that is an `Option` is absent when the buffer ends before the field: the token is then cut
short and its meaning raises the error its rule names (log 15). -/

namespace Sys2Proof

/-- The two input versions (R2, R25). -/
inductive Version where
  | gif87a
  | gif89a
deriving DecidableEq, Repr, Inhabited

/-- A palette entry as encoded: three bytes R, G, B (R104). -/
structure Rgb where
  r : Byte
  g : Byte
  b : Byte
deriving DecidableEq, Repr, Inhabited

/-- Signature and logical screen descriptor, offsets 0 to 12 (R101, R102). `version` is `none` when
bytes 0..5 are neither signature. -/
structure Screen where
  version : Option Version
  width   : U16
  height  : U16
  flags   : Byte
  bgIndex : Byte
  aspect  : Byte
deriving DecidableEq, Repr, Inhabited

/-- The nine descriptor bytes after the 0x2C introducer (R110). -/
structure ImageDesc where
  left   : U16
  top    : U16
  width  : U16
  height : U16
  flags  : Byte
deriving DecidableEq, Repr, Inhabited

/-- The six bytes after the 0xF9 label (R107). -/
structure GceBody where
  blockSize   : Byte
  flags       : Byte
  delay       : U16
  transparent : Byte
  terminator  : Byte
deriving DecidableEq, Repr, Inhabited

/-- The engine registers that classify a code (R115): `m`, `size` and `prev_code`. -/
structure CodeContext where
  m        : Nat
  size     : Nat
  prevCode : Option Nat
deriving DecidableEq, Repr, Inhabited

/-- The instructions: container tokens, LZW code classes, disposal selectors, host commands. -/
inductive Instr where
  /-- PARSE_HEADER (R220): the screen descriptor, and the global palette (empty when the flags say
  there is none). -/
  | parseHeader (screen : Option Screen) (gpal : Option (List Rgb))
  /-- IMAGE (R222): descriptor, local palette (empty when the flags say there is none), and the
  min_code_size byte. -/
  | image (desc : Option ImageDesc) (lpal : Option (List Rgb)) (minCodeSize : Option Byte)
  /-- IMAGE_EMPTY (R229): an image of width 0 or height 0. -/
  | imageEmpty (desc : ImageDesc) (lpal : Option (List Rgb)) (minCodeSize : Option Byte)
  /-- EXT_GCE (R223). -/
  | extGce (body : Option GceBody)
  /-- EXT_SKIP (R224): any label other than 0xF9. -/
  | extSkip (label : Byte)
  /-- TRAILER (R225). -/
  | trailer
  /-- UNEXPECTED (R226): the byte at the block-introducer position. -/
  | unexpected (t : Byte)
  /-- CLEAR (R182). -/
  | clear
  /-- END (R183). -/
  | endCode
  /-- DICT (R184): a code below the dictionary size. -/
  | dict (c : Nat)
  /-- KWKWK (R185): the code equal to the dictionary size. -/
  | kwkwk (c : Nat)
  /-- SKIP (R186): a code past the dictionary with no previous code. -/
  | skip (c : Nat)
  /-- UNSPEC_CODE (R187): a code above the dictionary size with a previous code. -/
  | unspecCode (c : Nat)
  /-- DISPOSE_NONE (R263). -/
  | disposeNone
  /-- DISPOSE_KEEP (R264). -/
  | disposeKeep
  /-- DISPOSE_RESTORE_BG (R265). -/
  | disposeRestoreBg
  /-- DISPOSE_RESTORE_PREV (R266). -/
  | disposeRestorePrev
  /-- CONSTRUCT (R310), host command 0. -/
  | construct (bytes : Bytes)
  /-- NEXT_FRAME (R311), host command 1. -/
  | nextFrame
  /-- GET_VERSION (R312), host command 2. -/
  | getVersion
  /-- GET_WIDTH (R313), host command 3. -/
  | getWidth
  /-- GET_HEIGHT (R314), host command 4. -/
  | getHeight
  /-- GET_BACKGROUND_COLOR (R315), host command 5. -/
  | getBackgroundColor
  /-- RELEASE (R316), host command 6. -/
  | release
deriving DecidableEq, Repr, Inhabited

/-- What a fetch delivers to the decoder, one form for each place an instruction is read from. -/
inductive FetchWord where
  /-- The buffer from offset 0, at the header position (R100). -/
  | header (bytes : Bytes)
  /-- The buffer from a block-introducer position (R105). -/
  | block (bytes : Bytes)
  /-- An LZW code read at the current width (R114). -/
  | code (c : Nat)
  /-- The disposal selector, flags bits 3..2 (R109). -/
  | selector (d : BitVec 2)
  /-- A host command: its number (decision D39) and its byte operand. -/
  | command (number : Nat) (bytes : Bytes)
deriving DecidableEq, Repr, Inhabited

end Sys2Proof
end

