-- ==== Sys2Proof/Machine/Operands.lean ====
section
/-! DEFINITION. Operand forms: the bit fields and byte orders of spec/30_encoding.md (R102 to R112,
R116) and the register operands they give. -/

namespace Sys2Proof

/-- `u16le(p) = buf[p] + 256 * buf[p+1]` from its two bytes in buffer order (R73, R116). -/
def u16le (lo hi : Byte) : U16 :=
  BitVec.ofNat 16 (lo.toNat + 256 * hi.toNat)

/-- The two bytes of a 16-bit field in buffer order (R73). -/
def u16bytes (v : U16) : Bytes :=
  [BitVec.ofNat 8 (v.toNat % 256), BitVec.ofNat 8 (v.toNat / 256)]

/-- Bit 7 of the screen flags or of the image descriptor flags: a palette follows (R102, R111). -/
def paletteFlag (flags : Byte) : Bool :=
  flags.getLsbD 7

/-- Bits 2..0 of the same flags: the palette size code n (R102, R103, R111). -/
def paletteCode (flags : Byte) : BitVec 3 :=
  flags.extractLsb' 0 3

/-- A size code n selects 2^(n+1) entries (R103). -/
def paletteEntries (n : BitVec 3) : Nat :=
  2 ^ (n.toNat + 1)

/-- How many palette entries follow a flags byte: none when its palette flag is clear (R102, R110). -/
def paletteLength (flags : Byte) : Nat :=
  if paletteFlag flags then paletteEntries (paletteCode flags) else 0

/-- Bit 6 of the image descriptor flags (R111). -/
def interlaceFlag (flags : Byte) : Bool :=
  flags.getLsbD 6

/-- Bit 0 of the graphic control flags: transparency enabled (R108). -/
def transparencyFlag (flags : Byte) : Bool :=
  flags.getLsbD 0

/-- Bits 3..2 of the graphic control flags: the disposal selector (R109). -/
def disposalField (flags : Byte) : BitVec 2 :=
  flags.extractLsb' 2 2

/-- `m = min(v, 11)` (R112, R116). -/
def clampMinCodeSize (v : Byte) : Nat :=
  min v.toNat 11

/-- `clear_code = 2^m` (R116). -/
def clearCodeOf (m : Nat) : Nat :=
  2 ^ m

/-- `end_code = 2^m + 1` (R116). -/
def endCodeOf (m : Nat) : Nat :=
  2 ^ m + 1

/-- The initial dictionary size `2^m + 2` (R116). -/
def initialSize (m : Nat) : Nat :=
  2 ^ m + 2

/-- An image of width 0 or height 0 is empty (R222, R229). -/
def ImageDesc.isEmpty (d : ImageDesc) : Bool :=
  d.width == 0 || d.height == 0

end Sys2Proof
end

