-- ==== Sys2Proof/Machine/State.lean ====
section
/-! DEFINITION. The state of the core as plain data (spec/10_state.md), its value after reset
(spec/70_reset_and_hazards.md R380), and the reasons a step can stop. -/

namespace Sys2Proof.Machine

/-- A canvas or palette element: four bytes R, G, B, A (R7, R75). -/
structure Pixel where
  r : Byte
  g : Byte
  b : Byte
  a : Byte
deriving DecidableEq, Repr, Inhabited

/-- The error kinds the source names (R340, class "error"). -/
inductive ErrorKind where
  | invalidHeader
  | unexpectedBlock
  | truncated
  | malformed
deriving DecidableEq, Repr, Inhabited

/-- The model faults (R340, class "model fault"). -/
inductive FaultCode where
  | unspecMinCodeSize
  | unspecCode
  | unspecPaletteIndex
  | unspecGceTerminator
  | unspecPartialInterlace
deriving DecidableEq, Repr, Inhabited

/-- What `raise E` and `fault F` deliver to trap entry (R347). -/
inductive Cause where
  | error (k : ErrorKind)
  | fault (f : FaultCode)
deriving DecidableEq, Repr, Inhabited

/-- `phase` (R20). -/
inductive Phase where
  | fresh
  | ready
  | done
  | failed (k : Cause)
  | released
deriving DecidableEq, Repr, Inhabited

/-- `gc_disposal` (R29). -/
inductive Disposal where
  | noneD
  | keep
  | restoreBg
  | restorePrev
deriving DecidableEq, Repr, Inhabited

/-- `apal` is a reference to one of the two palettes (R28). -/
inductive PaletteRef where
  | globalPalette
  | localPalette
deriving DecidableEq, Repr, Inhabited

/-- `prev` (R35): the remembered canvas is `output` itself, or a distinct array. -/
inductive Prev where
  | same
  | snap (b : List Pixel)
deriving DecidableEq, Repr, Inhabited

/-- Where the core stands inside a command: what the next step fetches. The model's own field, log 2. -/
inductive Control where
  /-- No command runs; the next host command is taken (R319). -/
  | idle
  /-- A NEXT_FRAME reached PARSE_HEADER (R311). -/
  | header
  /-- A block-introducer position of BLOCK_LOOP (R221). -/
  | block
  /-- DECODE_FRAME reached DISPOSE (R230, R262). -/
  | dispose
  /-- DECODE_FRAME reached CURSOR_INIT (R230, R268). -/
  | cursor
  /-- The code loop of LZW_DECODE (R181). -/
  | code
  /-- LZW_DECODE returned; DEINTERLACE and EMIT_FRAME are due (R230). -/
  | emit
deriving DecidableEq, Repr, Inhabited

/-- The reader registers (R23). -/
structure Reader where
  sbRem : Nat
  acc   : Nat
  nacc  : Nat
deriving DecidableEq, Repr, Inhabited

/-- The header registers (R25). -/
structure ScreenRegs where
  version    : Version
  W          : U16
  H          : U16
  gctPresent : Bool
  gctN       : BitVec 3
  bgIndex    : Byte
deriving DecidableEq, Repr, Inhabited

/-- The graphic control registers (R29). -/
structure GraphicControl where
  delay    : U16
  tidx     : Option Byte
  disposal : Disposal
deriving DecidableEq, Repr, Inhabited

/-- The image descriptor registers (R30). -/
structure ImageRegs where
  left       : U16
  top        : U16
  width      : U16
  height     : U16
  hasLocal   : Bool
  interlaced : Bool
  lsizeN     : BitVec 3
deriving DecidableEq, Repr, Inhabited

/-- The LZW engine registers (R31) and the dictionary (R32). `dict` lists codes with their sequences,
codes strictly rising, no empty sequence listed; a code that is not listed reads as the empty sequence
(log 16). -/
structure Engine where
  m         : Nat
  clearCode : Nat
  endCode   : Nat
  width     : Nat
  size      : Nat
  prevCode  : Option Nat
  dict      : List (Nat × List Nat)
deriving DecidableEq, Repr, Inhabited

/-- The placement cursor registers (R33). -/
structure Cursor where
  cx      : Nat
  cy      : Nat
  rowEnd  : Nat
  safeEnd : Nat
  yLimit  : Nat
deriving DecidableEq, Repr, Inhabited

/-- `output` (R34), whether it is written (R261 tests it, log 5), and `prev` (R35). -/
structure Canvas where
  written : Bool
  output  : List Pixel
  prev    : Prev
deriving DecidableEq, Repr, Inhabited

/-- A frame handed to the host (R317). -/
structure Frame where
  width   : U16
  height  : U16
  delayMs : Nat
  pixels  : List Pixel
deriving DecidableEq, Repr, Inhabited

/-- What a command returns to the host (R311 to R318, R347). -/
inductive Reply where
  /-- A frame of NEXT_FRAME. -/
  | frame (f : Frame)
  /-- NONE: no more frames. -/
  | noFrame
  /-- ERROR(k). -/
  | error (k : ErrorKind)
  /-- REFUSED. -/
  | refused
  /-- The result of GET_VERSION. -/
  | version (v : Version)
  /-- The result of GET_WIDTH or GET_HEIGHT. -/
  | number (n : U16)
  /-- The result of GET_BACKGROUND_COLOR. -/
  | color (p : Pixel)
deriving DecidableEq, Repr, Inhabited

/-- A host command not yet taken: its number (decision D39) and its byte operand (log 3). -/
structure HostWord where
  number : Nat
  bytes  : Bytes
deriving DecidableEq, Repr, Inhabited

end Sys2Proof.Machine

namespace Sys2Proof.Machine

/-- The state of one decoder (spec/10_state.md). Registers used in exact arithmetic are Nat (log 24). -/
structure State where
  /-- R20. -/
  phase   : Phase
  /-- R21, the program counter. -/
  pos     : Nat
  /-- R22: the bytes of the input buffer that are not 0x00, offsets strictly rising (log 7). -/
  buf     : List Host.Cell
  /-- R22: the number of bytes of the input buffer. -/
  len     : Nat
  /-- R23. -/
  reader  : Reader
  /-- R25. -/
  scr     : ScreenRegs
  /-- R26. -/
  gpal    : List Pixel
  /-- R27. -/
  lpal    : List Pixel
  /-- R28. -/
  apal    : PaletteRef
  /-- R29. -/
  gc      : GraphicControl
  /-- R30. -/
  img     : ImageRegs
  /-- R31, R32. -/
  lzw     : Engine
  /-- R33. -/
  cur     : Cursor
  /-- R34, R35. -/
  canvas  : Canvas
  /-- A command of this decoder was refused (R318); clear after CONSTRUCT (R380). -/
  refused : Bool
  /-- A command of this run was refused: the mark that no step clears (R318, log 10). -/
  everRefused : Bool
  /-- The place inside a running command (log 2). -/
  control : Control
  /-- Host commands not yet taken, the next one first (log 3). -/
  inbox   : List HostWord
  /-- Replies handed to the host, the oldest first (log 3). -/
  outbox  : List Reply
deriving DecidableEq, Repr, Inhabited

/-- The state after reset (R38, R380), over an empty buffer and with no command waiting. The values of
registers that the spec leaves unwritten are DESIGN CHOICE, log 4. -/
def State.reset : State where
  phase   := .fresh
  pos     := 0
  buf     := []
  len     := 0
  reader  := ⟨0, 0, 0⟩
  scr     := ⟨.gif87a, 0#16, 0#16, false, 0#3, 0#8⟩
  gpal    := []
  lpal    := []
  apal    := .globalPalette
  gc      := ⟨0#16, none, .noneD⟩
  img     := ⟨0#16, 0#16, 0#16, 0#16, false, false, 0#3⟩
  lzw     := ⟨0, 0, 0, 0, 0, none, []⟩
  cur     := ⟨0, 0, 0, 0, 0⟩
  canvas  := ⟨false, [], .snap []⟩
  refused := false
  everRefused := false
  control := .idle
  inbox   := []
  outbox  := []

/-- A model fault (R345): the source gives the case no meaning, and the machine stops. Each carries the
state that trap entry leaves (R347), kept for inspection only. All are safe: nothing is claimed of what
follows (log 8). -/
inductive Fault where
  /-- 0x10, raised by LZW_INIT (R180) for a min_code_size byte 0 or 1. Safe. -/
  | unspecMinCodeSize (s : State)
  /-- 0x11, raised by UNSPEC_CODE (R187). Safe. -/
  | unspecCode (s : State)
  /-- 0x12, raised by LOOKUP (R273) for an index beyond the active palette. Safe. -/
  | unspecPaletteIndex (s : State)
  /-- 0x12, raised by GET_BACKGROUND_COLOR (R315) for an index beyond the global palette. Safe. -/
  | unspecBackgroundIndex (s : State)
  /-- 0x13, raised by EXT_GCE (R223) for a terminator byte other than 0x00. Safe. -/
  | unspecGceTerminator (s : State)
  /-- 0x14, raised by INTERLACE_CHECK (R274). Safe. -/
  | unspecPartialInterlace (s : State)
deriving DecidableEq, Repr

/-- No meaning. -/
inductive Refusal where
  /-- An instruction without a meaning, raised by `exec` alone. Safe. No arm uses it. -/
  | notModelled (mnemonic : String)
  /-- A host command number outside 0..6, raised by the fetch of a command: no rule gives it a meaning
  (decision D39, log 18). Safe. -/
  | unknownCommand (number : Nat)
deriving DecidableEq, Repr

end Sys2Proof.Machine
end

