-- ==== Sys2Proof/Machine/Ops.lean ====
section
/-! DEFINITION. The named operations over the input buffer, the dictionary, the canvas and the replies;
the outcome of an operation that can raise; and trap entry (spec/60_exceptions.md R347). -/

namespace Sys2Proof.Machine

/-- The outcome of a step. -/
abbrev Outcome := Host.Outcome State Fault Refusal

/-! ## Input buffer (spec/20_memory.md) -/

/-- What an offset below `len` that is not listed reads as (log 7). -/
def Memory.unlisted : Byte := 0#8

/-- `buf[p]`, for an offset below `len`. -/
def Memory.read : List Host.Cell → Nat → Byte
  | [], _ => Memory.unlisted
  | c :: cs, p => if c.1 = p then c.2 else Memory.read cs p

/-- The cells of a run of bytes that starts at offset `p`. -/
def Memory.cellsFrom : Nat → Bytes → List Host.Cell
  | _, [] => []
  | p, b :: bs =>
    if b = Memory.unlisted then Memory.cellsFrom (p + 1) bs
    else (p, b) :: Memory.cellsFrom (p + 1) bs

/-- The buffer that holds the host's bytes from offset 0 (R22, R310). -/
def Memory.ofBytes (bytes : Bytes) : List Host.Cell :=
  Memory.cellsFrom 0 bytes

/-- Offsets strictly rise from at least `lo`, all are below `len`, and no cell holds what an unlisted
offset reads as. -/
def Memory.wfFrom (lo len : Nat) : List Host.Cell → Bool
  | [] => true
  | c :: cs => lo ≤ c.1 && c.1 < len && c.2 != Memory.unlisted && Memory.wfFrom (c.1 + 1) len cs

/-- The canonical form of a buffer of `len` bytes. -/
def Memory.wf (buf : List Host.Cell) (len : Nat) : Bool :=
  Memory.wfFrom 0 len buf

/-- `buf[p]` where it exists; there is no byte at or past `len` (R70, R71). -/
def State.byteAt? (s : State) (p : Nat) : Option Byte :=
  if p < s.len then some (Memory.read s.buf p) else none

/-- `n` bytes of a buffer from offset `p`. -/
def Memory.readRun (buf : List Host.Cell) : Nat → Nat → Bytes
  | 0, _ => []
  | n + 1, p => Memory.read buf p :: Memory.readRun buf n (p + 1)

/-- Every byte from offset `p` to the end of the buffer. -/
def State.bytesFrom (s : State) (p : Nat) : Bytes :=
  Memory.readRun s.buf (s.len - p) p

/-- `pos <- pos + n` (R119). -/
def State.advance (s : State) (n : Nat) : State :=
  { s with pos := s.pos + n }

/-- The core moves to another place of the command (log 2). -/
def State.goto (s : State) (c : Control) : State :=
  { s with control := c }

/-- A value is returned to the host (log 3). -/
def State.reply (s : State) (r : Reply) : State :=
  { s with outbox := s.outbox ++ [r] }

/-! ## Operations that can raise -/

/-- An operation completes with a value, or stops at a `raise` or `fault` (R14). Either way `s` is the
state at that point. -/
inductive Result (α : Type) where
  | ok (a : α) (s : State)
  | trap (k : Cause) (s : State)
deriving DecidableEq, Repr

/-- Run the next statement of a rule: it does not run after a trap (R14). -/
def Result.bind {α β : Type} (r : Result α) (f : α → State → Result β) : Result β :=
  match r with
  | .ok a s => f a s
  | .trap k s => .trap k s

/-- `raise E` (R13). -/
def raise {α : Type} (k : ErrorKind) (s : State) : Result α :=
  .trap (.error k) s

/-- `fault F` (R13). -/
def fault {α : Type} (f : FaultCode) (s : State) : Result α :=
  .trap (.fault f) s

/-! ## Taking an exception (R347) -/

/-- The numeric code of a cause (R340, decision D21). -/
def Cause.code : Cause → Nat
  | .error .invalidHeader => 1
  | .error .unexpectedBlock => 2
  | .error .truncated => 3
  | .error .malformed => 4
  | .fault .unspecMinCodeSize => 0x10
  | .fault .unspecCode => 0x11
  | .fault .unspecPaletteIndex => 0x12
  | .fault .unspecGceTerminator => 0x13
  | .fault .unspecPartialInterlace => 0x14

/-- Trap entry: the command ends and `phase` records the cause; every other register keeps its value
(R347). There is no return from it (R349): `phase = FAILED` admits only RELEASE. -/
def trapEntry (k : Cause) (s : State) : State :=
  { s with phase := .failed k, control := .idle }

/-- Trap entry of an error kind: the host gets ERROR(k) (R347). -/
def takeError (k : ErrorKind) (s : State) : State :=
  (trapEntry (.error k) s).reply (.error k)

/-- The fault outcome of a model fault, with the state trap entry leaves (R345, R347). -/
def modelFault (f : FaultCode) (s : State) : Fault :=
  match f with
  | .unspecMinCodeSize => .unspecMinCodeSize (trapEntry (.fault f) s)
  | .unspecCode => .unspecCode (trapEntry (.fault f) s)
  | .unspecPaletteIndex => .unspecPaletteIndex (trapEntry (.fault f) s)
  | .unspecGceTerminator => .unspecGceTerminator (trapEntry (.fault f) s)
  | .unspecPartialInterlace => .unspecPartialInterlace (trapEntry (.fault f) s)

/-- The step that an operation amounts to: its state, or trap entry. -/
def Result.finish (r : Result Unit) : Outcome :=
  match r with
  | .ok _ s => .next s
  | .trap (.error k) s => .next (takeError k s)
  | .trap (.fault f) s => .fault (modelFault f s)

/-- The code of a fault outcome (R340). -/
def Fault.code : Fault → Nat
  | .unspecMinCodeSize _ => 0x10
  | .unspecCode _ => 0x11
  | .unspecPaletteIndex _ => 0x12
  | .unspecBackgroundIndex _ => 0x12
  | .unspecGceTerminator _ => 0x13
  | .unspecPartialInterlace _ => 0x14

/-- The rule that raises a fault outcome (R345). -/
def Fault.rule : Fault → Nat
  | .unspecMinCodeSize _ => 180
  | .unspecCode _ => 187
  | .unspecPaletteIndex _ => 273
  | .unspecBackgroundIndex _ => 315
  | .unspecGceTerminator _ => 223
  | .unspecPartialInterlace _ => 274

/-- The state that trap entry left behind a fault outcome (R347). -/
def Fault.state : Fault → State
  | .unspecMinCodeSize s => s
  | .unspecCode s => s
  | .unspecPaletteIndex s => s
  | .unspecBackgroundIndex s => s
  | .unspecGceTerminator s => s
  | .unspecPartialInterlace s => s

/-- A refused command: no register changes, the marks are set, the host gets REFUSED (R318). -/
def refuse (s : State) : State :=
  ({ s with refused := true, everRefused := true }).reply .refused

/-! ## Dictionary (R32) -/

/-- `dict[c]`. -/
def Dict.read : List (Nat × List Nat) → Nat → List Nat
  | [], _ => []
  | e :: es, c => if e.1 = c then e.2 else Dict.read es c

/-- Put a sequence in front unless it is empty: an empty sequence is not listed. -/
def Dict.cons (c : Nat) (q : List Nat) (es : List (Nat × List Nat)) : List (Nat × List Nat) :=
  if q = [] then es else (c, q) :: es

/-- `dict[c] <- q`, in the canonical form. -/
def Dict.write : List (Nat × List Nat) → Nat → List Nat → List (Nat × List Nat)
  | [], c, q => Dict.cons c q []
  | e :: es, c, q =>
    if e.1 < c then e :: Dict.write es c q
    else if e.1 = c then Dict.cons c q es
    else Dict.cons c q (e :: es)

/-- `for i in 0 .. n-1: dict[i] <- [i]` (R180): the literal entries replace whatever stood below `n`. -/
def Dict.writeLiterals (n : Nat) (d : List (Nat × List Nat)) : List (Nat × List Nat) :=
  (List.range n).map (fun i => (i, [i])) ++ d.filter (fun e => n ≤ e.1)

/-- Codes strictly rise from at least `lo` and no empty sequence is listed. -/
def Dict.wfFrom (lo : Nat) : List (Nat × List Nat) → Bool
  | [] => true
  | e :: es => lo ≤ e.1 && !e.2.isEmpty && Dict.wfFrom (e.1 + 1) es

/-- The canonical form of the dictionary. -/
def Dict.wf (d : List (Nat × List Nat)) : Bool :=
  Dict.wfFrom 0 d

/-! ## Palettes and canvas -/

/-- Z, the colour of a pixel never written (spec/43_compositor.md). -/
def zeroPixel : Pixel := ⟨0#8, 0#8, 0#8, 0#8⟩

/-- A palette entry as a colour: alpha is 255 (R104, R227). -/
def colorOf (c : Rgb) : Pixel :=
  ⟨c.r, c.g, c.b, 255#8⟩

/-- `apal` read through its reference (R28). -/
def State.activePalette (s : State) : List Pixel :=
  match s.apal with
  | .globalPalette => s.gpal
  | .localPalette => s.lpal

/-- The number of canvas elements, W × H (R34). -/
def State.canvasSize (s : State) : Nat :=
  s.scr.W.toNat * s.scr.H.toNat

/-- `OIDX(x, y) = (H - 1 - y) * W + x` (R75, R260). -/
def oidx (W H x y : Nat) : Nat :=
  (H - 1 - y) * W + x

/-- OIDX on this screen. -/
def State.oidx (s : State) (x y : Nat) : Nat :=
  Machine.oidx s.scr.W.toNat s.scr.H.toNat x y

/-- `Zc`: W × H copies of Z (R260). -/
def State.zeroCanvas (s : State) : List Pixel :=
  List.replicate s.canvasSize zeroPixel

/-- `OutRead(k)` (R13). -/
def State.outRead (s : State) (k : Nat) : Pixel :=
  s.canvas.output.getD k zeroPixel

/-- `OutWrite(k, px)` (R13). -/
def State.outWrite (s : State) (k : Nat) (px : Pixel) : State :=
  { s with canvas := { s.canvas with output := s.canvas.output.set k px } }

/-- PREV_CONTENT (R267). -/
def State.prevContent (s : State) : List Pixel :=
  match s.canvas.prev with
  | .same => s.canvas.output
  | .snap b => b

/-- A pixel as bytes: R, G, B, A (R75, decision D28). -/
def Pixel.bytes (p : Pixel) : Bytes :=
  [p.r, p.g, p.b, p.a]

/-- A frame's pixels as bytes (R75, R317). -/
def Frame.bytes (f : Frame) : Bytes :=
  f.pixels.flatMap Pixel.bytes

/-- Screen pixel (x, y) of a frame (R317). -/
def Frame.pixelAt (f : Frame) (x y : Nat) : Pixel :=
  f.pixels.getD (Machine.oidx f.width.toNat f.height.toNat x y) zeroPixel

end Sys2Proof.Machine
end

