-- ==== Sys2Proof/Machine/Flags.lean ====
section
/-! DEFINITION. Status bits (spec/10_state.md R36) and the phase conditions of the host commands
(spec/44_host_interface.md R318). The core has no condition codes. -/

namespace Sys2Proof.Machine

/-- `phase = FAILED(_)` (R36). -/
def Phase.isFailed : Phase → Bool
  | .failed _ => true
  | .fresh => false
  | .ready => false
  | .done => false
  | .released => false

/-- CONSTRUCT is refused in FAILED, where every command other than RELEASE is (R349), and in RELEASED,
where every command is (decision D36). -/
def Phase.refusesConstruct (p : Phase) : Bool :=
  p.isFailed || p == .released

/-- NEXT_FRAME is refused in FAILED and RELEASED (R311, R318). -/
def Phase.refusesNextFrame (p : Phase) : Bool :=
  p.isFailed || p == .released

/-- The attribute reads are refused in FRESH, FAILED and RELEASED (R312 to R315, R318). -/
def Phase.refusesAttribute (p : Phase) : Bool :=
  p == .fresh || p.isFailed || p == .released

/-- RELEASE is refused in RELEASED (R316, R318). -/
def Phase.refusesRelease (p : Phase) : Bool :=
  p == .released

/-- The stop condition `cy >= y_limit` (R36, R272). -/
def State.stopped (s : State) : Bool :=
  s.cur.yLimit ≤ s.cur.cy

/-- `gc_tidx = SOME t and i = t`: the index is transparent (R36, R271). The whole index is compared,
before any lookup (decision D32). -/
def GraphicControl.skips (g : GraphicControl) (i : Nat) : Bool :=
  match g.tidx with
  | some t => i == t.toNat
  | none => false

/-- `gc_tidx` from the flags byte and the transparent index byte (R108, R116). -/
def transparentIndex (flags t : Byte) : Option Byte :=
  if transparencyFlag flags then some t else none

/-- `gc_disposal` from its selector (R109). -/
def disposalOf (d : BitVec 2) : Disposal :=
  if d = 0#2 then .noneD
  else if d = 1#2 then .keep
  else if d = 2#2 then .restoreBg
  else .restorePrev

/-- The selector of `gc_disposal` (R109). -/
def Disposal.selector : Disposal → BitVec 2
  | .noneD => 0#2
  | .keep => 1#2
  | .restoreBg => 2#2
  | .restorePrev => 3#2

end Sys2Proof.Machine
end

