-- ==== Sys2Proof/Machine/Compositor.lean ====
section
/-! DEFINITION. The frame compositor (spec/43_compositor.md): allocation, the four disposal selectors,
the placement cursor, PLACE, interlace, and emission. -/

namespace Sys2Proof.Machine

/-- FIRST_ALLOC (R261). -/
def firstAlloc (s : State) : State :=
  if s.canvas.written then s
  else { s with canvas := ⟨true, s.zeroCanvas, .snap s.zeroCanvas⟩ }

/-! ## Disposal -/

/-- `prev <- SAME` (R263, R264). -/
def aliasPrev (s : State) : State :=
  { s with canvas := { s.canvas with prev := .same } }

/-- DISPOSE_RESTORE_BG under a given RB_PREV_POLICY (R265). -/
def restoreBackground (policy : RbPrevPolicy) (s : State) : State :=
  let kept :=
    match s.canvas.prev, policy with
    | .same, .detach => .snap s.canvas.output
    | .same, .inPlace => .same
    | .snap b, _ => .snap b
  { s with canvas := { s.canvas with output := s.zeroCanvas, prev := kept } }

/-- DISPOSE_RESTORE_PREV (R266). -/
def restorePrevious (s : State) : State :=
  match s.canvas.prev with
  | .same => { s with canvas := { s.canvas with prev := .snap s.canvas.output } }
  | .snap b => { s with canvas := { s.canvas with output := b } }

/-- DISPOSE_NONE (R263); DECODE_FRAME goes on at CURSOR_INIT (R230). -/
def execDisposeNone (s : State) : Outcome :=
  .next ((aliasPrev s).goto .cursor)

/-- DISPOSE_KEEP (R264); DECODE_FRAME goes on at CURSOR_INIT (R230). -/
def execDisposeKeep (s : State) : Outcome :=
  .next ((aliasPrev s).goto .cursor)

/-- DISPOSE_RESTORE_BG (R265); DECODE_FRAME goes on at CURSOR_INIT (R230). -/
def execDisposeRestoreBg (s : State) : Outcome :=
  .next ((restoreBackground Config.rbPrevPolicy s).goto .cursor)

/-- DISPOSE_RESTORE_PREV (R266); DECODE_FRAME goes on at CURSOR_INIT (R230). -/
def execDisposeRestorePrev (s : State) : Outcome :=
  .next ((restorePrevious s).goto .cursor)

/-! ## Placement -/

/-- `y_limit` under a given VCLIP_LIMIT (R268). -/
def yLimitOf (v : VclipLimit) (s : State) : Nat :=
  match v with
  | .screen => s.scr.H.toNat
  | .rect => min (s.img.top.toNat + s.img.height.toNat) s.scr.H.toNat

/-- CURSOR_INIT under a given VCLIP_LIMIT (R268). -/
def cursorInit (v : VclipLimit) (s : State) : State :=
  { s with cur :=
      { cx := s.img.left.toNat
        cy := s.img.top.toNat
        rowEnd := s.img.left.toNat + s.img.width.toNat
        safeEnd := min (s.img.left.toNat + s.img.width.toNat) s.scr.W.toNat
        yLimit := yLimitOf v s } }

/-- LOOKUP (R273). -/
def lookup (i : Nat) (s : State) : Result Pixel :=
  match s.activePalette[i]? with
  | some px => .ok px s
  | none => fault .unspecPaletteIndex s

/-- The cursor moves one column on and wraps at `row_end` to the next row (R269). -/
def Cursor.next (left : Nat) (c : Cursor) : Cursor :=
  if c.cx + 1 = c.rowEnd then { c with cx := left, cy := c.cy + 1 } else { c with cx := c.cx + 1 }

/-- The cursor after one index (R269). -/
def advanceCursor (s : State) : State :=
  { s with cur := s.cur.next s.img.left.toNat }

/-- Whether an index at the cursor is written: inside the screen's columns (R270) and not transparent
(R271). -/
def State.writes (s : State) (i : Nat) : Bool :=
  s.cur.cx < s.cur.safeEnd && !s.gc.skips i

/-- PLACE (R269, R272). -/
def place (i : Nat) (s : State) : Result Unit :=
  if s.stopped then .ok () s
  else if s.writes i then
    (lookup i s).bind fun px s' => .ok () (advanceCursor (s'.outWrite (s'.oidx s'.cur.cx s'.cur.cy) px))
  else .ok () (advanceCursor s)

/-- EMIT for each index of a sequence, in order (R190). -/
def emitAll : List Nat → State → Result Unit
  | [], s => .ok () s
  | i :: is, s => (place i s).bind fun _ s' => emitAll is s'

/-! ## Interlace -/

/-- INTERLACE_CHECK (R274). -/
def interlaceCheck (s : State) : Result Unit :=
  if s.img.interlaced && (s.scr.W == 0#16 || s.img.top != 0#16 || s.img.height != s.scr.H) then
    fault .unspecPartialInterlace s
  else .ok () s

/-- PASS_ORDER (R276). -/
def passOrder (n : Nat) : List Nat :=
  (List.range n).filter (fun r => r % 8 = 0)
    ++ (List.range n).filter (fun r => r % 8 = 4)
    ++ (List.range n).filter (fun r => r % 4 = 2)
    ++ (List.range n).filter (fun r => r % 2 = 1)

/-- Row `src` of `old` is written to row `dst` of `out`, both through OIDX (R275). -/
def moveRow (W H : Nat) (old out : List Pixel) (src dst : Nat) : List Pixel :=
  (List.range W).foldl
    (fun o x => o.set (oidx W H x dst) (old.getD (oidx W H x src) zeroPixel)) out

/-- Every stored row `s` goes to display row `PASS_ORDER(H)[s]` (R275). -/
def deinterlaced (W H : Nat) (old : List Pixel) : List Pixel :=
  ((List.range H).zip (passOrder H)).foldl (fun o r => moveRow W H old o r.1 r.2) old

/-- DEINTERLACE (R275). -/
def deinterlace (s : State) : State :=
  { s with canvas :=
      { s.canvas with output := deinterlaced s.scr.W.toNat s.scr.H.toNat s.canvas.output } }

/-! ## Emission -/

/-- `gc_delay * 10`, exact (R116, R277). -/
def delayMs (s : State) : Nat :=
  s.gc.delay.toNat * 10

/-- The frame that EMIT_FRAME builds (R277). -/
def frameOf (s : State) : Frame :=
  ⟨s.scr.W, s.scr.H, delayMs s, s.canvas.output⟩

/-- The end of DECODE_FRAME (R230): DEINTERLACE when the frame is interlaced, then EMIT_FRAME, whose
frame NEXT_FRAME returns to the host (R311). -/
def finishFrame (s : State) : State :=
  let s' := if s.img.interlaced then deinterlace s else s
  (s'.reply (.frame (frameOf s'))).goto .idle

end Sys2Proof.Machine
end

