-- ==== Sys2Proof/Machine/Reader.lean ====
section
/-! DEFINITION. The bit-stream reader (spec/40_bit_reader.md): READER_INIT, FETCH_BYTE, READ_CODE,
SKIP_RESIDUAL and SKIP_CHAIN. -/

namespace Sys2Proof.Machine

/-- READER_INIT (R150). -/
def readerInit (s : State) : State :=
  { s with reader := ⟨0, 0, 0⟩ }

/-- The first half of FETCH_BYTE: enter the next sub-block, whose declared length is checked before any
of its bytes is used (R151, decisions D11, D12). -/
def enterSubBlock (s : State) : Result Unit :=
  match s.byteAt? s.pos with
  | none => raise .truncated s
  | some l =>
    let s' := s.advance 1
    if l = 0#8 then raise .truncated s'
    else if s'.len < s'.pos + l.toNat then raise .malformed s'
    else .ok () { s' with reader := { s'.reader with sbRem := l.toNat } }

/-- The second half of FETCH_BYTE: append one data byte to `acc` (R151). A sub-block that was entered
lies inside the buffer; a read past its end would be Truncated (R21, log 17). -/
def takeByte (s : State) : Result Unit :=
  match s.byteAt? s.pos with
  | none => raise .truncated s
  | some b =>
    .ok () { s with
      pos := s.pos + 1
      reader :=
        { sbRem := s.reader.sbRem - 1
          acc := s.reader.acc + b.toNat * 2 ^ s.reader.nacc
          nacc := s.reader.nacc + 8 } }

/-- FETCH_BYTE (R151). -/
def fetchByte (s : State) : Result Unit :=
  if s.reader.sbRem = 0 then (enterSubBlock s).bind fun _ s' => takeByte s' else takeByte s

/-- `while nacc < n: FETCH_BYTE()`; each round adds 8 bits, so `n` rounds are enough (R152, log 23). -/
def fillBits : Nat → Nat → State → Result Unit
  | 0, _, s => .ok () s
  | rounds + 1, n, s =>
    if s.reader.nacc < n then (fetchByte s).bind fun _ s' => fillBits rounds n s' else .ok () s

/-- The code in the low `n` bits of `acc`, and the reader after it is taken (R152). -/
def takeBits (n : Nat) (s : State) : Result Nat :=
  .ok (s.reader.acc % 2 ^ n)
    { s with reader :=
        { s.reader with acc := s.reader.acc / 2 ^ n, nacc := s.reader.nacc - n } }

/-- READ_CODE (R152). -/
def readCode (n : Nat) (s : State) : Result Nat :=
  (fillBits n n s).bind fun _ s' => takeBits n s'

/-- SKIP_CHAIN (R155). The first argument is at least the number of bytes left; each round takes at
least one, and none is left when it reaches 0 (log 23). -/
def skipChainFrom : Nat → State → Result Unit
  | 0, s => raise .truncated s
  | left + 1, s =>
    match s.byteAt? s.pos with
    | none => raise .truncated s
    | some l =>
      let s' := s.advance 1
      if l = 0#8 then .ok () s'
      else if s'.len < s'.pos + l.toNat then raise .malformed s'
      else skipChainFrom left (s'.advance l.toNat)

/-- SKIP_CHAIN (R155). -/
def skipChain (s : State) : Result Unit :=
  skipChainFrom (s.len - s.pos) s

/-- SKIP_RESIDUAL (R154). -/
def skipResidual (s : State) : Result Unit :=
  skipChain { s with pos := s.pos + s.reader.sbRem, reader := ⟨0, 0, 0⟩ }

end Sys2Proof.Machine
end

