-- ==== Sys2Proof/Machine/Lzw.lean ====
section
/-! DEFINITION. The LZW dictionary engine (spec/41_lzw_engine.md): LZW_INIT, the six code classes, and
the micro-operations ADD_ENTRY and GROW. -/

namespace Sys2Proof.Machine

/-- The registers that LZW_INIT writes after its check (R180). -/
def engineInit (m : Nat) (dict : List (Nat × List Nat)) : Engine :=
  { m := m
    clearCode := clearCodeOf m
    endCode := endCodeOf m
    width := m + 1
    size := initialSize m
    prevCode := none
    dict := Dict.writeLiterals (2 ^ m) dict }

/-- LZW_INIT (R180). -/
def lzwInit (v : Byte) (s : State) : Result Unit :=
  let m := clampMinCodeSize v
  if m < Config.minCodeSizeLow then
    fault .unspecMinCodeSize { s with lzw := { s.lzw with m := m } }
  else .ok () { s with lzw := engineInit m s.lzw.dict }

/-- ADD_ENTRY (R188). -/
def Engine.addEntry (e : Engine) (q : List Nat) : Engine :=
  { e with dict := Dict.write e.dict e.size q, size := e.size + 1 }

/-- GROW (R189). -/
def Engine.grow (e : Engine) : Engine :=
  if e.size = 2 ^ e.width ∧ e.width < Config.maxCodeWidth then { e with width := e.width + 1 } else e

/-- `dict[c]`. -/
def Engine.entry (e : Engine) (c : Nat) : List Nat :=
  Dict.read e.dict c

/-- `k <- q[0]`. The sequence of a defined code is never empty (R191 (d)); log 16. -/
def firstSymbol (q : List Nat) : Nat :=
  q.headD 0

/-- CLEAR on the engine registers (R182). -/
def Engine.clear (e : Engine) : Engine :=
  { e with width := e.m + 1, size := initialSize e.m, prevCode := none }

/-- DICT on the engine registers, after its emission (R184). -/
def Engine.dictCode (e : Engine) (c : Nat) : Engine :=
  let k := firstSymbol (e.entry c)
  let added :=
    match e.prevCode with
    | some p => if e.size < Config.dictCap then e.addEntry (e.entry p ++ [k]) else e
    | none => e
  Engine.grow { added with prevCode := some c }

/-- `s = dict[p] ++ [dict[p][0]]` of KWKWK (R185). -/
def Engine.kwkwkSequence (e : Engine) (p : Nat) : List Nat :=
  e.entry p ++ [firstSymbol (e.entry p)]

/-- KWKWK on the engine registers, after its emission (R185). -/
def Engine.kwkwkCode (e : Engine) (p c : Nat) : Engine :=
  let added := if e.size < Config.dictCap then e.addEntry (e.kwkwkSequence p) else e
  Engine.grow { added with prevCode := some c }

/-- CLEAR (R182). -/
def execClear (s : State) : Outcome :=
  .next { s with lzw := s.lzw.clear }

/-- END (R183): leave the code loop, then SKIP_RESIDUAL (R181). -/
def execEndCode (s : State) : Outcome :=
  ((skipResidual s).bind fun _ s' => .ok () (s'.goto .emit)).finish

/-- DICT (R184). -/
def execDict (c : Nat) (s : State) : Outcome :=
  ((emitAll (s.lzw.entry c) s).bind fun _ s' => .ok () { s' with lzw := s'.lzw.dictCode c }).finish

/-- KWKWK (R185). The class holds only with a previous code p; without one the code is past the
dictionary and is skipped (R115, R186). -/
def execKwkwk (c : Nat) (s : State) : Outcome :=
  match s.lzw.prevCode with
  | none => .next s
  | some p =>
    ((emitAll (s.lzw.kwkwkSequence p) s).bind fun _ s' =>
      .ok () { s' with lzw := s'.lzw.kwkwkCode p c }).finish

/-- SKIP (R186): nothing changes. -/
def execSkip (_c : Nat) (s : State) : Outcome :=
  .next s

/-- UNSPEC_CODE (R187): the source gives such a code no meaning. -/
def execUnspecCode (_c : Nat) (s : State) : Outcome :=
  .fault (modelFault .unspecCode s)

end Sys2Proof.Machine
end

