-- ==== Sys2Proof/Machine/Blocks.lean ====
section
/-! DEFINITION. Container blocks (spec/42_container_blocks.md): PARSE_HEADER and the block tokens. A
token's meaning starts with `pos` at the token's first byte and advances it over the token (R119). -/

namespace Sys2Proof.Machine

/-- READ_PALETTE (R227) of an operand: absent when the bytes run out. -/
def readPalette (n : Nat) (pal : Option (List Rgb)) (s : State) : Result (List Pixel) :=
  match pal with
  | none => raise .truncated s
  | some p => .ok (p.map colorOf) (s.advance (3 * n))

/-- The header registers from the screen descriptor (R102, R220). -/
def screenRegs (v : Version) (h : Screen) : ScreenRegs :=
  { version := v
    W := h.width
    H := h.height
    gctPresent := paletteFlag h.flags
    gctN := paletteCode h.flags
    bgIndex := h.bgIndex }

/-- `gpal <- READ_PALETTE(2^(gct_n + 1))`, or the empty palette (R220). -/
def readGlobalPalette (flags : Byte) (gpal : Option (List Rgb)) (s : State) : Result (List Pixel) :=
  if paletteFlag flags then readPalette (paletteEntries (paletteCode flags)) gpal s else .ok [] s

/-- PARSE_HEADER (R220). -/
def parseHeader (screen : Option Screen) (gpal : Option (List Rgb)) (s : State) : Result Unit :=
  match screen with
  | none => raise .invalidHeader s
  | some h =>
    match h.version with
    | none => raise .invalidHeader s
    | some v =>
      (readGlobalPalette h.flags gpal { s with scr := screenRegs v h, pos := Config.headerBytes }).bind
        fun p s' => .ok () ({ s' with gpal := p, phase := .ready }.goto .block)

/-- PARSE_HEADER (R220). -/
def execParseHeader (screen : Option Screen) (gpal : Option (List Rgb)) (s : State) : Outcome :=
  (parseHeader screen gpal s).finish

/-- The image descriptor registers (R111, R222). -/
def imageRegs (d : ImageDesc) : ImageRegs :=
  { left := d.left
    top := d.top
    width := d.width
    height := d.height
    hasLocal := paletteFlag d.flags
    interlaced := interlaceFlag d.flags
    lsizeN := paletteCode d.flags }

/-- `if f_local = 1: lpal <- READ_PALETTE(2^(f_lsize_n + 1))` (R222). -/
def readLocalPalette (flags : Byte) (lpal : Option (List Rgb)) (s : State) : Result Unit :=
  if paletteFlag flags then
    (readPalette (paletteEntries (paletteCode flags)) lpal s).bind fun p s' => .ok () { s' with lpal := p }
  else .ok () s

/-- IMAGE up to its min_code_size byte, which it delivers (R222). -/
def beginImage (desc : Option ImageDesc) (lpal : Option (List Rgb)) (v : Option Byte) (s : State) :
    Result Byte :=
  match desc with
  | none => raise .truncated (s.advance 1)
  | some d =>
    (readLocalPalette d.flags lpal { s with img := imageRegs d, pos := s.pos + 10 }).bind fun _ s' =>
      match v with
      | none => raise .truncated s'
      | some b => .ok b (s'.advance 1)

/-- SELECT_PALETTE (R228). -/
def selectPalette (s : State) : State :=
  { s with apal := if s.img.hasLocal then .localPalette else .globalPalette }

/-- DECODE_FRAME up to DISPOSE, whose selector is the next instruction (R230). -/
def beginFrame (v : Byte) (s : State) : Result Unit :=
  (lzwInit v s).bind fun _ s1 =>
    (interlaceCheck s1).bind fun _ s2 => .ok () ((firstAlloc s2).goto .dispose)

/-- IMAGE_EMPTY after the token's operands: the chain is skipped (R229). -/
def skipImage (s : State) : Result Unit :=
  skipChain s

/-- IMAGE after the token's operands: an empty image is skipped, any other is decoded (R222). -/
def imageBody (v : Byte) (s : State) : Result Unit :=
  if s.img.width = 0#16 ∨ s.img.height = 0#16 then skipImage s else beginFrame v (selectPalette s)

/-- IMAGE (R222). -/
def execImage (desc : Option ImageDesc) (lpal : Option (List Rgb)) (v : Option Byte) (s : State) :
    Outcome :=
  ((beginImage desc lpal v s).bind imageBody).finish

/-- IMAGE_EMPTY (R229). The min_code_size byte is read and not checked (decision D19). -/
def execImageEmpty (d : ImageDesc) (lpal : Option (List Rgb)) (v : Option Byte) (s : State) : Outcome :=
  ((beginImage (some d) lpal v s).bind fun _ s' => skipImage s').finish

/-- The graphic control registers from an extension's body (R107 to R109, R223). -/
def graphicControl (b : GceBody) : GraphicControl :=
  { delay := b.delay
    tidx := transparentIndex b.flags b.transparent
    disposal := disposalOf (disposalField b.flags) }

/-- EXT_GCE (R223). The registers are written before the terminator is checked (R350 (f)). -/
def extGce (body : Option GceBody) (s : State) : Result Unit :=
  match body with
  | none => raise .truncated (s.advance 2)
  | some b =>
    let s' := { s with gc := graphicControl b, pos := s.pos + 8 }
    if b.terminator = 0#8 then .ok () s' else fault .unspecGceTerminator s'

/-- EXT_GCE (R223). -/
def execExtGce (body : Option GceBody) (s : State) : Outcome :=
  (extGce body s).finish

/-- EXT_SKIP (R224): the chain after the label is skipped, whatever the label. -/
def execExtSkip (_label : Byte) (s : State) : Outcome :=
  (skipChain (s.advance 2)).finish

/-- TRAILER (R225): NEXT_FRAME returns NONE. -/
def execTrailer (s : State) : Outcome :=
  .next ((({ s with phase := .done }.advance 1).reply .noFrame).goto .idle)

/-- UNEXPECTED (R226). -/
def execUnexpected (_t : Byte) (s : State) : Outcome :=
  (raise (α := Unit) .unexpectedBlock (s.advance 1)).finish

end Sys2Proof.Machine
end

