-- ==== Sys2Proof/Machine/HostCommands.lean ====
section
/-! DEFINITION. The host commands (spec/44_host_interface.md). -/

namespace Sys2Proof.Machine

/-- The decoder that CONSTRUCT makes over the host's bytes, its mark clear (R310, R380). The queue of
commands, the replies already handed out and the mark of the run are no registers of the decoder and stay
(log 10, log 11). -/
def construct (bytes : Bytes) (s : State) : State :=
  { State.reset with
    buf := Memory.ofBytes bytes
    len := bytes.length
    everRefused := s.everRefused
    inbox := s.inbox
    outbox := s.outbox }

/-- CONSTRUCT (R310), refused by phase (R349, decision D36). -/
def execConstruct (bytes : Bytes) (s : State) : Outcome :=
  if s.phase.refusesConstruct then .next (refuse s) else .next (construct bytes s)

/-- NEXT_FRAME (R311): a fresh decoder goes to the header position, a ready one to the next block; the
tokens that follow are fetched from there (log 1). -/
def execNextFrame (s : State) : Outcome :=
  if s.phase.refusesNextFrame then .next (refuse s)
  else if s.phase = .done then .next (s.reply .noFrame)
  else if s.phase = .fresh then .next (s.goto .header)
  else .next (s.goto .block)

/-- An attribute read: refused by phase, or one reply (R312 to R315, R318). -/
def attributeRead (r : Reply) (s : State) : State :=
  if s.phase.refusesAttribute then refuse s else s.reply r

/-- GET_VERSION (R312). -/
def execGetVersion (s : State) : Outcome :=
  .next (attributeRead (.version s.scr.version) s)

/-- GET_WIDTH (R313). -/
def execGetWidth (s : State) : Outcome :=
  .next (attributeRead (.number s.scr.W) s)

/-- GET_HEIGHT (R314). -/
def execGetHeight (s : State) : Outcome :=
  .next (attributeRead (.number s.scr.H) s)

/-- GET_BACKGROUND_COLOR (R315). -/
def execGetBackgroundColor (s : State) : Outcome :=
  if s.phase.refusesAttribute then .next (refuse s)
  else if s.scr.gctPresent then
    match s.gpal[s.scr.bgIndex.toNat]? with
    | some px => .next (s.reply (.color px))
    | none => .fault (.unspecBackgroundIndex (trapEntry (.fault .unspecPaletteIndex) s))
  else .next (s.reply (.color zeroPixel))

/-- The buffers that RELEASE gives up are unwritten again: they hold what they hold at reset (R316,
log 6). -/
def releaseBuffers (s : State) : State :=
  { s with
    reader := State.reset.reader
    lzw := { s.lzw with dict := State.reset.lzw.dict }
    canvas := State.reset.canvas }

/-- RELEASE (R316). -/
def execRelease (s : State) : Outcome :=
  if s.phase.refusesRelease then .next (refuse s)
  else .next { releaseBuffers s with phase := .released }

end Sys2Proof.Machine
end

