-- ==== Sys2Proof/Machine/Dispatch.lean ====
section
/-! DEFINITION. One arm for each instruction, each the direct call of its meaning. -/

namespace Sys2Proof.Machine

def exec (i : Instr) (s : State) : Host.Outcome State Fault Refusal :=
  match i with
  | .parseHeader screen gpal => Sys2Proof.Machine.execParseHeader screen gpal s
  | .image desc lpal v => Sys2Proof.Machine.execImage desc lpal v s
  | .imageEmpty d lpal v => Sys2Proof.Machine.execImageEmpty d lpal v s
  | .extGce body => Sys2Proof.Machine.execExtGce body s
  | .extSkip label => Sys2Proof.Machine.execExtSkip label s
  | .trailer => Sys2Proof.Machine.execTrailer s
  | .unexpected t => Sys2Proof.Machine.execUnexpected t s
  | .clear => Sys2Proof.Machine.execClear s
  | .endCode => Sys2Proof.Machine.execEndCode s
  | .dict c => Sys2Proof.Machine.execDict c s
  | .kwkwk c => Sys2Proof.Machine.execKwkwk c s
  | .skip c => Sys2Proof.Machine.execSkip c s
  | .unspecCode c => Sys2Proof.Machine.execUnspecCode c s
  | .disposeNone => Sys2Proof.Machine.execDisposeNone s
  | .disposeKeep => Sys2Proof.Machine.execDisposeKeep s
  | .disposeRestoreBg => Sys2Proof.Machine.execDisposeRestoreBg s
  | .disposeRestorePrev => Sys2Proof.Machine.execDisposeRestorePrev s
  | .construct bytes => Sys2Proof.Machine.execConstruct bytes s
  | .nextFrame => Sys2Proof.Machine.execNextFrame s
  | .getVersion => Sys2Proof.Machine.execGetVersion s
  | .getWidth => Sys2Proof.Machine.execGetWidth s
  | .getHeight => Sys2Proof.Machine.execGetHeight s
  | .getBackgroundColor => Sys2Proof.Machine.execGetBackgroundColor s
  | .release => Sys2Proof.Machine.execRelease s

end Sys2Proof.Machine
end

