-- ==== Sys2Proof/WellFormed.lean ====
section
/-! DEFINITION. Which instruction terms the encoding can express (spec/30_encoding.md), and which codes
belong to their class in a given engine context (R115). -/

namespace Sys2Proof

/-- The operands are ones the encoding can carry: nothing is cut short, a palette has the length its
flags byte says, the introducer and label bytes are those of the class, a code has at most 12 bits. -/
def Instr.wellFormed : Instr → Bool
  | .parseHeader screen gpal =>
    match screen, gpal with
    | some h, some p => h.version.isSome && p.length == paletteLength h.flags
    | _, _ => false
  | .image desc lpal v =>
    match desc, lpal, v with
    | some d, some p, some _ => !d.isEmpty && p.length == paletteLength d.flags
    | _, _, _ => false
  | .imageEmpty d lpal v =>
    match lpal, v with
    | some p, some _ => d.isEmpty && p.length == paletteLength d.flags
    | _, _ => false
  | .extGce body => body.isSome
  | .extSkip label => label != 0xF9#8
  | .trailer => true
  | .unexpected t => t != 0x2C#8 && t != 0x21#8 && t != 0x3B#8
  | .clear => true
  | .endCode => true
  | .dict c => c < 2 ^ Config.maxCodeWidth
  | .kwkwk c => c < 2 ^ Config.maxCodeWidth
  | .skip c => c < 2 ^ Config.maxCodeWidth
  | .unspecCode c => c < 2 ^ Config.maxCodeWidth
  | .disposeNone => true
  | .disposeKeep => true
  | .disposeRestoreBg => true
  | .disposeRestorePrev => true
  | .construct _ => true
  | .nextFrame => true
  | .getVersion => true
  | .getWidth => true
  | .getHeight => true
  | .getBackgroundColor => true
  | .release => true

/-- The code is neither of the two reserved codes (R115 rows 1 and 2). -/
def CodeContext.isData (k : CodeContext) (c : Nat) : Bool :=
  c != clearCodeOf k.m && c != endCodeOf k.m

/-- A code instruction names its class only beside the engine registers: the condition column of
R115. Every other instruction fits every context. -/
def Instr.fits (k : CodeContext) : Instr → Bool
  | .dict c => k.isData c && c < k.size
  | .kwkwk c => k.isData c && c == k.size && k.prevCode.isSome
  | .skip c => k.isData c && k.size ≤ c && k.prevCode.isNone
  | .unspecCode c => k.isData c && k.size < c && k.prevCode.isSome
  | .parseHeader _ _ => true
  | .image _ _ _ => true
  | .imageEmpty _ _ _ => true
  | .extGce _ => true
  | .extSkip _ => true
  | .trailer => true
  | .unexpected _ => true
  | .clear => true
  | .endCode => true
  | .disposeNone => true
  | .disposeKeep => true
  | .disposeRestoreBg => true
  | .disposeRestorePrev => true
  | .construct _ => true
  | .nextFrame => true
  | .getVersion => true
  | .getWidth => true
  | .getHeight => true
  | .getBackgroundColor => true
  | .release => true

end Sys2Proof
end

