-- ==== Sys2Proof/Decode.lean ====
section
/-! DEFINITION. The decoder, total on anything a fetch can deliver, and after it the encoder, both from
the tables of spec/30_encoding.md. -/

namespace Sys2Proof

/-! ## Decoder -/

/-- Why no instruction can be read. -/
inductive DecodeReject where
  /-- The buffer ends where a block introducer is due (R221, decision D30). -/
  | noIntroducer
  /-- The buffer ends where an extension label is due (R221, decision D40). -/
  | noLabel
  /-- A host command number outside 0..6 (decision D39). -/
  | unknownCommand (number : Nat)
deriving DecidableEq, Repr

/-- The signature in bytes 0..5 (R101): `GIF87a` or `GIF89a`, nothing else. -/
def decodeSignature (b : Bytes) : Option Version :=
  if b = [0x47#8, 0x49#8, 0x46#8, 0x38#8, 0x37#8, 0x61#8] then some .gif87a
  else if b = [0x47#8, 0x49#8, 0x46#8, 0x38#8, 0x39#8, 0x61#8] then some .gif89a
  else none

/-- `n` palette entries of three bytes each and what follows them, or `none` when the bytes run out
(R104, R227). -/
def takePalette : Nat → Bytes → Option (List Rgb × Bytes)
  | 0, rest => some ([], rest)
  | n + 1, r :: g :: b :: rest =>
    (takePalette n rest).map fun p => (⟨r, g, b⟩ :: p.1, p.2)
  | _ + 1, _ => none

/-- The header position, from offset 0 (R101, R102, R104). -/
def decodeHeader : Bytes → Instr
  | s0 :: s1 :: s2 :: s3 :: s4 :: s5 :: w0 :: w1 :: h0 :: h1 :: f :: bg :: asp :: rest =>
    .parseHeader
      (some ⟨decodeSignature [s0, s1, s2, s3, s4, s5], u16le w0 w1, u16le h0 h1, f, bg, asp⟩)
      ((takePalette (paletteLength f) rest).map Prod.fst)
  | _ => .parseHeader none none

/-- The image token whose descriptor is `d`: IMAGE, or IMAGE_EMPTY by its condition (R222, R229). -/
def imageOf (d : ImageDesc) (lpal : Option (List Rgb)) (v : Option Byte) : Instr :=
  if d.isEmpty then .imageEmpty d lpal v else .image (some d) lpal v

/-- After the 0x2C introducer (R110). -/
def decodeImage : Bytes → Instr
  | l0 :: l1 :: t0 :: t1 :: w0 :: w1 :: h0 :: h1 :: f :: rest =>
    let d : ImageDesc := ⟨u16le l0 l1, u16le t0 t1, u16le w0 w1, u16le h0 h1, f⟩
    match takePalette (paletteLength f) rest with
    | none => imageOf d none none
    | some p => imageOf d (some p.1) p.2.head?
  | _ => .image none none none

/-- After the 0xF9 label (R107). -/
def decodeGce : Bytes → Instr
  | bs :: f :: d0 :: d1 :: t :: term :: _ => .extGce (some ⟨bs, f, u16le d0 d1, t, term⟩)
  | _ => .extGce none

/-- A block-introducer position (R105, R106). -/
def decodeBlock : Bytes → Except DecodeReject Instr
  | [] => .error .noIntroducer
  | t :: rest =>
    if t = 0x2C#8 then .ok (decodeImage rest)
    else if t = 0x21#8 then
      match rest with
      | [] => .error .noLabel
      | l :: body => if l = 0xF9#8 then .ok (decodeGce body) else .ok (.extSkip l)
    else if t = 0x3B#8 then .ok .trailer
    else .ok (.unexpected t)

/-- The code classes, first matching row of R115. -/
def decodeCode (k : CodeContext) (c : Nat) : Instr :=
  if c = clearCodeOf k.m then .clear
  else if c = endCodeOf k.m then .endCode
  else if c < k.size then .dict c
  else
    match k.prevCode with
    | none => .skip c
    | some _ => if c = k.size then .kwkwk c else .unspecCode c

/-- The disposal selectors (R109). -/
def decodeSelector (d : BitVec 2) : Instr :=
  if d = 0#2 then .disposeNone
  else if d = 1#2 then .disposeKeep
  else if d = 2#2 then .disposeRestoreBg
  else .disposeRestorePrev

/-- The host commands (decision D39). Only CONSTRUCT has an operand. -/
def decodeCommand (number : Nat) (bytes : Bytes) : Except DecodeReject Instr :=
  match number with
  | 0 => .ok (.construct bytes)
  | 1 => .ok .nextFrame
  | 2 => .ok .getVersion
  | 3 => .ok .getWidth
  | 4 => .ok .getHeight
  | 5 => .ok .getBackgroundColor
  | 6 => .ok .release
  | n => .error (.unknownCommand n)

/-- The decoder. -/
def decode (k : CodeContext) : FetchWord → Except DecodeReject Instr
  | .header b => .ok (decodeHeader b)
  | .block b => decodeBlock b
  | .code c => .ok (decodeCode k c)
  | .selector d => .ok (decodeSelector d)
  | .command n b => decodeCommand n b

/-! ## Encoder -/

/-- The signature bytes (R101). -/
def encodeSignature : Option Version → Bytes
  | some .gif87a => [0x47#8, 0x49#8, 0x46#8, 0x38#8, 0x37#8, 0x61#8]
  | some .gif89a => [0x47#8, 0x49#8, 0x46#8, 0x38#8, 0x39#8, 0x61#8]
  | none => []

/-- Palette entries in order, three bytes each (R104). -/
def encodePalette : List Rgb → Bytes
  | [] => []
  | c :: cs => c.r :: c.g :: c.b :: encodePalette cs

/-- The 13 header bytes (R101, R102). -/
def encodeScreen (h : Screen) : Bytes :=
  encodeSignature h.version ++ u16bytes h.width ++ u16bytes h.height ++ [h.flags, h.bgIndex, h.aspect]

/-- The nine descriptor bytes (R110). -/
def encodeDesc (d : ImageDesc) : Bytes :=
  u16bytes d.left ++ u16bytes d.top ++ u16bytes d.width ++ u16bytes d.height ++ [d.flags]

/-- An image token up to its min_code_size byte (R110); the chain that follows is the data. -/
def encodeImage (d : ImageDesc) (lpal : Option (List Rgb)) (v : Option Byte) : Bytes :=
  0x2C#8 :: (encodeDesc d ++ encodePalette (lpal.getD []) ++ v.toList)

/-- The eight bytes of a graphic control extension (R107). -/
def encodeGce (b : GceBody) : Bytes :=
  [0x21#8, 0xF9#8, b.blockSize, b.flags] ++ u16bytes b.delay ++ [b.transparent, b.terminator]

/-- The encoder. A reserved code's value comes from `m` (R116). An operand the buffer lacked has no
bytes. -/
def encode (k : CodeContext) : Instr → FetchWord
  | .parseHeader screen gpal =>
    .header ((screen.map encodeScreen).getD [] ++ encodePalette (gpal.getD []))
  | .image desc lpal v =>
    .block (match desc with
      | some d => encodeImage d lpal v
      | none => [0x2C#8])
  | .imageEmpty d lpal v => .block (encodeImage d lpal v)
  | .extGce body =>
    .block (match body with
      | some b => encodeGce b
      | none => [0x21#8, 0xF9#8])
  | .extSkip label => .block [0x21#8, label]
  | .trailer => .block [0x3B#8]
  | .unexpected t => .block [t]
  | .clear => .code (clearCodeOf k.m)
  | .endCode => .code (endCodeOf k.m)
  | .dict c => .code c
  | .kwkwk c => .code c
  | .skip c => .code c
  | .unspecCode c => .code c
  | .disposeNone => .selector 0#2
  | .disposeKeep => .selector 1#2
  | .disposeRestoreBg => .selector 2#2
  | .disposeRestorePrev => .selector 3#2
  | .construct bytes => .command 0 bytes
  | .nextFrame => .command 1 []
  | .getVersion => .command 2 []
  | .getWidth => .command 3 []
  | .getHeight => .command 4 []
  | .getBackgroundColor => .command 5 []
  | .release => .command 6 []

/-- `w` followed by `tail` when it is a word of the buffer; other words have no tail. -/
def FetchWord.followedBy (w : FetchWord) (tail : Bytes) : FetchWord :=
  match w with
  | .header b => .header (b ++ tail)
  | .block b => .block (b ++ tail)
  | .code c => .code c
  | .selector d => .selector d
  | .command n b => .command n b

/-! ## Chains and packed codes -/

/-- A sub-block chain: each data block behind its length byte, then the 0x00 terminator (R113). -/
def encodeChain : List Bytes → Bytes
  | [] => [0x00#8]
  | b :: bs => BitVec.ofNat 8 b.length :: (b ++ encodeChain bs)

/-- The logical bit stream of a run of data bytes as one number: bit j of the stream is bit j of the
number (R114, R24). -/
def streamValue : Bytes → Nat
  | [] => 0
  | b :: bs => b.toNat + 256 * streamValue bs

/-- Codes of given widths laid LSB first, without padding, as one number (R114). -/
def packedValue : List (Nat × Nat) → Nat
  | [] => 0
  | (c, w) :: cs => c + 2 ^ w * packedValue cs

/-- The number of bits a run of codes takes (R114). -/
def packedBits : List (Nat × Nat) → Nat
  | [] => 0
  | (_, w) :: cs => w + packedBits cs

/-- `n` bytes of a number, the least significant first. -/
def bytesOfValue : Nat → Nat → Bytes
  | 0, _ => []
  | n + 1, v => BitVec.ofNat 8 (v % 256) :: bytesOfValue n (v / 256)

/-- `CODES{c/w ...}`: the data bytes, padded with 0 bits to a whole byte (R120). -/
def packCodes (cs : List (Nat × Nat)) : Bytes :=
  bytesOfValue ((packedBits cs + 7) / 8) (packedValue cs)

/-! ## The opcode table's words -/

/-- A table row's word is its match read as one number, so its first byte is the most significant one
(spec/98_reader.md; row EXT_GCE, 0x21F9 for the bytes 21 F9). DEDUCED, log 13. -/
def tableBytes (nbits w : Nat) : Bytes :=
  (bytesOfValue (nbits / 8) w).reverse

/-- The longest token before its chain: a header with 256 palette entries, 781 bytes (R118). -/
def maxTokenBytes : Nat := 781

/-- The table row of 48 bits is the header signature; every other word stands at a block-introducer
position (log 13). -/
def tableWord (nbits w : Nat) : FetchWord :=
  let bytes := tableBytes nbits w ++ List.replicate maxTokenBytes 0#8
  if nbits = 48 then .header bytes else .block bytes

/-- The instruction the decoder reads from a word of the opcode table. -/
def decodeTableWord (nbits w : Nat) : Option Instr :=
  match decode default (tableWord nbits w) with
  | .ok i => some i
  | .error _ => none

end Sys2Proof
end

