-- ==== Sys2Proof/Machine/Fetch.lean ====
section
/-! DEFINITION. Fetching: what the core reads at each place of a command (spec/44_host_interface.md
R311, spec/42_container_blocks.md R221 and R230, spec/41_lzw_engine.md R181), and what it does at the
two places where no instruction is read. -/

namespace Sys2Proof.Machine

/-- What a fetch comes to: an instruction and the state it runs in, or the whole step. -/
inductive Fetched where
  | run (i : Instr) (s : State)
  | done (o : Outcome)

/-- The registers that classify a code (R115). -/
def State.codeContext (s : State) : CodeContext :=
  ⟨s.lzw.m, s.lzw.size, s.lzw.prevCode⟩

/-- Where no instruction can be read: BLOCK_LOOP raises Truncated (R221), before the introducer or
after it when only the label is missing; an unknown command number has no meaning (log 18). -/
def rejected (r : DecodeReject) (s : State) : Outcome :=
  match r with
  | .noIntroducer => .next (takeError .truncated s)
  | .noLabel => .next (takeError .truncated (s.advance 1))
  | .unknownCommand n => .refused (.unknownCommand n)

/-- Decode a word in the state it was fetched in. -/
def decoded (w : FetchWord) (s : State) : Fetched :=
  match decode s.codeContext w with
  | .ok i => .run i s
  | .error r => .done (rejected r s)

/-- Take the next host command (R319). With none waiting the core stays as it is (R355, log 3). -/
def fetchCommand (s : State) : Fetched :=
  match s.inbox with
  | [] => .done (.next s)
  | w :: ws => decoded (.command w.number w.bytes) { s with inbox := ws }

/-- `c <- read_code(width)`, then its class (R181, R115). -/
def fetchCode (s : State) : Fetched :=
  match readCode s.lzw.width s with
  | .ok c s' => decoded (.code c) s'
  | .trap k s' => .done (Result.finish (.trap k s'))

/-- CURSOR_INIT of DECODE_FRAME (R230), then READER_INIT of LZW_DECODE (R181). -/
def startCodes (s : State) : State :=
  (readerInit (cursorInit Config.vclipLimit s)).goto .code

/-- The fetch at each place of a command. -/
def fetch (s : State) : Fetched :=
  match s.control with
  | .idle => fetchCommand s
  | .header => decoded (.header (s.bytesFrom 0)) s
  | .block => decoded (.block (s.bytesFrom s.pos)) s
  | .dispose => decoded (.selector s.gc.disposal.selector) s
  | .cursor => .done (.next (startCodes s))
  | .code => fetchCode s
  | .emit => .done (.next (finishFrame s))

/-- A buffer that holds a run of bytes and then zeros, with the core at a given place, at offset 0. -/
def State.loaded (s : State) (p : Phase) (c : Control) (bytes : Bytes) : State :=
  { s with
    phase := p
    control := c
    pos := 0
    buf := Memory.ofBytes bytes
    len := bytes.length + maxTokenBytes }

/-- The word of an opcode table row placed where the next step reads it: at the header position of a
fresh decoder, or at a block-introducer position (log 14). -/
def loadTableWord (s : State) (nbits w : Nat) : State :=
  if nbits = 48 then s.loaded .fresh .header (tableBytes nbits w)
  else s.loaded .ready .block (tableBytes nbits w)

end Sys2Proof.Machine
end

