-- ==== Sys2Proof/Machine/Step.lean ====
section
/-! DEFINITION. One step: fetch, decode and run one instruction, or do what the place of the command
calls for where none is read (log 1). -/

namespace Sys2Proof.Machine

/-- One step. -/
def step (s : State) : Host.Outcome State Fault Refusal :=
  match fetch s with
  | .run i s' => exec i s'
  | .done o => o

/-- The state in which the next step reads and runs the word `w` of an opcode table row (log 14). -/
def State.withFetchWord (s : State) (nbits w : Nat) : State :=
  loadTableWord s nbits w

end Sys2Proof.Machine
end

