-- ==== Sys2Proof/Machine/Command.lean ====
section
/-! DEFINITION. A host command as one transaction (spec/70_reset_and_hazards.md R390): the steps from one
idle point to the next. -/

namespace Sys2Proof.Machine

/-- At most `n` steps, ending when the running command has returned to the host. -/
def settle : Nat → State → Outcome
  | 0, s => .next s
  | n + 1, s =>
    if s.control = .idle then .next s
    else
      match step s with
      | .next t => settle n t
      | .fault f => .fault f
      | .refused r => .refused r

/-- Bits of the buffer not yet consumed while codes are read: `8 * (len - pos) + nacc` (R391 (c)). -/
def State.bitsLeft (s : State) : Nat :=
  8 * (s.len - s.pos) + s.reader.nacc

/-- More steps than the running command can take (R391). -/
def State.stepsLeft (s : State) : Nat :=
  match s.control with
  | .idle => 0
  | .header => 8 * s.len + 6
  | .block => 8 * (s.len - s.pos) + 5
  | .dispose => 8 * (s.len - s.pos) + 4
  | .cursor => 8 * (s.len - s.pos) + 3
  | .code => s.bitsLeft + 2
  | .emit => 1

/-- The rest of the running command, as one transaction. -/
def finishCommand (s : State) : Outcome :=
  settle s.stepsLeft s

end Sys2Proof.Machine
end

