-- ==== Sys2Proof/Safety.lean ====
section
/-! DEFINITION. What a well-formed state is: the widths and ranges of spec/10_state.md, the engine
invariants of spec/41_lzw_engine.md R191 and R194, and the canvas properties of spec/43_compositor.md
R278. Claims about a step from a state that a run can reach take these as their premise. -/

namespace Sys2Proof.Machine

/-- The core is inside NEXT_FRAME, past its header (R311). -/
def Control.inBlocks : Control → Bool
  | .idle => false
  | .header => false
  | .block => true
  | .dispose => true
  | .cursor => true
  | .code => true
  | .emit => true

/-- The core is inside DECODE_FRAME (R230). -/
def Control.inFrame : Control → Bool
  | .idle => false
  | .header => false
  | .block => false
  | .dispose => true
  | .cursor => true
  | .code => true
  | .emit => true

/-- The buffer is in canonical form and `0 <= pos <= len` (R21, R22). -/
structure BufferOk (s : State) : Prop where
  canonical : Memory.wf s.buf s.len = true
  pos_le    : s.pos ≤ s.len

/-- The place inside a command agrees with `phase`, and a fresh decoder has read nothing (R20, R311). -/
structure PhaseOk (s : State) : Prop where
  header_fresh : s.control = .header → s.phase = .fresh
  blocks_ready : s.control.inBlocks = true → s.phase = .ready
  fresh_pos    : s.phase = .fresh → s.pos = 0

/-- The palettes (R26, R27). -/
structure PalettesOk (s : State) : Prop where
  gpal_length : s.phase = .ready ∨ s.phase = .done →
    s.gpal.length = if s.scr.gctPresent then paletteEntries s.scr.gctN else 0
  gpal_alpha  : ∀ p ∈ s.gpal, p.a = 255#8
  lpal_alpha  : ∀ p ∈ s.lpal, p.a = 255#8

/-- The canvas and the snapshot have W × H elements once allocated (R34, R35, R261). -/
structure CanvasOk (s : State) : Prop where
  fresh_unwritten : s.phase = .fresh → s.canvas.written = false
  output_length   : s.canvas.written = true → s.canvas.output.length = s.canvasSize
  snap_length     : s.canvas.written = true → ∀ b, s.canvas.prev = .snap b → b.length = s.canvasSize

/-- What holds while a frame is decoded (R222, R228, R230, R274). -/
structure FrameOk (s : State) : Prop where
  width_pos   : s.img.width ≠ 0#16
  height_pos  : s.img.height ≠ 0#16
  allocated   : s.canvas.written = true
  palette     : s.apal = if s.img.hasLocal then .localPalette else .globalPalette
  lpal_length : s.img.hasLocal = true → s.lpal.length = paletteEntries s.img.lsizeN
  interlace   : s.img.interlaced = true →
    s.scr.W ≠ 0#16 ∧ s.img.top = 0#16 ∧ s.img.height = s.scr.H

/-- The engine invariants (R31, R32, R191, R194). -/
structure EngineOk (e : Engine) : Prop where
  m_low      : 2 ≤ e.m
  m_high     : e.m ≤ 11
  clear_eq   : e.clearCode = 2 ^ e.m
  end_eq     : e.endCode = 2 ^ e.m + 1
  size_low   : 2 ^ e.m + 2 ≤ e.size
  size_high  : e.size ≤ 4096
  width_low  : e.m + 1 ≤ e.width
  width_high : e.width ≤ 12
  size_fits  : e.size ≤ 2 ^ e.width
  grown      : e.size = 2 ^ e.width → e.width = 12
  prev_ok    : ∀ p, e.prevCode = some p → p < e.size ∧ p ≠ e.clearCode ∧ p ≠ e.endCode
  literals   : ∀ i, i < 2 ^ e.m → e.entry i = [i]
  nonempty   : ∀ c, c < e.size → c ≠ e.clearCode → c ≠ e.endCode → e.entry c ≠ []
  symbols    : ∀ c, c < e.size → c ≠ e.clearCode → c ≠ e.endCode → ∀ i ∈ e.entry c, i < 2 ^ e.m
  lengths    : ∀ c, 2 ^ e.m + 2 ≤ c → c < e.size → (e.entry c).length ≤ c - 2 ^ e.m

/-- The reader registers between two codes (R23). -/
structure ReaderOk (s : State) : Prop where
  sbRem_le : s.reader.sbRem ≤ 255
  acc_lt   : s.reader.acc < 2 ^ s.reader.nacc
  nacc_le  : s.reader.nacc ≤ 19
  block_in : s.pos + s.reader.sbRem ≤ s.len

/-- The cursor registers while codes are read (R33, R268). -/
structure CursorOk (s : State) : Prop where
  rowEnd_eq  : s.cur.rowEnd = s.img.left.toNat + s.img.width.toNat
  safeEnd_eq : s.cur.safeEnd = min s.cur.rowEnd s.scr.W.toNat
  yLimit_eq  : s.cur.yLimit = yLimitOf Config.vclipLimit s
  cx_low     : s.img.left.toNat ≤ s.cur.cx
  cx_high    : s.cur.cx < s.cur.rowEnd
  cy_low     : s.img.top.toNat ≤ s.cur.cy

/-- Every frame handed out has as many pixels as its width times its height (R317). -/
def FramesOk (s : State) : Prop :=
  ∀ f, Reply.frame f ∈ s.outbox → f.pixels.length = f.width.toNat * f.height.toNat

/-- The state is one that the rules allow. -/
structure Inv (s : State) : Prop where
  buffer   : BufferOk s
  phase    : PhaseOk s
  palettes : PalettesOk s
  canvas   : CanvasOk s
  dict     : Dict.wf s.lzw.dict = true
  frame    : s.control.inFrame = true → FrameOk s
  engine   : s.control.inFrame = true → EngineOk s.lzw
  reader   : s.control = .code → ReaderOk s
  cursor   : s.control = .code → CursorOk s
  frames   : FramesOk s

/-! ## What a claim says of the bytes ahead -/

/-- Data blocks of a chain have 1 to 255 bytes each (R7, R113). -/
def BlocksOk (blocks : List Bytes) : Prop :=
  ∀ b ∈ blocks, 1 ≤ b.length ∧ b.length ≤ 255

/-- Data blocks behind their length bytes, without a terminator (R113). -/
def encodeBlocks : List Bytes → Bytes
  | [] => []
  | b :: bs => BitVec.ofNat 8 b.length :: (b ++ encodeBlocks bs)

/-- The reader stands in a chain (R23, R113): `cur` is what is left of the sub-block it is in, `blocks`
are the sub-blocks that follow, `rest` is what follows them. -/
structure InChain (s : State) (cur : Bytes) (blocks : List Bytes) (rest : Bytes) : Prop where
  acc_lt   : s.reader.acc < 2 ^ s.reader.nacc
  sbRem_eq : s.reader.sbRem = cur.length
  blocks_ok : BlocksOk blocks
  bytes    : s.bytesFrom s.pos = cur ++ encodeBlocks blocks ++ rest

/-- The logical stream not yet returned as codes, as one number whose bit 0 is the oldest bit (R24). -/
def State.pending (s : State) (cur : Bytes) (blocks : List Bytes) : Nat :=
  s.reader.acc + 2 ^ s.reader.nacc * streamValue (cur ++ blocks.flatten)

/-- How many bits of it there are. -/
def State.pendingBits (s : State) (cur : Bytes) (blocks : List Bytes) : Nat :=
  s.reader.nacc + 8 * (cur ++ blocks.flatten).length

/-- Codes of the given widths, read one after the other. -/
def readCodes : List Nat → State → Result (List Nat)
  | [], s => .ok [] s
  | w :: ws, s => (readCode w s).bind fun c t => (readCodes ws t).bind fun cs u => .ok (c :: cs) u

/-- The j-th index of a frame belongs to this screen column (R269). -/
def ImageRegs.columnOf (d : ImageRegs) (j : Nat) : Nat :=
  d.left.toNat + j % d.width.toNat

/-- The j-th index of a frame belongs to this screen row (R269). -/
def ImageRegs.rowOf (d : ImageRegs) (j : Nat) : Nat :=
  d.top.toNat + j / d.width.toNat

end Sys2Proof.Machine
end

