-- ==== Sys2Proof/Certificates/Slice0/Obligations.lean ====
section
/-! DEFINITION. The statements for the provers. Each cites the rule of spec/ it formalises; a clause that
rests on a choice of the model names its log entry. -/

section
open Sys2Proof Sys2Proof.Machine

/-! ## Encoding -/

/-- Words written out from spec/30_encoding.md decode to the instructions they stand for. -/
def Obligations.WrittenWordsDecode : Prop :=
  ∀ k : CodeContext, k.m = 2 → k.size = 6 →
    decode k (.header [0x47#8, 0x49#8, 0x46#8, 0x38#8, 0x39#8, 0x61#8, 0x02#8, 0x01#8, 0x03#8, 0x00#8,
        0x80#8, 0x01#8, 0x00#8, 0xFF#8, 0x00#8, 0x01#8, 0x00#8, 0xFE#8, 0x02#8, 0x3B#8])
      = .ok (.parseHeader (some ⟨some .gif89a, 258#16, 3#16, 0x80#8, 1#8, 0#8⟩)
          (some [⟨0xFF#8, 0#8, 1#8⟩, ⟨0#8, 0xFE#8, 2#8⟩])) ∧
    decode k (.block [0x2C#8, 0x01#8, 0x00#8, 0x02#8, 0x00#8, 0x03#8, 0x00#8, 0x04#8, 0x01#8, 0x40#8, 0x02#8])
      = .ok (.image (some ⟨1#16, 2#16, 3#16, 260#16, 0x40#8⟩) (some []) (some 2#8)) ∧
    decode k (.block [0x2C#8, 0x01#8, 0x00#8, 0x02#8, 0x00#8, 0x00#8, 0x00#8, 0x04#8, 0x01#8, 0x00#8, 0x02#8])
      = .ok (.imageEmpty ⟨1#16, 2#16, 0#16, 260#16, 0#8⟩ (some []) (some 2#8)) ∧
    decode k (.block [0x21#8, 0xF9#8, 0x04#8, 0x0D#8, 0x07#8, 0x00#8, 0x03#8, 0x00#8])
      = .ok (.extGce (some ⟨4#8, 0x0D#8, 7#16, 3#8, 0#8⟩)) ∧
    decode k (.block [0x21#8, 0xFE#8]) = .ok (.extSkip 0xFE#8) ∧
    decode k (.block [0x3B#8]) = .ok .trailer ∧
    decode k (.block [0x00#8]) = .ok (.unexpected 0#8) ∧
    decode k (.code 4) = .ok .clear ∧ decode k (.code 5) = .ok .endCode ∧ decode k (.code 3) = .ok (.dict 3) ∧
    (k.prevCode = some 1 →
      decode k (.code 6) = .ok (.kwkwk 6) ∧ decode k (.code 7) = .ok (.unspecCode 7)) ∧
    (k.prevCode = none → decode k (.code 6) = .ok (.skip 6) ∧ decode k (.code 7) = .ok (.skip 7)) ∧
    decode k (.selector 0#2) = .ok .disposeNone ∧ decode k (.selector 1#2) = .ok .disposeKeep ∧
    decode k (.selector 2#2) = .ok .disposeRestoreBg ∧ decode k (.selector 3#2) = .ok .disposeRestorePrev ∧
    decode k (.command 0 [0x47#8]) = .ok (.construct [0x47#8]) ∧ decode k (.command 1 []) = .ok .nextFrame ∧
    decode k (.command 2 []) = .ok .getVersion ∧ decode k (.command 3 []) = .ok .getWidth ∧
    decode k (.command 4 []) = .ok .getHeight ∧ decode k (.command 5 []) = .ok .getBackgroundColor ∧
    decode k (.command 6 []) = .ok .release

/-- Decoding an encoded well-formed instruction gives it back, whatever bytes follow it in the buffer; a
code is decoded beside engine registers under which it belongs to its class (R115). -/
def Obligations.DecodeInvertsEncode : Prop :=
  ∀ (k : CodeContext) (i : Instr) (tail : Bytes), i.wellFormed = true → i.fits k = true →
    decode k ((encode k i).followedBy tail) = .ok i

/-- A well-formed instruction that was read stands in the word it was read from: its encoding is the
word, or the start of it, so no bit of a token is dropped. Host commands other than CONSTRUCT have no
byte operand. -/
def Obligations.EncodeInvertsDecode : Prop :=
  ∀ (k : CodeContext) (w : FetchWord) (i : Instr), decode k w = .ok i → i.wellFormed = true →
    (∀ n b, w = .command n b → n = 0 ∨ b = []) →
    ∃ tail, w = (encode k i).followedBy tail

/-- The introducer byte and the label select the block token, and any other introducer raises
UnexpectedBlock (R105, R106). -/
def Obligations.IntroducerAndLabelSelectToken : Prop :=
  ∀ (k : CodeContext) (t : Byte) (rest : Bytes),
    (t = 0x2C#8 → ∃ i, decode k (.block (t :: rest)) = .ok i ∧
      ((∃ d p v, i = .image d p v) ∨ ∃ d p v, i = .imageEmpty d p v)) ∧
    (t = 0x21#8 → ∀ l body, rest = l :: body →
      (l = 0xF9#8 → ∃ b, decode k (.block (t :: rest)) = .ok (.extGce b)) ∧
      (l ≠ 0xF9#8 → decode k (.block (t :: rest)) = .ok (.extSkip l))) ∧
    (t = 0x3B#8 → decode k (.block (t :: rest)) = .ok .trailer) ∧
    (t ≠ 0x2C#8 → t ≠ 0x21#8 → t ≠ 0x3B#8 → decode k (.block (t :: rest)) = .ok (.unexpected t) ∧
      ∀ s, exec (.unexpected t) s = .next (takeError .unexpectedBlock { s with pos := s.pos + 1 }))

/-- The code classes, first matching row (R115). -/
def Obligations.CodeClassesPartition : Prop :=
  ∀ (k : CodeContext) (c : Nat),
    (decode k (.code c) = .ok .clear ↔ c = 2 ^ k.m) ∧
    (decode k (.code c) = .ok .endCode ↔ c = 2 ^ k.m + 1) ∧
    (∀ x, decode k (.code c) = .ok (.dict x) ↔ x = c ∧ c ≠ 2 ^ k.m ∧ c ≠ 2 ^ k.m + 1 ∧ c < k.size) ∧
    (∀ x, decode k (.code c) = .ok (.kwkwk x) ↔
      x = c ∧ c ≠ 2 ^ k.m ∧ c ≠ 2 ^ k.m + 1 ∧ c = k.size ∧ k.prevCode ≠ none) ∧
    (∀ x, decode k (.code c) = .ok (.skip x) ↔
      x = c ∧ c ≠ 2 ^ k.m ∧ c ≠ 2 ^ k.m + 1 ∧ k.size ≤ c ∧ k.prevCode = none) ∧
    (∀ x, decode k (.code c) = .ok (.unspecCode x) ↔
      x = c ∧ c ≠ 2 ^ k.m ∧ c ≠ 2 ^ k.m + 1 ∧ k.size < c ∧ k.prevCode ≠ none)

/-! ## Steps and reset -/

/-- A step runs the instruction its fetch decodes: a host command taken off the queue, the header from
offset 0, a block token from `pos`, the disposal selector, or the code read at the current width (R311,
R221, R262, R181). Where the code cannot be read the step takes the reader's error (R152). -/
def Obligations.StepRunsDecodedInstruction : Prop :=
  ∀ s : State,
    (∀ w ws i, s.control = .idle → s.inbox = w :: ws →
      decode s.codeContext (.command w.number w.bytes) = .ok i → step s = exec i { s with inbox := ws }) ∧
    (∀ i, s.control = .header → decode s.codeContext (.header (s.bytesFrom 0)) = .ok i →
      step s = exec i s) ∧
    (∀ i, s.control = .block → decode s.codeContext (.block (s.bytesFrom s.pos)) = .ok i →
      step s = exec i s) ∧
    (∀ i, s.control = .dispose → decode s.codeContext (.selector s.gc.disposal.selector) = .ok i →
      step s = exec i s) ∧
    (∀ c t i, s.control = .code → readCode s.lzw.width s = .ok c t →
      decode t.codeContext (.code c) = .ok i → step s = exec i t) ∧
    (∀ e t, s.control = .code → readCode s.lzw.width s = .trap (.error e) t →
      step s = .next (takeError e t))

/-- The values the spec gives for the state after reset (R38, R380), over an empty buffer. -/
def Obligations.ResetStateHoldsGivenValues : Prop :=
  State.reset.phase = .fresh ∧ State.reset.pos = 0 ∧ State.reset.len = 0 ∧
    State.reset.gc = ⟨0#16, none, .noneD⟩ ∧ State.reset.refused = false ∧ State.reset.everRefused = false ∧
    (∀ p, State.reset.byteAt? p = none) ∧ Memory.wf State.reset.buf State.reset.len = true

/-- The invariant holds after reset. -/
def Obligations.InvHoldsAtReset : Prop :=
  Machine.Inv State.reset

/-- Every step keeps the invariant: the buffer's canonical form and `pos <= len` (R21), the engine
invariants (R191, R194), the reader's and the cursor's ranges (R23, R33), the canvas sizes (R34, R35), the
palettes (R26, R27) and the length of every frame handed out (R317). -/
def Obligations.StepKeepsInv : Prop :=
  ∀ s t : State, Machine.Inv s → step s = .next t → Machine.Inv t

/-- Every command ends: from any state of the invariant the running command comes back to the host, or
stops in a model fault (R391). -/
def Obligations.EveryCommandTerminates : Prop :=
  ∀ s : State, Machine.Inv s →
    (∃ t, finishCommand s = .next t ∧ t.control = .idle) ∨ ∃ f, finishCommand s = .fault f

/-! ## Host commands -/

/-- CONSTRUCT makes a fresh decoder over the host's bytes, its mark clear (R310, R380); it is refused in
FAILED (R349) and in RELEASED (decision D36). The other registers take the values State.reset names (log 4);
the queue, the replies and the mark of the run stay (log 10, log 11). -/
def Obligations.ConstructMakesFreshDecoder : Prop :=
  ∀ (s : State) (bytes : Bytes),
    (s.phase = .fresh ∨ s.phase = .ready ∨ s.phase = .done →
      ∃ t, exec (.construct bytes) s = .next t ∧
        t.phase = .fresh ∧ t.pos = 0 ∧ t.gc = ⟨0#16, none, .noneD⟩ ∧ t.len = bytes.length ∧
        t.refused = false ∧ (∀ p, t.byteAt? p = bytes[p]?) ∧ Memory.wf t.buf t.len = true ∧
        t = { State.reset with
          buf := t.buf, len := bytes.length
          everRefused := s.everRefused, inbox := s.inbox, outbox := s.outbox }) ∧
    (s.phase = .released ∨ (∃ k, s.phase = .failed k) →
      exec (.construct bytes) s = .next { s with
        refused := true, everRefused := true, outbox := s.outbox ++ [.refused] })

/-- NEXT_FRAME runs PARSE_HEADER in FRESH, goes on at the next block in READY, returns NONE in DONE, and
is refused in FAILED and RELEASED (R311); nothing else changes. -/
def Obligations.NextFrameEntersByPhase : Prop :=
  ∀ s : State,
    (s.phase = .fresh → exec .nextFrame s = .next { s with control := .header }) ∧
    (s.phase = .ready → exec .nextFrame s = .next { s with control := .block }) ∧
    (s.phase = .done → exec .nextFrame s = .next { s with outbox := s.outbox ++ [.noFrame] }) ∧
    (s.phase = .released ∨ (∃ k, s.phase = .failed k) →
      exec .nextFrame s = .next { s with refused := true, everRefused := true, outbox := s.outbox ++ [.refused] })

/-- GET_VERSION, GET_WIDTH and GET_HEIGHT return their register and change nothing, in READY and DONE;
in every other phase they are refused (R312, R313, R314). -/
def Obligations.AttributeReadsReturnRegisters : Prop :=
  ∀ s : State,
    (s.phase = .ready ∨ s.phase = .done →
      exec .getVersion s = .next { s with outbox := s.outbox ++ [.version s.scr.version] } ∧
      exec .getWidth s = .next { s with outbox := s.outbox ++ [.number s.scr.W] } ∧
      exec .getHeight s = .next { s with outbox := s.outbox ++ [.number s.scr.H] }) ∧
    (s.phase = .fresh ∨ s.phase = .released ∨ (∃ k, s.phase = .failed k) →
      ∀ i, i = Instr.getVersion ∨ i = .getWidth ∨ i = .getHeight →
        exec i s = .next { s with refused := true, everRefused := true, outbox := s.outbox ++ [.refused] })

/-- GET_BACKGROUND_COLOR returns zeros without a global palette and the palette's entry otherwise; an
index beyond the palette is the model fault, with the state that trap entry leaves (R315). -/
def Obligations.BackgroundColorFromGlobalPalette : Prop :=
  ∀ s : State,
    (s.phase = .ready ∨ s.phase = .done →
      (s.scr.gctPresent = false →
        exec .getBackgroundColor s = .next { s with outbox := s.outbox ++ [.color ⟨0#8, 0#8, 0#8, 0#8⟩] }) ∧
      (s.scr.gctPresent = true →
        (∀ px, s.gpal[s.scr.bgIndex.toNat]? = some px →
          exec .getBackgroundColor s = .next { s with outbox := s.outbox ++ [.color px] }) ∧
        (s.gpal.length ≤ s.scr.bgIndex.toNat →
          exec .getBackgroundColor s = .fault (.unspecBackgroundIndex
            { s with phase := .failed (.fault .unspecPaletteIndex), control := .idle })))) ∧
    (s.phase = .fresh ∨ s.phase = .released ∨ (∃ k, s.phase = .failed k) →
      exec .getBackgroundColor s = .next { s with refused := true, everRefused := true, outbox := s.outbox ++ [.refused] })

/-- RELEASE is admitted in every phase but RELEASED, and gives up the buffers (R316). What an unwritten
buffer holds is the model's choice (log 4, log 6). -/
def Obligations.ReleaseGivesUpBuffers : Prop :=
  ∀ s : State,
    (s.phase ≠ .released → exec .release s = .next { s with
      phase := .released
      reader := ⟨0, 0, 0⟩
      lzw := { s.lzw with dict := [] }
      canvas := ⟨false, [], .snap []⟩ }) ∧
    (s.phase = .released →
      exec .release s = .next { s with refused := true, everRefused := true, outbox := s.outbox ++ [.refused] })

/-- No step clears the mark of the run, and the decoder's own mark is cleared by CONSTRUCT alone (R318, R380);
a decoder whose mark is set is in a run whose mark is set. That the two are separate fields is the model's
choice (log 10). -/
def Obligations.RefusedMarkStays : Prop :=
  ∀ s t : State, step s = .next t →
    (s.everRefused = true → t.everRefused = true) ∧
    ((∀ w ws, s.control = .idle → s.inbox = w :: ws → w.number ≠ 0) → s.refused = true → t.refused = true) ∧
    ((s.refused = true → s.everRefused = true) → t.refused = true → t.everRefused = true)

/-- FAILED is absorbing: between commands every command other than RELEASE is refused, and RELEASE leads to
RELEASED (R349); in RELEASED every command is refused (decision D36). -/
def Obligations.FailedIsAbsorbing : Prop :=
  ∀ s t : State, s.control = .idle → step s = .next t →
    (∀ k, s.phase = .failed k →
      (s.inbox = [] ∧ t = s) ∨
      ∃ w ws, s.inbox = w :: ws ∧
        ((w.number = 6 ∧ t.phase = .released) ∨
          (w.number ≤ 5 ∧ t = { s with
            inbox := ws, refused := true, everRefused := true, outbox := s.outbox ++ [.refused] }))) ∧
    (s.phase = .released →
      (s.inbox = [] ∧ t = s) ∨
      ∃ w ws, s.inbox = w :: ws ∧ w.number ≤ 6 ∧ t = { s with
        inbox := ws, refused := true, everRefused := true, outbox := s.outbox ++ [.refused] })

/-- Between commands the core keeps all its state (R355). A step refuses exactly a command number outside
0..6, which no rule gives a meaning, and no instruction is refused (log 3, log 18). -/
def Obligations.IdleCoreWaitsOrTakesCommand : Prop :=
  (∀ s : State, s.control = .idle → s.inbox = [] → step s = .next s) ∧
  (∀ (s : State) (r : Refusal), step s = .refused r ↔
    ∃ w ws, s.control = .idle ∧ s.inbox = w :: ws ∧ 7 ≤ w.number ∧ r = .unknownCommand w.number) ∧
  ∀ (i : Instr) (s : State) (r : Refusal), exec i s ≠ .refused r

/-! ## Exceptions -/

/-- Trap entry records the cause, hands ERROR(k) to the host, and keeps every other register (R347). -/
def Obligations.TrapEntryRecordsCause : Prop :=
  ∀ (r : Result Unit) (s : State) (k : ErrorKind) (f : FaultCode),
    (r = .trap (.error k) s → r.finish = .next { s with
      phase := .failed (.error k), control := .idle, outbox := s.outbox ++ [.error k] }) ∧
    (r = .trap (.fault f) s → ∃ q, r.finish = .fault q ∧
      q.state = { s with phase := .failed (.fault f), control := .idle } ∧ q.code = (Cause.fault f).code)

/-- What was handed to the host is never taken back, and a step hands out at most one thing more; a step
that enters FAILED hands out its error and no partial frame (R87, R317, R348). -/
def Obligations.TrapExposesNoFrame : Prop :=
  ∀ s t : State, step s = .next t →
    (∃ l, t.outbox = s.outbox ++ l ∧ l.length ≤ 1) ∧
    (∀ k, s.phase ≠ t.phase → t.phase = .failed k →
      ∃ e, k = .error e ∧ t.outbox = s.outbox ++ [.error e] ∧ t.control = .idle)

/-- A model fault is one of the five codes, raised at its place, with `phase = FAILED(code)` recorded and
nothing handed out but the fault itself (R345, R347). -/
def Obligations.FaultsRecordCodeAndPlace : Prop :=
  ∀ (s : State) (q : Fault), step s = .fault q →
    (∃ f, q.state.phase = .failed (.fault f) ∧ q.code = (Cause.fault f).code) ∧
    q.state.control = .idle ∧ q.state.outbox = s.outbox ∧
    match q with
    | .unspecMinCodeSize _ => s.control = .block
    | .unspecCode _ => s.control = .code
    | .unspecPaletteIndex _ => s.control = .code
    | .unspecBackgroundIndex _ => s.control = .idle
    | .unspecGceTerminator _ => s.control = .block
    | .unspecPartialInterlace _ => s.control = .block

/-- InvalidHeader is raised only at the header position, and there exactly when the buffer is shorter
than 13 bytes or starts with neither signature (R341). -/
def Obligations.InvalidHeaderExactly : Prop :=
  ∀ s : State,
    (s.control = .header →
      (s.len < 13 ∨ ∀ v, (s.bytesFrom 0).take 6 ≠ encodeSignature (some v)) →
      step s = .next { s with
        phase := .failed (.error .invalidHeader), control := .idle
        outbox := s.outbox ++ [.error .invalidHeader] }) ∧
    (∀ t, step s = .next t → s.phase ≠ t.phase → t.phase = .failed (.error .invalidHeader) →
      s.control = .header ∧ (s.len < 13 ∨ ∀ v, (s.bytesFrom 0).take 6 ≠ encodeSignature (some v)))

/-- UnexpectedBlock is raised exactly by a byte at a block-introducer position that is not 0x2C, 0x21 or
0x3B; that byte is consumed (R226, R342). -/
def Obligations.UnexpectedBlockExactly : Prop :=
  (∀ (s : State) (b : Byte), exec (.unexpected b) s = .next { s with
    pos := s.pos + 1, phase := .failed (.error .unexpectedBlock), control := .idle
    outbox := s.outbox ++ [.error .unexpectedBlock] }) ∧
  (∀ (s : State) (b : Byte), s.control = .block → s.byteAt? s.pos = some b → b ≠ 0x2C#8 → b ≠ 0x21#8 →
    b ≠ 0x3B#8 → step s = exec (.unexpected b) s) ∧
  ∀ s t : State, step s = .next t → s.phase ≠ t.phase → t.phase = .failed (.error .unexpectedBlock) →
    s.control = .block ∧ ∃ b, s.byteAt? s.pos = some b ∧ b ≠ 0x2C#8 ∧ b ≠ 0x21#8 ∧ b ≠ 0x3B#8

/-! ## Header and blocks -/

/-- PARSE_HEADER writes the header registers and the global palette, and the decoder is READY at the
first block-introducer position. A palette that runs past the buffer is Truncated, after the registers
are written and with `pos` at 13; a header that is too short or has neither signature is InvalidHeader,
with nothing written (R220, R102, R104, R227, R350). -/
def Obligations.ParseHeaderWritesScreen : Prop :=
  (∀ (s : State) (h : Screen) (v : Version) (p : List Rgb), h.version = some v →
    p.length = (if h.flags.getLsbD 7 then 2 ^ ((h.flags.extractLsb' 0 3).toNat + 1) else 0) →
    exec (.parseHeader (some h) (some p)) s = .next { s with
      scr := ⟨v, h.width, h.height, h.flags.getLsbD 7, h.flags.extractLsb' 0 3, h.bgIndex⟩
      gpal := p.map fun c => ⟨c.r, c.g, c.b, 255#8⟩
      pos := 13 + 3 * p.length
      phase := .ready
      control := .block }) ∧
  (∀ (s : State) (h : Screen) (v : Version), h.version = some v → h.flags.getLsbD 7 = true →
    exec (.parseHeader (some h) none) s = .next (takeError .truncated { s with
      scr := ⟨v, h.width, h.height, true, h.flags.extractLsb' 0 3, h.bgIndex⟩
      pos := 13 })) ∧
  ∀ (s : State) (h : Option Screen) (p : Option (List Rgb)),
    h = none ∨ h.map (fun x => x.version) = some none →
    exec (.parseHeader h p) s = .next (takeError .invalidHeader s)

/-- BLOCK_LOOP raises Truncated where the buffer ends at an introducer, or right after an extension
introducer (R221). -/
def Obligations.BlockLoopTruncated : Prop :=
  ∀ s : State, s.control = .block →
    (s.len ≤ s.pos → step s = .next { s with
      phase := .failed (.error .truncated), control := .idle
      outbox := s.outbox ++ [.error .truncated] }) ∧
    (s.byteAt? s.pos = some 0x21#8 → s.len = s.pos + 1 → step s = .next { s with
      pos := s.pos + 1, phase := .failed (.error .truncated), control := .idle
      outbox := s.outbox ++ [.error .truncated] })

/-- An image that is not empty: its registers, its palettes, LZW_INIT and FIRST_ALLOC, and the frame
waits for its disposal (R222, R228, R180, R261, R230). -/
def Obligations.ImageBeginsFrame : Prop :=
  ∀ (s : State) (d : ImageDesc) (p : List Rgb) (v : Byte), d.width ≠ 0#16 → d.height ≠ 0#16 →
    p.length = (if d.flags.getLsbD 7 then 2 ^ ((d.flags.extractLsb' 0 3).toNat + 1) else 0) →
    2 ≤ v.toNat →
    (d.flags.getLsbD 6 = true → s.scr.W ≠ 0#16 ∧ d.top = 0#16 ∧ d.height = s.scr.H) →
    ∃ dict,
      exec (.image (some d) (some p) (some v)) s = .next { s with
        pos := s.pos + 11 + 3 * p.length
        img := ⟨d.left, d.top, d.width, d.height, d.flags.getLsbD 7, d.flags.getLsbD 6,
          d.flags.extractLsb' 0 3⟩
        lpal := if d.flags.getLsbD 7 then p.map fun c => ⟨c.r, c.g, c.b, 255#8⟩ else s.lpal
        apal := if d.flags.getLsbD 7 then .localPalette else .globalPalette
        lzw := ⟨min v.toNat 11, 2 ^ min v.toNat 11, 2 ^ min v.toNat 11 + 1, min v.toNat 11 + 1,
          2 ^ min v.toNat 11 + 2, none, dict⟩
        canvas := if s.canvas.written then s.canvas
          else ⟨true, List.replicate (s.scr.W.toNat * s.scr.H.toNat) ⟨0#8, 0#8, 0#8, 0#8⟩,
            .snap (List.replicate (s.scr.W.toNat * s.scr.H.toNat) ⟨0#8, 0#8, 0#8, 0#8⟩)⟩
        control := .dispose } ∧
      ∀ c, Dict.read dict c = if c < 2 ^ min v.toNat 11 then [c] else Dict.read s.lzw.dict c

/-- A min_code_size of 0 or 1 faults in LZW_INIT, before INTERLACE_CHECK; a partial interlaced frame
faults there, before any disposal (R180, R274, R350 (c)). -/
def Obligations.ImageFaultsBeforeDisposal : Prop :=
  ∀ (s : State) (d : ImageDesc) (p : List Rgb) (v : Byte), d.width ≠ 0#16 → d.height ≠ 0#16 →
    p.length = (if d.flags.getLsbD 7 then 2 ^ ((d.flags.extractLsb' 0 3).toNat + 1) else 0) →
    (v.toNat < 2 → ∃ t, exec (.image (some d) (some p) (some v)) s = .fault (.unspecMinCodeSize t) ∧
      t.phase = .failed (.fault .unspecMinCodeSize) ∧ t.canvas = s.canvas ∧
      t.lzw = { s.lzw with m := v.toNat } ∧ t.pos = s.pos + 11 + 3 * p.length) ∧
    (2 ≤ v.toNat → d.flags.getLsbD 6 = true →
      s.scr.W = 0#16 ∨ d.top ≠ 0#16 ∨ d.height ≠ s.scr.H →
      ∃ t, exec (.image (some d) (some p) (some v)) s = .fault (.unspecPartialInterlace t) ∧
        t.phase = .failed (.fault .unspecPartialInterlace) ∧ t.canvas = s.canvas ∧
        t.lzw.size = 2 ^ min v.toNat 11 + 2 ∧ t.pos = s.pos + 11 + 3 * p.length)

/-- An image token cut short raises Truncated: in the descriptor, then in the local palette, then at the
min_code_size byte, each after what was read before it took effect (R222, R227, R350 (c)). -/
def Obligations.ImageCutShortTruncated : Prop :=
  ∀ (s : State) (d : ImageDesc) (p : List Rgb) (v : Option Byte),
    let img : ImageRegs := ⟨d.left, d.top, d.width, d.height, d.flags.getLsbD 7, d.flags.getLsbD 6,
      d.flags.extractLsb' 0 3⟩
    (∀ q, exec (.image none q v) s = .next (takeError .truncated { s with pos := s.pos + 1 })) ∧
    (d.flags.getLsbD 7 = true → ∀ i, i = .image (some d) none v ∨ i = .imageEmpty d none v →
      exec i s = .next (takeError .truncated { s with pos := s.pos + 10, img := img })) ∧
    (p.length = (if d.flags.getLsbD 7 then 2 ^ ((d.flags.extractLsb' 0 3).toNat + 1) else 0) →
      ∀ i, i = .image (some d) (some p) none ∨ i = .imageEmpty d (some p) none →
      exec i s = .next (takeError .truncated { s with
        pos := s.pos + 10 + 3 * p.length
        img := img
        lpal := if d.flags.getLsbD 7 then p.map fun c => ⟨c.r, c.g, c.b, 255#8⟩ else s.lpal }))

/-- An empty image consumes its local palette and its chain, and the block loop goes on; nothing but its
descriptor registers and the local palette changes (R229, R222, R155). -/
def Obligations.EmptyImageIsSkipped : Prop :=
  ∀ (s : State) (d : ImageDesc) (p : List Rgb) (v : Byte) (blocks : List Bytes) (tail : Bytes),
    d.width = 0#16 ∨ d.height = 0#16 →
    p.length = (if d.flags.getLsbD 7 then 2 ^ ((d.flags.extractLsb' 0 3).toNat + 1) else 0) →
    BlocksOk blocks → s.bytesFrom (s.pos + 11 + 3 * p.length) = encodeChain blocks ++ tail →
    exec (.imageEmpty d (some p) (some v)) s = .next { s with
      pos := s.pos + 11 + 3 * p.length + (encodeChain blocks).length
      img := ⟨d.left, d.top, d.width, d.height, d.flags.getLsbD 7, d.flags.getLsbD 6,
        d.flags.extractLsb' 0 3⟩
      lpal := if d.flags.getLsbD 7 then p.map fun c => ⟨c.r, c.g, c.b, 255#8⟩ else s.lpal }

/-- An extension other than the graphic control is skipped, whatever its label: only `pos` moves, past
the chain's terminator (R224, R155). -/
def Obligations.ExtensionIsSkipped : Prop :=
  ∀ (s : State) (l : Byte) (blocks : List Bytes) (tail : Bytes), BlocksOk blocks →
    s.bytesFrom (s.pos + 2) = encodeChain blocks ++ tail →
    exec (.extSkip l) s = .next { s with pos := s.pos + 2 + (encodeChain blocks).length }

/-- A skipped chain that the buffer ends in raises Truncated; a length that runs past the buffer raises
Malformed, before any of its data is passed. `u` is the state in which the instruction's own part is done
and its chain begins (R155, R224, R229, R154, R343 (g), R344). -/
def Obligations.BrokenChainRaises : Prop :=
  ∀ (s u : State) (i : Instr) (blocks : List Bytes) (rest : Bytes), BlocksOk blocks →
    (∃ l, i = .extSkip l ∧ u = { s with pos := s.pos + 2 }) ∨
      (i = .endCode ∧ u = { s with pos := s.pos + s.reader.sbRem, reader := ⟨0, 0, 0⟩ }) ∨
      (∃ d p v, i = .imageEmpty d (some p) (some v) ∧
        p.length = (if d.flags.getLsbD 7 then 2 ^ ((d.flags.extractLsb' 0 3).toNat + 1) else 0) ∧
        u = { s with
          pos := s.pos + 11 + 3 * p.length
          img := ⟨d.left, d.top, d.width, d.height, d.flags.getLsbD 7, d.flags.getLsbD 6,
            d.flags.extractLsb' 0 3⟩
          lpal := if d.flags.getLsbD 7 then p.map fun c => ⟨c.r, c.g, c.b, 255#8⟩ else s.lpal }) →
    u.bytesFrom u.pos = encodeBlocks blocks ++ rest → u.pos ≤ u.len →
    (rest = [] → exec i s = .next (takeError .truncated { u with pos := u.len })) ∧
    (∀ n r, rest = n :: r → n ≠ 0#8 → r.length < n.toNat →
      exec i s = .next (takeError .malformed { u with pos := u.pos + (encodeBlocks blocks).length + 1 }))

/-- A graphic control extension writes the three graphic control registers; its terminator is checked
after they are written, and a body cut short is Truncated (R223, R107, R108, R109, R350 (f)). -/
def Obligations.GceWritesGraphicControl : Prop :=
  ∀ (s : State) (b : GceBody),
    let gc : GraphicControl :=
      ⟨b.delay, if b.flags.getLsbD 0 then some b.transparent else none,
        if b.flags.getLsbD 3 then (if b.flags.getLsbD 2 then .restorePrev else .restoreBg)
        else (if b.flags.getLsbD 2 then .keep else .noneD)⟩
    (b.terminator = 0#8 →
      exec (.extGce (some b)) s = .next { s with gc := gc, pos := s.pos + 8 }) ∧
    (b.terminator ≠ 0#8 →
      exec (.extGce (some b)) s = .fault (.unspecGceTerminator { s with
        gc := gc, pos := s.pos + 8
        phase := .failed (.fault .unspecGceTerminator), control := .idle })) ∧
    exec (.extGce none) s = .next (takeError .truncated { s with pos := s.pos + 2 })

/-- The terminator ends the stream: DONE, and NEXT_FRAME returns NONE (R225, R311). -/
def Obligations.TrailerEndsStream : Prop :=
  ∀ s : State, exec .trailer s = .next { s with
    phase := .done, pos := s.pos + 1, control := .idle, outbox := s.outbox ++ [.noFrame] }

/-! ## Bit-stream reader -/

/-- READ_CODE takes the next n bits of the logical stream, the oldest lowest, across sub-blocks, and
changes only `pos` and the reader registers (R152, R153, R24). -/
def Obligations.ReadCodeTakesNextBits : Prop :=
  ∀ (s : State) (cur : Bytes) (blocks : List Bytes) (rest : Bytes) (n : Nat),
    InChain s cur blocks rest → n ≤ s.pendingBits cur blocks →
    ∃ t cur' blocks', readCode n s = .ok (s.pending cur blocks % 2 ^ n) t ∧
      InChain t cur' blocks' rest ∧ t.pending cur' blocks' = s.pending cur blocks / 2 ^ n ∧
      t.pendingBits cur' blocks' + n = s.pendingBits cur blocks ∧
      t = { s with pos := t.pos, reader := t.reader }

/-- A code for which the chain has too few bits raises Truncated at the terminator or at the end of the
buffer, and Malformed at a length that runs past the buffer (R151). -/
def Obligations.ReadCodeShortOfBitsRaises : Prop :=
  ∀ (s : State) (cur : Bytes) (blocks : List Bytes) (rest : Bytes) (n : Nat),
    InChain s cur blocks rest → s.pos ≤ s.len → s.pendingBits cur blocks < n →
    (rest = [] → ∃ t, readCode n s = .trap (.error .truncated) t ∧ t.pos = s.len) ∧
    (∀ r, rest = 0#8 :: r → ∃ t, readCode n s = .trap (.error .truncated) t ∧
      t.pos = s.pos + cur.length + (encodeBlocks blocks).length + 1) ∧
    (∀ l r, rest = l :: r → l ≠ 0#8 → r.length < l.toNat → ∃ t,
      readCode n s = .trap (.error .malformed) t ∧
      t.pos = s.pos + cur.length + (encodeBlocks blocks).length + 1)

/-- Codes packed as R114 lays them, least-significant bit first and without padding, and cut into
sub-blocks anywhere (R113, R120), are read back in order. -/
def Obligations.PackedCodesReadBack : Prop :=
  ∀ (s : State) (blocks : List Bytes) (tail : Bytes) (cs : List (Nat × Nat)), BlocksOk blocks →
    s.reader = ⟨0, 0, 0⟩ → s.bytesFrom s.pos = encodeChain blocks ++ tail →
    blocks.flatten = packCodes cs → (∀ x ∈ cs, x.1 < 2 ^ x.2) →
    ∃ t, readCodes (cs.map Prod.snd) s = .ok (cs.map Prod.fst) t

/-! ## LZW engine -/

/-- CLEAR resets width, size and the previous code (R182). That it changes nothing else is the model's reading
of R182 beside R32, which says that CLEAR sets the literal entries (log 19). -/
def Obligations.ClearResetsEngine : Prop :=
  ∀ s : State, exec .clear s = .next { s with
    lzw := { s.lzw with width := s.lzw.m + 1, size := 2 ^ s.lzw.m + 2, prevCode := none } }

/-- END leaves the code loop and skips the rest of the sub-block, the residual sub-blocks and the
terminator; no engine register changes (R183, R154). -/
def Obligations.EndSkipsResidual : Prop :=
  ∀ (s : State) (blocks : List Bytes) (tail : Bytes), BlocksOk blocks →
    s.bytesFrom (s.pos + s.reader.sbRem) = encodeChain blocks ++ tail →
    exec .endCode s = .next { s with
      pos := s.pos + s.reader.sbRem + (encodeChain blocks).length
      reader := ⟨0, 0, 0⟩
      control := .emit }

/-- DICT emits the entry of c, adds the previous entry with c's first symbol unless there is no previous
code or the dictionary is full, remembers c, and grows the width when the size has reached 2^width (R184,
R188, R189). It completes where every index is in the palette or transparent, and wherever the placement of
its entry completes. -/
def Obligations.DictEmitsAndAdds : Prop :=
  ∀ (s : State) (c : Nat), Dict.wf s.lzw.dict = true →
    (∀ i ∈ s.lzw.entry c, i < s.activePalette.length ∨ s.gc.tidx.map BitVec.toNat = some i) ∨
      (∃ u, emitAll (s.lzw.entry c) s = .ok () u) →
    let added : Option (List Nat) :=
      match s.lzw.prevCode with
      | none => none
      | some p => if s.lzw.size < 4096 then some (s.lzw.entry p ++ [(s.lzw.entry c).headD 0]) else none
    let size := if added.isSome then s.lzw.size + 1 else s.lzw.size
    ∃ t dict, emitAll (s.lzw.entry c) s = .ok () t ∧
      t = { s with canvas := { s.canvas with output := t.canvas.output }, cur := t.cur } ∧
      exec (.dict c) s = .next { t with lzw := { s.lzw with
        prevCode := some c
        size := size
        width := if size = 2 ^ s.lzw.width ∧ s.lzw.width < 12 then s.lzw.width + 1 else s.lzw.width
        dict := dict } } ∧
      ∀ x, Dict.read dict x = if x = s.lzw.size then added.getD (s.lzw.entry x) else s.lzw.entry x

/-- KWKWK emits the previous entry and its first symbol again, and defines the code as that sequence
(R185, R188, R189). It completes where every index is in the palette or transparent, and wherever
the placement of the sequence completes. A code has at most 12 bits, so the size it equals is below 4096. -/
def Obligations.KwkwkEmitsAndDefines : Prop :=
  ∀ (s : State) (c p : Nat), Dict.wf s.lzw.dict = true → s.lzw.prevCode = some p → c = s.lzw.size →
    s.lzw.size < 4096 →
    let q := s.lzw.entry p ++ [(s.lzw.entry p).headD 0]
    (∀ i ∈ q, i < s.activePalette.length ∨ s.gc.tidx.map BitVec.toNat = some i) ∨
      (∃ u, emitAll q s = .ok () u) →
    ∃ t dict, emitAll q s = .ok () t ∧
      t = { s with canvas := { s.canvas with output := t.canvas.output }, cur := t.cur } ∧
      exec (.kwkwk c) s = .next { t with lzw := { s.lzw with
        prevCode := some c
        size := s.lzw.size + 1
        width := if s.lzw.size + 1 = 2 ^ s.lzw.width ∧ s.lzw.width < 12 then s.lzw.width + 1
          else s.lzw.width
        dict := dict } } ∧
      ∀ x, Dict.read dict x = if x = c then q else s.lzw.entry x

/-- A written index beyond the active palette ends the code before its entry is added: the indices
emitted before it stay placed, the engine registers are those before the code (R273, R350 (e)). -/
def Obligations.PaletteFaultEndsCode : Prop :=
  ∀ (s t : State) (c i : Nat) (pre post q : List Nat) (x : Instr),
    (x = .dict c ∧ q = s.lzw.entry c) ∨
      (x = .kwkwk c ∧ ∃ p, s.lzw.prevCode = some p ∧ q = s.lzw.entry p ++ [(s.lzw.entry p).headD 0]) →
    q = pre ++ i :: post → emitAll pre s = .ok () t →
    t.cur.cy < t.cur.yLimit → t.cur.cx < t.cur.safeEnd → s.gc.tidx.map BitVec.toNat ≠ some i →
    s.activePalette.length ≤ i →
    exec x s = .fault (.unspecPaletteIndex
      { t with phase := .failed (.fault .unspecPaletteIndex), control := .idle }) ∧ t.lzw = s.lzw

/-- SKIP changes nothing (R186). -/
def Obligations.SkipChangesNothing : Prop :=
  ∀ (s : State) (c : Nat), exec (.skip c) s = .next s

/-- UNSPEC_CODE stops in its model fault, with the phase recorded (R187, R347). -/
def Obligations.UnspecCodeStops : Prop :=
  ∀ (s : State) (c : Nat), exec (.unspecCode c) s = .fault (.unspecCode
    { s with phase := .failed (.fault .unspecCode), control := .idle })

/-! ## Compositor -/

/-- DISPOSE_NONE and DISPOSE_KEEP leave the canvas and make `prev` the canvas itself (R263, R264). -/
def Obligations.NoneAndKeepAliasPrevious : Prop :=
  ∀ (s : State) (i : Instr), i = .disposeNone ∨ i = .disposeKeep →
    exec i s = .next { s with canvas := { s.canvas with prev := .same }, control := .cursor }

/-- DISPOSE_RESTORE_BG fills the canvas with Z; a snapshot stays, and an aliased `prev` follows
RB_PREV_POLICY (R265, R8). -/
def Obligations.RestoreBackgroundClears : Prop :=
  ∀ s : State, exec .disposeRestoreBg s = .next { s with
    canvas := { s.canvas with
      output := List.replicate (s.scr.W.toNat * s.scr.H.toNat) ⟨0#8, 0#8, 0#8, 0#8⟩
      prev := if s.canvas.prev = .same ∧ Config.rbPrevPolicy = .detach then .snap s.canvas.output
        else s.canvas.prev }
    control := .cursor }

/-- DISPOSE_RESTORE_PREV copies a snapshot into the canvas, and takes one where `prev` is the canvas
itself; so two of them in a row begin from the same canvas, whatever the first frame drew (R266). -/
def Obligations.RestorePreviousCopiesSnapshot : Prop :=
  ∀ s : State,
    (s.canvas.prev = .same → exec .disposeRestorePrev s = .next { s with
      canvas := { s.canvas with prev := .snap s.canvas.output }, control := .cursor }) ∧
    (∀ b, s.canvas.prev = .snap b → exec .disposeRestorePrev s = .next { s with
      canvas := { s.canvas with output := b }, control := .cursor }) ∧
    (∀ t u v, exec .disposeRestorePrev s = .next t → u.canvas.prev = t.canvas.prev →
      exec .disposeRestorePrev u = .next v → v.canvas.output = t.canvas.output)

/-- CURSOR_INIT puts the cursor at the rectangle's top-left corner, under the open VCLIP_LIMIT, and
READER_INIT empties the reader (R268, R150). -/
def Obligations.CursorStartsAtRectangle : Prop :=
  ∀ s : State, s.control = .cursor → step s = .next { s with
    cur := ⟨s.img.left.toNat, s.img.top.toNat, s.img.left.toNat + s.img.width.toNat,
      min (s.img.left.toNat + s.img.width.toNat) s.scr.W.toNat,
      if Config.vclipLimit = .screen then s.scr.H.toNat
      else min (s.img.top.toNat + s.img.height.toNat) s.scr.H.toNat⟩
    reader := ⟨0, 0, 0⟩
    control := .code }

/-- PLACE: past the stop row nothing happens; off the screen's columns or on the transparent index only
the cursor moves; otherwise the palette's colour is written at OIDX, or the index faults (R269 to R273,
R75). -/
def Obligations.PlaceWritesOnePixel : Prop :=
  ∀ (s : State) (i : Nat),
    let next : Cursor :=
      if s.cur.cx + 1 = s.cur.rowEnd then { s.cur with cx := s.img.left.toNat, cy := s.cur.cy + 1 }
      else { s.cur with cx := s.cur.cx + 1 }
    (s.cur.yLimit ≤ s.cur.cy → place i s = .ok () s) ∧
    (s.cur.cy < s.cur.yLimit →
      (s.cur.safeEnd ≤ s.cur.cx ∨ s.gc.tidx.map BitVec.toNat = some i →
        place i s = .ok () { s with cur := next }) ∧
      (s.cur.cx < s.cur.safeEnd → s.gc.tidx.map BitVec.toNat ≠ some i →
        (∀ px, s.activePalette[i]? = some px → place i s = .ok () { s with
          cur := next
          canvas := { s.canvas with
            output := s.canvas.output.set ((s.scr.H.toNat - 1 - s.cur.cy) * s.scr.W.toNat + s.cur.cx) px } }) ∧
        (s.activePalette.length ≤ i → place i s = .trap (.fault .unspecPaletteIndex) s)))

/-- The indices of a frame fill its rectangle row by row: the j-th one goes to column left + j mod width
and row top + j div width, unless it is transparent, off the screen's columns, or past the stop row; every
other pixel keeps its value (R268, R269 to R273, R279). -/
def Obligations.FrameIsDrawnRowMajor : Prop :=
  ∀ (s t : State) (q : List Nat), s.img.width ≠ 0#16 → s.canvas.output.length = s.canvasSize →
    emitAll q (cursorInit Config.vclipLimit s) = .ok () t →
    (∀ j i, q[j]? = some i → s.img.columnOf j < s.scr.W.toNat →
      s.img.rowOf j < yLimitOf Config.vclipLimit s → s.gc.tidx.map BitVec.toNat ≠ some i →
      s.activePalette[i]? = some (t.outRead (s.oidx (s.img.columnOf j) (s.img.rowOf j)))) ∧
    (∀ x y, x < s.scr.W.toNat → y < s.scr.H.toNat →
      (∀ j i, q[j]? = some i → s.img.columnOf j = x → s.img.rowOf j = y →
        yLimitOf Config.vclipLimit s ≤ y ∨ s.gc.tidx.map BitVec.toNat = some i) →
      t.outRead (s.oidx x y) = s.outRead (s.oidx x y)) ∧
    t.canvas.output.length = s.canvasSize

/-- OIDX is a one-to-one numbering of the screen's pixels by the canvas elements (R75, R278). -/
def Obligations.OidxNumbersScreen : Prop :=
  ∀ W H : Nat,
    (∀ x y, x < W → y < H → oidx W H x y < W * H) ∧
    (∀ x y x' y', x < W → y < H → x' < W → y' < H → oidx W H x y = oidx W H x' y' → x = x' ∧ y = y') ∧
    (∀ k, k < W * H → ∃ x y, x < W ∧ y < H ∧ oidx W H x y = k)

/-- PASS_ORDER is a permutation of the rows, in the four passes (R276). -/
def Obligations.PassOrderPermutesRows : Prop :=
  ∀ n : Nat, (passOrder n).Perm (List.range n) ∧
    ∃ a b c d, passOrder n = a ++ b ++ c ++ d ∧
      (∀ r, r ∈ a ↔ r < n ∧ r % 8 = 0) ∧ (∀ r, r ∈ b ↔ r < n ∧ r % 8 = 4) ∧
      (∀ r, r ∈ c ↔ r < n ∧ r % 4 = 2) ∧ (∀ r, r ∈ d ↔ r < n ∧ r % 2 = 1) ∧
      a.Pairwise (· < ·) ∧ b.Pairwise (· < ·) ∧ c.Pairwise (· < ·) ∧ d.Pairwise (· < ·)

/-- DEINTERLACE moves the pixels of stored row r to display row PASS_ORDER(H)[r], each row once (R275). -/
def Obligations.DeinterlaceMovesRows : Prop :=
  ∀ s : State, s.canvas.output.length = s.canvasSize →
    (∀ r d x, (passOrder s.scr.H.toNat)[r]? = some d → x < s.scr.W.toNat →
      (deinterlace s).outRead (s.oidx x d) = s.outRead (s.oidx x r)) ∧
    deinterlace s = { s with canvas := { s.canvas with output := (deinterlace s).canvas.output } } ∧
    (deinterlace s).canvas.output.length = s.canvasSize

/-- The frame's end: the canvas is deinterlaced if the frame is interlaced, and a copy of it goes to the
host with the screen's size and the delay in milliseconds (R230, R277, R317). -/
def Obligations.FrameIsEmitted : Prop :=
  ∀ s : State, s.control = .emit →
    let out := if s.img.interlaced then (deinterlace s).canvas.output else s.canvas.output
    step s = .next { s with
      canvas := { s.canvas with output := out }
      outbox := s.outbox ++ [.frame ⟨s.scr.W, s.scr.H, s.gc.delay.toNat * 10, out⟩]
      control := .idle }

/-! ## Rules of the whole machine -/

/-- The input buffer is read only: nothing but CONSTRUCT changes a byte of it (R70). -/
def Obligations.OnlyConstructWritesBuffer : Prop :=
  (∀ (i : Instr) (s t : State), exec i s = .next t → (∀ b, i ≠ .construct b) →
    t.len = s.len ∧ ∀ p, t.byteAt? p = s.byteAt? p) ∧
  ∀ s t : State, step s = .next t →
    (∀ w ws, s.control = .idle → s.inbox = w :: ws → w.number ≠ 0) →
    t.len = s.len ∧ ∀ p, t.byteAt? p = s.byteAt? p

/-- The screen registers and the global palette are written by PARSE_HEADER, and set anew by CONSTRUCT;
no other step changes them (R25, R381). -/
def Obligations.HeaderNeverMutates : Prop :=
  ∀ s t : State, step s = .next t → s.control ≠ .header →
    (∀ w ws, s.control = .idle → s.inbox = w :: ws → w.number ≠ 0) →
    t.scr = s.scr ∧ t.gpal = s.gpal

/-- `pos` never moves backward: the exception is CONSTRUCT, which starts a new buffer at 0 (R21). -/
def Obligations.PosNeverMovesBack : Prop :=
  ∀ s t : State, Machine.Inv s → step s = .next t →
    (∀ w ws, s.control = .idle → s.inbox = w :: ws → w.number ≠ 0) →
    s.pos ≤ t.pos ∧ t.pos ≤ t.len

/-- The graphic control registers are written by EXT_GCE, and set at CONSTRUCT; no other instruction
changes them (R29). -/
def Obligations.OnlyGceWritesGraphicControl : Prop :=
  ∀ (i : Instr) (s t : State), exec i s = .next t →
    (∀ b, i ≠ .extGce b) → (∀ b, i ≠ .construct b) → t.gc = s.gc

/-- The canvas persists: only RestoreBackground, RestorePrevious and the placement of indices change a
canvas that is allocated, beside RELEASE and CONSTRUCT, which give it up (R280). -/
def Obligations.CanvasPersists : Prop :=
  ∀ (i : Instr) (s t : State), exec i s = .next t → s.canvas.written = true →
    i ≠ .disposeRestoreBg → i ≠ .disposeRestorePrev → (∀ c, i ≠ .dict c) → (∀ c, i ≠ .kwkwk c) →
    i ≠ .release → (∀ b, i ≠ .construct b) → t.canvas.output = s.canvas.output

/-- The frames of the container tokens after the header: what none of them changes, and what each alone
does. An image writes its registers, its palette, the engine and an unallocated canvas; an empty image its
registers and palette; a graphic control extension its registers; a skipped extension and the trailer only
`pos` and `phase` (R222 to R226). -/
def Obligations.BlockTokensKeepTheRest : Prop :=
  ∀ (i : Instr) (s t : State), exec i s = .next t →
    ((∃ d p v, i = .image d p v) → t = { s with
      phase := t.phase, pos := t.pos, img := t.img, lpal := t.lpal, apal := t.apal, lzw := t.lzw
      canvas := t.canvas, control := t.control, outbox := t.outbox }) ∧
    ((∃ d p v, i = .imageEmpty d p v) → t = { s with
      phase := t.phase, pos := t.pos, img := t.img, lpal := t.lpal, control := t.control
      outbox := t.outbox }) ∧
    ((∃ b, i = .extGce b) → t = { s with
      phase := t.phase, pos := t.pos, gc := t.gc, control := t.control, outbox := t.outbox }) ∧
    ((∃ l, i = .extSkip l) ∨ i = .trailer ∨ (∃ b, i = .unexpected b) → t = { s with
      phase := t.phase, pos := t.pos, control := t.control, outbox := t.outbox })

/-- The frames of the codes: DICT and KWKWK change the canvas, the cursor and the engine; CLEAR the
engine; END only `pos`, the reader, and the place it leaves to; SKIP nothing (R182 to R186). -/
def Obligations.CodesKeepTheRest : Prop :=
  ∀ (i : Instr) (s t : State), exec i s = .next t →
    ((∃ c, i = .dict c) ∨ (∃ c, i = .kwkwk c) → t = { s with
      lzw := t.lzw, cur := t.cur, canvas := { s.canvas with output := t.canvas.output } } ∧
      t.lzw.m = s.lzw.m ∧ t.lzw.clearCode = s.lzw.clearCode ∧ t.lzw.endCode = s.lzw.endCode) ∧
    (i = .endCode → t = { s with
      phase := t.phase, pos := t.pos, reader := t.reader, control := t.control, outbox := t.outbox })

end
end

