-- ==== Sys2Proof/Laws/Result.lean ====
section
/-! SUPPORT. What a sequence of operations that can raise comes to. -/

namespace Sys2Proof.Machine

variable {α β : Type}

@[simp] theorem Result.bind_ok (a : α) (s : State) (f : α → State → Result β) :
    (Result.ok a s).bind f = f a s := rfl

@[simp] theorem Result.bind_trap (k : Cause) (s : State) (f : α → State → Result β) :
    (Result.trap k s).bind f = .trap k s := rfl

@[simp] theorem bind_raise (k : ErrorKind) (s : State) (f : α → State → Result β) :
    (raise k s).bind f = raise k s := rfl

@[simp] theorem bind_fault (k : FaultCode) (s : State) (f : α → State → Result β) :
    (fault k s).bind f = fault k s := rfl

@[simp] theorem raise_ne_ok (k : ErrorKind) (s t : State) (a : α) : raise k s ≠ .ok a t := by
  simp [raise]

@[simp] theorem fault_ne_ok (k : FaultCode) (s t : State) (a : α) : fault k s ≠ .ok a t := by
  simp [fault]

theorem Result.bind_eq_ok {r : Result α} {f : α → State → Result β} {b : β} {t : State} :
    r.bind f = .ok b t ↔ ∃ a s, r = .ok a s ∧ f a s = .ok b t := by
  cases r <;> simp

theorem Result.bind_eq_trap {r : Result α} {f : α → State → Result β} {k : Cause} {t : State} :
    r.bind f = .trap k t ↔ r = .trap k t ∨ ∃ a s, r = .ok a s ∧ f a s = .trap k t := by
  cases r <;> simp

@[simp] theorem Result.finish_ok (s : State) : (Result.ok () s).finish = .next s := rfl

@[simp] theorem finish_raise (k : ErrorKind) (s : State) :
    (raise (α := Unit) k s).finish = .next (takeError k s) := rfl

@[simp] theorem finish_fault (f : FaultCode) (s : State) :
    (fault (α := Unit) f s).finish = .fault (modelFault f s) := rfl

/-- An operation's step is a next state in two ways: it completes, or it takes an error. -/
theorem Result.finish_eq_next {r : Result Unit} {t : State} :
    r.finish = .next t ↔
      r = .ok () t ∨ ∃ k s, r = .trap (.error k) s ∧ t = takeError k s := by
  rcases r with ⟨a, s⟩ | ⟨k | f, s⟩ <;> simp [Result.finish, eq_comm]

/-- An operation's step is a fault only from `fault F`. -/
theorem Result.finish_eq_fault {r : Result Unit} {q : Fault} :
    r.finish = .fault q ↔ ∃ f s, r = .trap (.fault f) s ∧ q = modelFault f s := by
  rcases r with ⟨a, s⟩ | ⟨k | f, s⟩ <;> simp [Result.finish, eq_comm]

/-- No operation refuses. -/
theorem Result.finish_ne_refused (r : Result Unit) (q : Refusal) : r.finish ≠ .refused q := by
  rcases r with ⟨a, s⟩ | ⟨k | f, s⟩ <;> simp [Result.finish]

/-- The state an operation is in when it completes or stops. -/
def Result.state : Result α → State
  | .ok _ s => s
  | .trap _ s => s

@[simp] theorem Result.state_ok (a : α) (s : State) : (Result.ok a s).state = s := rfl

@[simp] theorem Result.state_trap (k : Cause) (s : State) : (Result.trap (α := α) k s).state = s := rfl

@[simp] theorem state_raise (k : ErrorKind) (s : State) : (raise (α := α) k s).state = s := rfl

@[simp] theorem state_fault (k : FaultCode) (s : State) : (fault (α := α) k s).state = s := rfl

/-- A relation between start and end of an operation goes through a sequence of two. -/
theorem Result.bind_state {R : State → State → Prop} (trans : ∀ a b c, R a b → R b c → R a c)
    {s : State} {r : Result α} {f : α → State → Result β} (hr : R s r.state)
    (hf : ∀ a t, r = .ok a t → R t (f a t).state) : R s (r.bind f).state := by
  cases r with
  | ok a t => exact trans _ _ _ hr (hf a t rfl)
  | trap k t => exact hr

end Sys2Proof.Machine
end

