-- ==== Sys2Proof/Laws/State.lean ====
section
/-! SUPPORT. One lemma per field for each state update, so that no proof unfolds a record update. -/

namespace Sys2Proof.Machine

/-! ## advance -/

@[simp] theorem State.advance_phase (s : State) (n : Nat) : (s.advance n).phase = s.phase := rfl
@[simp] theorem State.advance_pos (s : State) (n : Nat) : (s.advance n).pos = s.pos + n := rfl
@[simp] theorem State.advance_buf (s : State) (n : Nat) : (s.advance n).buf = s.buf := rfl
@[simp] theorem State.advance_len (s : State) (n : Nat) : (s.advance n).len = s.len := rfl
@[simp] theorem State.advance_reader (s : State) (n : Nat) : (s.advance n).reader = s.reader := rfl
@[simp] theorem State.advance_scr (s : State) (n : Nat) : (s.advance n).scr = s.scr := rfl
@[simp] theorem State.advance_gpal (s : State) (n : Nat) : (s.advance n).gpal = s.gpal := rfl
@[simp] theorem State.advance_lpal (s : State) (n : Nat) : (s.advance n).lpal = s.lpal := rfl
@[simp] theorem State.advance_apal (s : State) (n : Nat) : (s.advance n).apal = s.apal := rfl
@[simp] theorem State.advance_gc (s : State) (n : Nat) : (s.advance n).gc = s.gc := rfl
@[simp] theorem State.advance_img (s : State) (n : Nat) : (s.advance n).img = s.img := rfl
@[simp] theorem State.advance_lzw (s : State) (n : Nat) : (s.advance n).lzw = s.lzw := rfl
@[simp] theorem State.advance_cur (s : State) (n : Nat) : (s.advance n).cur = s.cur := rfl
@[simp] theorem State.advance_canvas (s : State) (n : Nat) : (s.advance n).canvas = s.canvas := rfl
@[simp] theorem State.advance_refused (s : State) (n : Nat) : (s.advance n).refused = s.refused := rfl
@[simp] theorem State.advance_everRefused (s : State) (n : Nat) : (s.advance n).everRefused = s.everRefused := rfl
@[simp] theorem State.advance_control (s : State) (n : Nat) : (s.advance n).control = s.control := rfl
@[simp] theorem State.advance_inbox (s : State) (n : Nat) : (s.advance n).inbox = s.inbox := rfl
@[simp] theorem State.advance_outbox (s : State) (n : Nat) : (s.advance n).outbox = s.outbox := rfl

/-! ## goto -/

@[simp] theorem State.goto_phase (s : State) (c : Control) : (s.goto c).phase = s.phase := rfl
@[simp] theorem State.goto_pos (s : State) (c : Control) : (s.goto c).pos = s.pos := rfl
@[simp] theorem State.goto_buf (s : State) (c : Control) : (s.goto c).buf = s.buf := rfl
@[simp] theorem State.goto_len (s : State) (c : Control) : (s.goto c).len = s.len := rfl
@[simp] theorem State.goto_reader (s : State) (c : Control) : (s.goto c).reader = s.reader := rfl
@[simp] theorem State.goto_scr (s : State) (c : Control) : (s.goto c).scr = s.scr := rfl
@[simp] theorem State.goto_gpal (s : State) (c : Control) : (s.goto c).gpal = s.gpal := rfl
@[simp] theorem State.goto_lpal (s : State) (c : Control) : (s.goto c).lpal = s.lpal := rfl
@[simp] theorem State.goto_apal (s : State) (c : Control) : (s.goto c).apal = s.apal := rfl
@[simp] theorem State.goto_gc (s : State) (c : Control) : (s.goto c).gc = s.gc := rfl
@[simp] theorem State.goto_img (s : State) (c : Control) : (s.goto c).img = s.img := rfl
@[simp] theorem State.goto_lzw (s : State) (c : Control) : (s.goto c).lzw = s.lzw := rfl
@[simp] theorem State.goto_cur (s : State) (c : Control) : (s.goto c).cur = s.cur := rfl
@[simp] theorem State.goto_canvas (s : State) (c : Control) : (s.goto c).canvas = s.canvas := rfl
@[simp] theorem State.goto_refused (s : State) (c : Control) : (s.goto c).refused = s.refused := rfl
@[simp] theorem State.goto_everRefused (s : State) (c : Control) : (s.goto c).everRefused = s.everRefused := rfl
@[simp] theorem State.goto_control (s : State) (c : Control) : (s.goto c).control = c := rfl
@[simp] theorem State.goto_inbox (s : State) (c : Control) : (s.goto c).inbox = s.inbox := rfl
@[simp] theorem State.goto_outbox (s : State) (c : Control) : (s.goto c).outbox = s.outbox := rfl

/-! ## reply -/

@[simp] theorem State.reply_phase (s : State) (r : Reply) : (s.reply r).phase = s.phase := rfl
@[simp] theorem State.reply_pos (s : State) (r : Reply) : (s.reply r).pos = s.pos := rfl
@[simp] theorem State.reply_buf (s : State) (r : Reply) : (s.reply r).buf = s.buf := rfl
@[simp] theorem State.reply_len (s : State) (r : Reply) : (s.reply r).len = s.len := rfl
@[simp] theorem State.reply_reader (s : State) (r : Reply) : (s.reply r).reader = s.reader := rfl
@[simp] theorem State.reply_scr (s : State) (r : Reply) : (s.reply r).scr = s.scr := rfl
@[simp] theorem State.reply_gpal (s : State) (r : Reply) : (s.reply r).gpal = s.gpal := rfl
@[simp] theorem State.reply_lpal (s : State) (r : Reply) : (s.reply r).lpal = s.lpal := rfl
@[simp] theorem State.reply_apal (s : State) (r : Reply) : (s.reply r).apal = s.apal := rfl
@[simp] theorem State.reply_gc (s : State) (r : Reply) : (s.reply r).gc = s.gc := rfl
@[simp] theorem State.reply_img (s : State) (r : Reply) : (s.reply r).img = s.img := rfl
@[simp] theorem State.reply_lzw (s : State) (r : Reply) : (s.reply r).lzw = s.lzw := rfl
@[simp] theorem State.reply_cur (s : State) (r : Reply) : (s.reply r).cur = s.cur := rfl
@[simp] theorem State.reply_canvas (s : State) (r : Reply) : (s.reply r).canvas = s.canvas := rfl
@[simp] theorem State.reply_refused (s : State) (r : Reply) : (s.reply r).refused = s.refused := rfl
@[simp] theorem State.reply_everRefused (s : State) (r : Reply) : (s.reply r).everRefused = s.everRefused := rfl
@[simp] theorem State.reply_control (s : State) (r : Reply) : (s.reply r).control = s.control := rfl
@[simp] theorem State.reply_inbox (s : State) (r : Reply) : (s.reply r).inbox = s.inbox := rfl
@[simp] theorem State.reply_outbox (s : State) (r : Reply) : (s.reply r).outbox = s.outbox ++ [r] := rfl

/-! ## outWrite -/

@[simp] theorem State.outWrite_phase (s : State) (k : Nat) (px : Pixel) : (s.outWrite k px).phase = s.phase := rfl
@[simp] theorem State.outWrite_pos (s : State) (k : Nat) (px : Pixel) : (s.outWrite k px).pos = s.pos := rfl
@[simp] theorem State.outWrite_buf (s : State) (k : Nat) (px : Pixel) : (s.outWrite k px).buf = s.buf := rfl
@[simp] theorem State.outWrite_len (s : State) (k : Nat) (px : Pixel) : (s.outWrite k px).len = s.len := rfl
@[simp] theorem State.outWrite_reader (s : State) (k : Nat) (px : Pixel) : (s.outWrite k px).reader = s.reader := rfl
@[simp] theorem State.outWrite_scr (s : State) (k : Nat) (px : Pixel) : (s.outWrite k px).scr = s.scr := rfl
@[simp] theorem State.outWrite_gpal (s : State) (k : Nat) (px : Pixel) : (s.outWrite k px).gpal = s.gpal := rfl
@[simp] theorem State.outWrite_lpal (s : State) (k : Nat) (px : Pixel) : (s.outWrite k px).lpal = s.lpal := rfl
@[simp] theorem State.outWrite_apal (s : State) (k : Nat) (px : Pixel) : (s.outWrite k px).apal = s.apal := rfl
@[simp] theorem State.outWrite_gc (s : State) (k : Nat) (px : Pixel) : (s.outWrite k px).gc = s.gc := rfl
@[simp] theorem State.outWrite_img (s : State) (k : Nat) (px : Pixel) : (s.outWrite k px).img = s.img := rfl
@[simp] theorem State.outWrite_lzw (s : State) (k : Nat) (px : Pixel) : (s.outWrite k px).lzw = s.lzw := rfl
@[simp] theorem State.outWrite_cur (s : State) (k : Nat) (px : Pixel) : (s.outWrite k px).cur = s.cur := rfl
@[simp] theorem State.outWrite_canvas (s : State) (k : Nat) (px : Pixel) : (s.outWrite k px).canvas = { s.canvas with output := s.canvas.output.set k px } := rfl
@[simp] theorem State.outWrite_refused (s : State) (k : Nat) (px : Pixel) : (s.outWrite k px).refused = s.refused := rfl
@[simp] theorem State.outWrite_everRefused (s : State) (k : Nat) (px : Pixel) : (s.outWrite k px).everRefused = s.everRefused := rfl
@[simp] theorem State.outWrite_control (s : State) (k : Nat) (px : Pixel) : (s.outWrite k px).control = s.control := rfl
@[simp] theorem State.outWrite_inbox (s : State) (k : Nat) (px : Pixel) : (s.outWrite k px).inbox = s.inbox := rfl
@[simp] theorem State.outWrite_outbox (s : State) (k : Nat) (px : Pixel) : (s.outWrite k px).outbox = s.outbox := rfl

/-! ## trapEntry -/

@[simp] theorem trapEntry_phase (k : Cause) (s : State) : (trapEntry k s).phase = .failed k := rfl
@[simp] theorem trapEntry_pos (k : Cause) (s : State) : (trapEntry k s).pos = s.pos := rfl
@[simp] theorem trapEntry_buf (k : Cause) (s : State) : (trapEntry k s).buf = s.buf := rfl
@[simp] theorem trapEntry_len (k : Cause) (s : State) : (trapEntry k s).len = s.len := rfl
@[simp] theorem trapEntry_reader (k : Cause) (s : State) : (trapEntry k s).reader = s.reader := rfl
@[simp] theorem trapEntry_scr (k : Cause) (s : State) : (trapEntry k s).scr = s.scr := rfl
@[simp] theorem trapEntry_gpal (k : Cause) (s : State) : (trapEntry k s).gpal = s.gpal := rfl
@[simp] theorem trapEntry_lpal (k : Cause) (s : State) : (trapEntry k s).lpal = s.lpal := rfl
@[simp] theorem trapEntry_apal (k : Cause) (s : State) : (trapEntry k s).apal = s.apal := rfl
@[simp] theorem trapEntry_gc (k : Cause) (s : State) : (trapEntry k s).gc = s.gc := rfl
@[simp] theorem trapEntry_img (k : Cause) (s : State) : (trapEntry k s).img = s.img := rfl
@[simp] theorem trapEntry_lzw (k : Cause) (s : State) : (trapEntry k s).lzw = s.lzw := rfl
@[simp] theorem trapEntry_cur (k : Cause) (s : State) : (trapEntry k s).cur = s.cur := rfl
@[simp] theorem trapEntry_canvas (k : Cause) (s : State) : (trapEntry k s).canvas = s.canvas := rfl
@[simp] theorem trapEntry_refused (k : Cause) (s : State) : (trapEntry k s).refused = s.refused := rfl
@[simp] theorem trapEntry_everRefused (k : Cause) (s : State) : (trapEntry k s).everRefused = s.everRefused := rfl
@[simp] theorem trapEntry_control (k : Cause) (s : State) : (trapEntry k s).control = .idle := rfl
@[simp] theorem trapEntry_inbox (k : Cause) (s : State) : (trapEntry k s).inbox = s.inbox := rfl
@[simp] theorem trapEntry_outbox (k : Cause) (s : State) : (trapEntry k s).outbox = s.outbox := rfl

/-! ## takeError -/

@[simp] theorem takeError_phase (k : ErrorKind) (s : State) : (takeError k s).phase = .failed (.error k) := rfl
@[simp] theorem takeError_pos (k : ErrorKind) (s : State) : (takeError k s).pos = s.pos := rfl
@[simp] theorem takeError_buf (k : ErrorKind) (s : State) : (takeError k s).buf = s.buf := rfl
@[simp] theorem takeError_len (k : ErrorKind) (s : State) : (takeError k s).len = s.len := rfl
@[simp] theorem takeError_reader (k : ErrorKind) (s : State) : (takeError k s).reader = s.reader := rfl
@[simp] theorem takeError_scr (k : ErrorKind) (s : State) : (takeError k s).scr = s.scr := rfl
@[simp] theorem takeError_gpal (k : ErrorKind) (s : State) : (takeError k s).gpal = s.gpal := rfl
@[simp] theorem takeError_lpal (k : ErrorKind) (s : State) : (takeError k s).lpal = s.lpal := rfl
@[simp] theorem takeError_apal (k : ErrorKind) (s : State) : (takeError k s).apal = s.apal := rfl
@[simp] theorem takeError_gc (k : ErrorKind) (s : State) : (takeError k s).gc = s.gc := rfl
@[simp] theorem takeError_img (k : ErrorKind) (s : State) : (takeError k s).img = s.img := rfl
@[simp] theorem takeError_lzw (k : ErrorKind) (s : State) : (takeError k s).lzw = s.lzw := rfl
@[simp] theorem takeError_cur (k : ErrorKind) (s : State) : (takeError k s).cur = s.cur := rfl
@[simp] theorem takeError_canvas (k : ErrorKind) (s : State) : (takeError k s).canvas = s.canvas := rfl
@[simp] theorem takeError_refused (k : ErrorKind) (s : State) : (takeError k s).refused = s.refused := rfl
@[simp] theorem takeError_everRefused (k : ErrorKind) (s : State) : (takeError k s).everRefused = s.everRefused := rfl
@[simp] theorem takeError_control (k : ErrorKind) (s : State) : (takeError k s).control = .idle := rfl
@[simp] theorem takeError_inbox (k : ErrorKind) (s : State) : (takeError k s).inbox = s.inbox := rfl
@[simp] theorem takeError_outbox (k : ErrorKind) (s : State) : (takeError k s).outbox = s.outbox ++ [.error k] := rfl

/-! ## refuse -/

@[simp] theorem refuse_phase (s : State) : (refuse s).phase = s.phase := rfl
@[simp] theorem refuse_pos (s : State) : (refuse s).pos = s.pos := rfl
@[simp] theorem refuse_buf (s : State) : (refuse s).buf = s.buf := rfl
@[simp] theorem refuse_len (s : State) : (refuse s).len = s.len := rfl
@[simp] theorem refuse_reader (s : State) : (refuse s).reader = s.reader := rfl
@[simp] theorem refuse_scr (s : State) : (refuse s).scr = s.scr := rfl
@[simp] theorem refuse_gpal (s : State) : (refuse s).gpal = s.gpal := rfl
@[simp] theorem refuse_lpal (s : State) : (refuse s).lpal = s.lpal := rfl
@[simp] theorem refuse_apal (s : State) : (refuse s).apal = s.apal := rfl
@[simp] theorem refuse_gc (s : State) : (refuse s).gc = s.gc := rfl
@[simp] theorem refuse_img (s : State) : (refuse s).img = s.img := rfl
@[simp] theorem refuse_lzw (s : State) : (refuse s).lzw = s.lzw := rfl
@[simp] theorem refuse_cur (s : State) : (refuse s).cur = s.cur := rfl
@[simp] theorem refuse_canvas (s : State) : (refuse s).canvas = s.canvas := rfl
@[simp] theorem refuse_refused (s : State) : (refuse s).refused = true := rfl
@[simp] theorem refuse_everRefused (s : State) : (refuse s).everRefused = true := rfl
@[simp] theorem refuse_control (s : State) : (refuse s).control = s.control := rfl
@[simp] theorem refuse_inbox (s : State) : (refuse s).inbox = s.inbox := rfl
@[simp] theorem refuse_outbox (s : State) : (refuse s).outbox = s.outbox ++ [.refused] := rfl

/-! ## readerInit -/

@[simp] theorem readerInit_phase (s : State) : (readerInit s).phase = s.phase := rfl
@[simp] theorem readerInit_pos (s : State) : (readerInit s).pos = s.pos := rfl
@[simp] theorem readerInit_buf (s : State) : (readerInit s).buf = s.buf := rfl
@[simp] theorem readerInit_len (s : State) : (readerInit s).len = s.len := rfl
@[simp] theorem readerInit_reader (s : State) : (readerInit s).reader = ⟨0, 0, 0⟩ := rfl
@[simp] theorem readerInit_scr (s : State) : (readerInit s).scr = s.scr := rfl
@[simp] theorem readerInit_gpal (s : State) : (readerInit s).gpal = s.gpal := rfl
@[simp] theorem readerInit_lpal (s : State) : (readerInit s).lpal = s.lpal := rfl
@[simp] theorem readerInit_apal (s : State) : (readerInit s).apal = s.apal := rfl
@[simp] theorem readerInit_gc (s : State) : (readerInit s).gc = s.gc := rfl
@[simp] theorem readerInit_img (s : State) : (readerInit s).img = s.img := rfl
@[simp] theorem readerInit_lzw (s : State) : (readerInit s).lzw = s.lzw := rfl
@[simp] theorem readerInit_cur (s : State) : (readerInit s).cur = s.cur := rfl
@[simp] theorem readerInit_canvas (s : State) : (readerInit s).canvas = s.canvas := rfl
@[simp] theorem readerInit_refused (s : State) : (readerInit s).refused = s.refused := rfl
@[simp] theorem readerInit_everRefused (s : State) : (readerInit s).everRefused = s.everRefused := rfl
@[simp] theorem readerInit_control (s : State) : (readerInit s).control = s.control := rfl
@[simp] theorem readerInit_inbox (s : State) : (readerInit s).inbox = s.inbox := rfl
@[simp] theorem readerInit_outbox (s : State) : (readerInit s).outbox = s.outbox := rfl

/-! ## aliasPrev -/

@[simp] theorem aliasPrev_phase (s : State) : (aliasPrev s).phase = s.phase := rfl
@[simp] theorem aliasPrev_pos (s : State) : (aliasPrev s).pos = s.pos := rfl
@[simp] theorem aliasPrev_buf (s : State) : (aliasPrev s).buf = s.buf := rfl
@[simp] theorem aliasPrev_len (s : State) : (aliasPrev s).len = s.len := rfl
@[simp] theorem aliasPrev_reader (s : State) : (aliasPrev s).reader = s.reader := rfl
@[simp] theorem aliasPrev_scr (s : State) : (aliasPrev s).scr = s.scr := rfl
@[simp] theorem aliasPrev_gpal (s : State) : (aliasPrev s).gpal = s.gpal := rfl
@[simp] theorem aliasPrev_lpal (s : State) : (aliasPrev s).lpal = s.lpal := rfl
@[simp] theorem aliasPrev_apal (s : State) : (aliasPrev s).apal = s.apal := rfl
@[simp] theorem aliasPrev_gc (s : State) : (aliasPrev s).gc = s.gc := rfl
@[simp] theorem aliasPrev_img (s : State) : (aliasPrev s).img = s.img := rfl
@[simp] theorem aliasPrev_lzw (s : State) : (aliasPrev s).lzw = s.lzw := rfl
@[simp] theorem aliasPrev_cur (s : State) : (aliasPrev s).cur = s.cur := rfl
@[simp] theorem aliasPrev_canvas (s : State) : (aliasPrev s).canvas = { s.canvas with prev := .same } := rfl
@[simp] theorem aliasPrev_refused (s : State) : (aliasPrev s).refused = s.refused := rfl
@[simp] theorem aliasPrev_everRefused (s : State) : (aliasPrev s).everRefused = s.everRefused := rfl
@[simp] theorem aliasPrev_control (s : State) : (aliasPrev s).control = s.control := rfl
@[simp] theorem aliasPrev_inbox (s : State) : (aliasPrev s).inbox = s.inbox := rfl
@[simp] theorem aliasPrev_outbox (s : State) : (aliasPrev s).outbox = s.outbox := rfl

/-! ## advanceCursor -/

@[simp] theorem advanceCursor_phase (s : State) : (advanceCursor s).phase = s.phase := rfl
@[simp] theorem advanceCursor_pos (s : State) : (advanceCursor s).pos = s.pos := rfl
@[simp] theorem advanceCursor_buf (s : State) : (advanceCursor s).buf = s.buf := rfl
@[simp] theorem advanceCursor_len (s : State) : (advanceCursor s).len = s.len := rfl
@[simp] theorem advanceCursor_reader (s : State) : (advanceCursor s).reader = s.reader := rfl
@[simp] theorem advanceCursor_scr (s : State) : (advanceCursor s).scr = s.scr := rfl
@[simp] theorem advanceCursor_gpal (s : State) : (advanceCursor s).gpal = s.gpal := rfl
@[simp] theorem advanceCursor_lpal (s : State) : (advanceCursor s).lpal = s.lpal := rfl
@[simp] theorem advanceCursor_apal (s : State) : (advanceCursor s).apal = s.apal := rfl
@[simp] theorem advanceCursor_gc (s : State) : (advanceCursor s).gc = s.gc := rfl
@[simp] theorem advanceCursor_img (s : State) : (advanceCursor s).img = s.img := rfl
@[simp] theorem advanceCursor_lzw (s : State) : (advanceCursor s).lzw = s.lzw := rfl
@[simp] theorem advanceCursor_cur (s : State) : (advanceCursor s).cur = s.cur.next s.img.left.toNat := rfl
@[simp] theorem advanceCursor_canvas (s : State) : (advanceCursor s).canvas = s.canvas := rfl
@[simp] theorem advanceCursor_refused (s : State) : (advanceCursor s).refused = s.refused := rfl
@[simp] theorem advanceCursor_everRefused (s : State) : (advanceCursor s).everRefused = s.everRefused := rfl
@[simp] theorem advanceCursor_control (s : State) : (advanceCursor s).control = s.control := rfl
@[simp] theorem advanceCursor_inbox (s : State) : (advanceCursor s).inbox = s.inbox := rfl
@[simp] theorem advanceCursor_outbox (s : State) : (advanceCursor s).outbox = s.outbox := rfl

/-! ## selectPalette -/

@[simp] theorem selectPalette_phase (s : State) : (selectPalette s).phase = s.phase := rfl
@[simp] theorem selectPalette_pos (s : State) : (selectPalette s).pos = s.pos := rfl
@[simp] theorem selectPalette_buf (s : State) : (selectPalette s).buf = s.buf := rfl
@[simp] theorem selectPalette_len (s : State) : (selectPalette s).len = s.len := rfl
@[simp] theorem selectPalette_reader (s : State) : (selectPalette s).reader = s.reader := rfl
@[simp] theorem selectPalette_scr (s : State) : (selectPalette s).scr = s.scr := rfl
@[simp] theorem selectPalette_gpal (s : State) : (selectPalette s).gpal = s.gpal := rfl
@[simp] theorem selectPalette_lpal (s : State) : (selectPalette s).lpal = s.lpal := rfl
@[simp] theorem selectPalette_apal (s : State) : (selectPalette s).apal = if s.img.hasLocal then .localPalette else .globalPalette := rfl
@[simp] theorem selectPalette_gc (s : State) : (selectPalette s).gc = s.gc := rfl
@[simp] theorem selectPalette_img (s : State) : (selectPalette s).img = s.img := rfl
@[simp] theorem selectPalette_lzw (s : State) : (selectPalette s).lzw = s.lzw := rfl
@[simp] theorem selectPalette_cur (s : State) : (selectPalette s).cur = s.cur := rfl
@[simp] theorem selectPalette_canvas (s : State) : (selectPalette s).canvas = s.canvas := rfl
@[simp] theorem selectPalette_refused (s : State) : (selectPalette s).refused = s.refused := rfl
@[simp] theorem selectPalette_everRefused (s : State) : (selectPalette s).everRefused = s.everRefused := rfl
@[simp] theorem selectPalette_control (s : State) : (selectPalette s).control = s.control := rfl
@[simp] theorem selectPalette_inbox (s : State) : (selectPalette s).inbox = s.inbox := rfl
@[simp] theorem selectPalette_outbox (s : State) : (selectPalette s).outbox = s.outbox := rfl

/-! ## deinterlace -/

@[simp] theorem deinterlace_phase (s : State) : (deinterlace s).phase = s.phase := rfl
@[simp] theorem deinterlace_pos (s : State) : (deinterlace s).pos = s.pos := rfl
@[simp] theorem deinterlace_buf (s : State) : (deinterlace s).buf = s.buf := rfl
@[simp] theorem deinterlace_len (s : State) : (deinterlace s).len = s.len := rfl
@[simp] theorem deinterlace_reader (s : State) : (deinterlace s).reader = s.reader := rfl
@[simp] theorem deinterlace_scr (s : State) : (deinterlace s).scr = s.scr := rfl
@[simp] theorem deinterlace_gpal (s : State) : (deinterlace s).gpal = s.gpal := rfl
@[simp] theorem deinterlace_lpal (s : State) : (deinterlace s).lpal = s.lpal := rfl
@[simp] theorem deinterlace_apal (s : State) : (deinterlace s).apal = s.apal := rfl
@[simp] theorem deinterlace_gc (s : State) : (deinterlace s).gc = s.gc := rfl
@[simp] theorem deinterlace_img (s : State) : (deinterlace s).img = s.img := rfl
@[simp] theorem deinterlace_lzw (s : State) : (deinterlace s).lzw = s.lzw := rfl
@[simp] theorem deinterlace_cur (s : State) : (deinterlace s).cur = s.cur := rfl
@[simp] theorem deinterlace_canvas (s : State) : (deinterlace s).canvas = { s.canvas with output := deinterlaced s.scr.W.toNat s.scr.H.toNat s.canvas.output } := rfl
@[simp] theorem deinterlace_refused (s : State) : (deinterlace s).refused = s.refused := rfl
@[simp] theorem deinterlace_everRefused (s : State) : (deinterlace s).everRefused = s.everRefused := rfl
@[simp] theorem deinterlace_control (s : State) : (deinterlace s).control = s.control := rfl
@[simp] theorem deinterlace_inbox (s : State) : (deinterlace s).inbox = s.inbox := rfl
@[simp] theorem deinterlace_outbox (s : State) : (deinterlace s).outbox = s.outbox := rfl

/-! ## startCodes -/

@[simp] theorem startCodes_phase (s : State) : (startCodes s).phase = s.phase := rfl
@[simp] theorem startCodes_pos (s : State) : (startCodes s).pos = s.pos := rfl
@[simp] theorem startCodes_buf (s : State) : (startCodes s).buf = s.buf := rfl
@[simp] theorem startCodes_len (s : State) : (startCodes s).len = s.len := rfl
@[simp] theorem startCodes_reader (s : State) : (startCodes s).reader = ⟨0, 0, 0⟩ := rfl
@[simp] theorem startCodes_scr (s : State) : (startCodes s).scr = s.scr := rfl
@[simp] theorem startCodes_gpal (s : State) : (startCodes s).gpal = s.gpal := rfl
@[simp] theorem startCodes_lpal (s : State) : (startCodes s).lpal = s.lpal := rfl
@[simp] theorem startCodes_apal (s : State) : (startCodes s).apal = s.apal := rfl
@[simp] theorem startCodes_gc (s : State) : (startCodes s).gc = s.gc := rfl
@[simp] theorem startCodes_img (s : State) : (startCodes s).img = s.img := rfl
@[simp] theorem startCodes_lzw (s : State) : (startCodes s).lzw = s.lzw := rfl
@[simp] theorem startCodes_cur (s : State) : (startCodes s).cur = (cursorInit Config.vclipLimit s).cur := rfl
@[simp] theorem startCodes_canvas (s : State) : (startCodes s).canvas = s.canvas := rfl
@[simp] theorem startCodes_refused (s : State) : (startCodes s).refused = s.refused := rfl
@[simp] theorem startCodes_everRefused (s : State) : (startCodes s).everRefused = s.everRefused := rfl
@[simp] theorem startCodes_control (s : State) : (startCodes s).control = .code := rfl
@[simp] theorem startCodes_inbox (s : State) : (startCodes s).inbox = s.inbox := rfl
@[simp] theorem startCodes_outbox (s : State) : (startCodes s).outbox = s.outbox := rfl

/-! ## restoreBackground: only the canvas changes -/

@[simp] theorem restoreBackground_phase (p : RbPrevPolicy) (s : State) : (restoreBackground p s).phase = s.phase := rfl
@[simp] theorem restoreBackground_pos (p : RbPrevPolicy) (s : State) : (restoreBackground p s).pos = s.pos := rfl
@[simp] theorem restoreBackground_buf (p : RbPrevPolicy) (s : State) : (restoreBackground p s).buf = s.buf := rfl
@[simp] theorem restoreBackground_len (p : RbPrevPolicy) (s : State) : (restoreBackground p s).len = s.len := rfl
@[simp] theorem restoreBackground_reader (p : RbPrevPolicy) (s : State) : (restoreBackground p s).reader = s.reader := rfl
@[simp] theorem restoreBackground_scr (p : RbPrevPolicy) (s : State) : (restoreBackground p s).scr = s.scr := rfl
@[simp] theorem restoreBackground_gpal (p : RbPrevPolicy) (s : State) : (restoreBackground p s).gpal = s.gpal := rfl
@[simp] theorem restoreBackground_lpal (p : RbPrevPolicy) (s : State) : (restoreBackground p s).lpal = s.lpal := rfl
@[simp] theorem restoreBackground_apal (p : RbPrevPolicy) (s : State) : (restoreBackground p s).apal = s.apal := rfl
@[simp] theorem restoreBackground_gc (p : RbPrevPolicy) (s : State) : (restoreBackground p s).gc = s.gc := rfl
@[simp] theorem restoreBackground_img (p : RbPrevPolicy) (s : State) : (restoreBackground p s).img = s.img := rfl
@[simp] theorem restoreBackground_lzw (p : RbPrevPolicy) (s : State) : (restoreBackground p s).lzw = s.lzw := rfl
@[simp] theorem restoreBackground_cur (p : RbPrevPolicy) (s : State) : (restoreBackground p s).cur = s.cur := rfl
@[simp] theorem restoreBackground_refused (p : RbPrevPolicy) (s : State) : (restoreBackground p s).refused = s.refused := rfl
@[simp] theorem restoreBackground_everRefused (p : RbPrevPolicy) (s : State) : (restoreBackground p s).everRefused = s.everRefused := rfl
@[simp] theorem restoreBackground_control (p : RbPrevPolicy) (s : State) : (restoreBackground p s).control = s.control := rfl
@[simp] theorem restoreBackground_inbox (p : RbPrevPolicy) (s : State) : (restoreBackground p s).inbox = s.inbox := rfl
@[simp] theorem restoreBackground_outbox (p : RbPrevPolicy) (s : State) : (restoreBackground p s).outbox = s.outbox := rfl

/-! ## restorePrevious: only the canvas changes -/

@[simp] theorem restorePrevious_phase (s : State) : (restorePrevious s).phase = s.phase := by
  unfold restorePrevious; split <;> rfl
@[simp] theorem restorePrevious_pos (s : State) : (restorePrevious s).pos = s.pos := by
  unfold restorePrevious; split <;> rfl
@[simp] theorem restorePrevious_buf (s : State) : (restorePrevious s).buf = s.buf := by
  unfold restorePrevious; split <;> rfl
@[simp] theorem restorePrevious_len (s : State) : (restorePrevious s).len = s.len := by
  unfold restorePrevious; split <;> rfl
@[simp] theorem restorePrevious_reader (s : State) : (restorePrevious s).reader = s.reader := by
  unfold restorePrevious; split <;> rfl
@[simp] theorem restorePrevious_scr (s : State) : (restorePrevious s).scr = s.scr := by
  unfold restorePrevious; split <;> rfl
@[simp] theorem restorePrevious_gpal (s : State) : (restorePrevious s).gpal = s.gpal := by
  unfold restorePrevious; split <;> rfl
@[simp] theorem restorePrevious_lpal (s : State) : (restorePrevious s).lpal = s.lpal := by
  unfold restorePrevious; split <;> rfl
@[simp] theorem restorePrevious_apal (s : State) : (restorePrevious s).apal = s.apal := by
  unfold restorePrevious; split <;> rfl
@[simp] theorem restorePrevious_gc (s : State) : (restorePrevious s).gc = s.gc := by
  unfold restorePrevious; split <;> rfl
@[simp] theorem restorePrevious_img (s : State) : (restorePrevious s).img = s.img := by
  unfold restorePrevious; split <;> rfl
@[simp] theorem restorePrevious_lzw (s : State) : (restorePrevious s).lzw = s.lzw := by
  unfold restorePrevious; split <;> rfl
@[simp] theorem restorePrevious_cur (s : State) : (restorePrevious s).cur = s.cur := by
  unfold restorePrevious; split <;> rfl
@[simp] theorem restorePrevious_refused (s : State) : (restorePrevious s).refused = s.refused := by
  unfold restorePrevious; split <;> rfl
@[simp] theorem restorePrevious_everRefused (s : State) : (restorePrevious s).everRefused = s.everRefused := by
  unfold restorePrevious; split <;> rfl
@[simp] theorem restorePrevious_control (s : State) : (restorePrevious s).control = s.control := by
  unfold restorePrevious; split <;> rfl
@[simp] theorem restorePrevious_inbox (s : State) : (restorePrevious s).inbox = s.inbox := by
  unfold restorePrevious; split <;> rfl
@[simp] theorem restorePrevious_outbox (s : State) : (restorePrevious s).outbox = s.outbox := by
  unfold restorePrevious; split <;> rfl

/-! ## firstAlloc: only the canvas changes -/

@[simp] theorem firstAlloc_phase (s : State) : (firstAlloc s).phase = s.phase := by
  unfold firstAlloc; split <;> rfl
@[simp] theorem firstAlloc_pos (s : State) : (firstAlloc s).pos = s.pos := by
  unfold firstAlloc; split <;> rfl
@[simp] theorem firstAlloc_buf (s : State) : (firstAlloc s).buf = s.buf := by
  unfold firstAlloc; split <;> rfl
@[simp] theorem firstAlloc_len (s : State) : (firstAlloc s).len = s.len := by
  unfold firstAlloc; split <;> rfl
@[simp] theorem firstAlloc_reader (s : State) : (firstAlloc s).reader = s.reader := by
  unfold firstAlloc; split <;> rfl
@[simp] theorem firstAlloc_scr (s : State) : (firstAlloc s).scr = s.scr := by
  unfold firstAlloc; split <;> rfl
@[simp] theorem firstAlloc_gpal (s : State) : (firstAlloc s).gpal = s.gpal := by
  unfold firstAlloc; split <;> rfl
@[simp] theorem firstAlloc_lpal (s : State) : (firstAlloc s).lpal = s.lpal := by
  unfold firstAlloc; split <;> rfl
@[simp] theorem firstAlloc_apal (s : State) : (firstAlloc s).apal = s.apal := by
  unfold firstAlloc; split <;> rfl
@[simp] theorem firstAlloc_gc (s : State) : (firstAlloc s).gc = s.gc := by
  unfold firstAlloc; split <;> rfl
@[simp] theorem firstAlloc_img (s : State) : (firstAlloc s).img = s.img := by
  unfold firstAlloc; split <;> rfl
@[simp] theorem firstAlloc_lzw (s : State) : (firstAlloc s).lzw = s.lzw := by
  unfold firstAlloc; split <;> rfl
@[simp] theorem firstAlloc_cur (s : State) : (firstAlloc s).cur = s.cur := by
  unfold firstAlloc; split <;> rfl
@[simp] theorem firstAlloc_refused (s : State) : (firstAlloc s).refused = s.refused := by
  unfold firstAlloc; split <;> rfl
@[simp] theorem firstAlloc_everRefused (s : State) : (firstAlloc s).everRefused = s.everRefused := by
  unfold firstAlloc; split <;> rfl
@[simp] theorem firstAlloc_control (s : State) : (firstAlloc s).control = s.control := by
  unfold firstAlloc; split <;> rfl
@[simp] theorem firstAlloc_inbox (s : State) : (firstAlloc s).inbox = s.inbox := by
  unfold firstAlloc; split <;> rfl
@[simp] theorem firstAlloc_outbox (s : State) : (firstAlloc s).outbox = s.outbox := by
  unfold firstAlloc; split <;> rfl

end Sys2Proof.Machine
end

