-- ==== Sys2Proof/Laws/Compositor.lean ====
section
/-! SUPPORT. What placement can do: only the cursor and the canvas elements change, the canvas keeps its
length, the cursor stays in its range, and a written element is inside the screen. -/

namespace Sys2Proof.Machine

/-- Only the cursor and the elements of `output` differ, and `output` keeps its length. -/
structure PlaceMove (s t : State) : Prop where
  frame  : t = { s with cur := t.cur, canvas := { s.canvas with output := t.canvas.output } }
  length : t.canvas.output.length = s.canvas.output.length

theorem PlaceMove.refl (s : State) : PlaceMove s s := ⟨rfl, rfl⟩

theorem PlaceMove.trans (a b c : State) (h : PlaceMove a b) (k : PlaceMove b c) : PlaceMove a c :=
  ⟨by rw [k.frame, h.frame], k.length.trans h.length⟩

/-- LOOKUP changes nothing (R273). -/
theorem lookup_state (i : Nat) (s : State) : (lookup i s).state = s := by
  unfold lookup
  split <;> rfl

theorem lookup_ok {i : Nat} {s t : State} {px : Pixel} (h : lookup i s = .ok px t) :
    t = s ∧ s.activePalette[i]? = some px := by
  unfold lookup at h
  split at h
  · rename_i p hp
    simp only [Result.ok.injEq] at h
    exact ⟨h.2.symm, by rw [hp, h.1]⟩
  · simp at h

/-- The three ways PLACE can complete (R269 to R273). -/
theorem place_ok {i : Nat} {s t : State} {u : Unit} (h : place i s = .ok u t) :
    (s.stopped = true ∧ t = s) ∨
    (s.stopped = false ∧ s.writes i = false ∧ t = advanceCursor s) ∨
    (s.stopped = false ∧ s.writes i = true ∧ ∃ px, s.activePalette[i]? = some px ∧
      t = advanceCursor (s.outWrite (s.oidx s.cur.cx s.cur.cy) px)) := by
  unfold place at h
  split at h
  · simp only [Result.ok.injEq, true_and] at h
    exact .inl ⟨‹_›, h.symm⟩
  · rename_i hs
    split at h
    · rename_i hw
      obtain ⟨px, s1, h1, h2⟩ := Result.bind_eq_ok.mp h
      obtain ⟨rfl, hp⟩ := lookup_ok h1
      simp only [Result.ok.injEq, true_and] at h2
      exact .inr (.inr ⟨by simpa using hs, hw, px, hp, h2.symm⟩)
    · rename_i hw
      simp only [Result.ok.injEq, true_and] at h
      exact .inr (.inl ⟨by simpa using hs, by simpa using hw, h.symm⟩)

theorem place_move (i : Nat) (s : State) : PlaceMove s (place i s).state := by
  unfold place
  split
  · exact PlaceMove.refl s
  · split
    · unfold lookup
      split
      · exact ⟨rfl, by simp⟩
      · exact PlaceMove.refl s
    · exact ⟨rfl, rfl⟩

theorem emitAll_move : ∀ (q : List Nat) (s : State), PlaceMove s (emitAll q s).state
  | [], s => PlaceMove.refl s
  | i :: is, s =>
    Result.bind_state PlaceMove.trans (place_move i s) fun _ t _ => emitAll_move is t

/-- PLACE and EMIT raise nothing but UNSPEC_PALETTE_INDEX (R190, R269). -/
theorem place_trap {i : Nat} {s t : State} {k : Cause} (h : place i s = .trap k t) :
    k = .fault .unspecPaletteIndex ∧ t = s := by
  unfold place at h
  split at h
  · simp at h
  · split at h
    · unfold lookup at h
      split at h
      · simp at h
      · simp only [fault, Result.bind_trap, Result.trap.injEq] at h
        exact ⟨h.1.symm, h.2.symm⟩
    · simp at h

theorem emitAll_trap {k : Cause} : ∀ {q : List Nat} {s t : State}, emitAll q s = .trap k t →
    k = .fault .unspecPaletteIndex
  | [], s, t, h => by simp [emitAll] at h
  | i :: is, s, t, h => by
    rcases Result.bind_eq_trap.mp h with h1 | ⟨_, s1, _, h2⟩
    · exact (place_trap h1).1
    · exact emitAll_trap h2

/-- The cursor stays between the rectangle's columns and never goes up (R33, R269). -/
theorem Cursor.next_range {left : Nat} {c : Cursor} (hl : left ≤ c.cx) (hh : c.cx < c.rowEnd) :
    left ≤ (c.next left).cx ∧ (c.next left).cx < c.rowEnd ∧ c.cy ≤ (c.next left).cy ∧
      (c.next left).rowEnd = c.rowEnd ∧ (c.next left).safeEnd = c.safeEnd ∧
      (c.next left).yLimit = c.yLimit := by
  unfold Cursor.next
  split
  · exact ⟨le_refl _, by simp only; omega, by simp only; omega, rfl, rfl, rfl⟩
  · exact ⟨by simp only; omega, by simp only; omega, le_refl _, rfl, rfl, rfl⟩

theorem cursorOk_advance {s t : State} (h : CursorOk s) (himg : t.img = s.img) (hscr : t.scr = s.scr)
    (hcur : t.cur = s.cur.next s.img.left.toNat) : CursorOk t := by
  obtain ⟨h1, h2, h3, h4, h5, h6⟩ := Cursor.next_range h.cx_low h.cx_high
  have hy : yLimitOf Config.vclipLimit t = yLimitOf Config.vclipLimit s := by
    unfold yLimitOf
    rw [himg, hscr]
  constructor <;> rw [hcur]
  · rw [h4, himg]; exact h.rowEnd_eq
  · rw [h5, h4, hscr]; exact h.safeEnd_eq
  · rw [h6, hy]; exact h.yLimit_eq
  · rw [himg]; exact h1
  · rw [h4]; exact h2
  · rw [himg]; exact h.cy_low.trans h3

theorem place_cursorOk {i : Nat} {s t : State} {u : Unit} (h : CursorOk s) (hp : place i s = .ok u t) :
    CursorOk t := by
  rcases place_ok hp with ⟨_, rfl⟩ | ⟨_, _, rfl⟩ | ⟨_, _, px, _, rfl⟩
  · exact h
  · exact cursorOk_advance h rfl rfl rfl
  · exact cursorOk_advance h rfl rfl rfl

theorem emitAll_cursorOk : ∀ {q : List Nat} {s t : State} {u : Unit}, CursorOk s →
    emitAll q s = .ok u t → CursorOk t
  | [], s, t, u, h, hp => by
    simp only [emitAll, Result.ok.injEq, true_and] at hp
    exact hp ▸ h
  | i :: is, s, t, u, h, hp => by
    obtain ⟨_, s1, h1, h2⟩ := Result.bind_eq_ok.mp hp
    exact emitAll_cursorOk (place_cursorOk h h1) h2

/-- OIDX of a screen pixel is an element of the canvas (R75, R278). -/
theorem oidx_lt {W H x y : Nat} (hx : x < W) (hy : y < H) : oidx W H x y < W * H := by
  unfold oidx
  have h1 : H - 1 - y + 1 ≤ H := by omega
  calc (H - 1 - y) * W + x < (H - 1 - y) * W + W := by omega
    _ = (H - 1 - y + 1) * W := by ring
    _ ≤ H * W := Nat.mul_le_mul_right _ h1
    _ = W * H := Nat.mul_comm _ _

/-- Two screen pixels share no canvas element (R75). -/
theorem oidx_inj {W H x y x' y' : Nat} (hx : x < W) (hx' : x' < W) (hy : y < H) (hy' : y' < H)
    (h : oidx W H x y = oidx W H x' y') : x = x' ∧ y = y' := by
  unfold oidx at h
  have hmod : x = x' := by
    have := congrArg (· % W) h
    simpa [Nat.mul_add_mod_self_right, Nat.mod_eq_of_lt hx, Nat.mod_eq_of_lt hx'] using this
  subst hmod
  have hm : (H - 1 - y) * W = (H - 1 - y') * W := by omega
  have := Nat.eq_of_mul_eq_mul_right (by omega) hm
  exact ⟨rfl, by omega⟩

theorem moveRow_length (W H : Nat) (old out : List Pixel) (a b : Nat) :
    (moveRow W H old out a b).length = out.length := by
  unfold moveRow
  generalize List.range W = xs
  induction xs generalizing out with
  | nil => rfl
  | cons x xs ih => rw [List.foldl_cons, ih]; simp

theorem deinterlaced_length (W H : Nat) (old : List Pixel) :
    (deinterlaced W H old).length = old.length := by
  unfold deinterlaced
  generalize (List.range H).zip (passOrder H) = rows
  suffices h : ∀ out : List Pixel,
      (rows.foldl (fun o r => moveRow W H old o r.1 r.2) out).length = out.length from h old
  induction rows with
  | nil => intro out; rfl
  | cons r rs ih => intro out; rw [List.foldl_cons, ih, moveRow_length]

end Sys2Proof.Machine
end

