-- ==== Sys2Proof/Laws/Memory.lean ====
section
/-! SUPPORT. The input buffer: its canonical form, and what reading a loaded buffer gives. -/

namespace Sys2Proof.Machine

theorem Memory.wfFrom_mono {lo lo' len len' : Nat} (h : lo' ≤ lo) (hl : len ≤ len') :
    ∀ {buf : List Host.Cell}, Memory.wfFrom lo len buf = true → Memory.wfFrom lo' len' buf = true
  | [], _ => rfl
  | c :: cs, hw => by
    simp only [Memory.wfFrom, Bool.and_eq_true, decide_eq_true_eq] at hw ⊢
    obtain ⟨⟨⟨h1, h2⟩, h3⟩, h4⟩ := hw
    exact ⟨⟨⟨by omega, by omega⟩, h3⟩, Memory.wfFrom_mono (le_refl _) hl h4⟩

theorem Memory.cellsFrom_wfFrom :
    ∀ (bytes : Bytes) (p : Nat), Memory.wfFrom p (p + bytes.length) (Memory.cellsFrom p bytes) = true
  | [], _ => rfl
  | b :: bs, p => by
    have ih := Memory.cellsFrom_wfFrom bs (p + 1)
    have hl : p + 1 + bs.length = p + (b :: bs).length := by simp; omega
    rw [hl] at ih
    unfold Memory.cellsFrom
    split
    · exact Memory.wfFrom_mono (by omega) (le_refl _) ih
    · rename_i hb
      simp only [Memory.wfFrom, Bool.and_eq_true, decide_eq_true_eq, bne_iff_ne, ne_eq]
      exact ⟨⟨⟨le_refl _, by simp⟩, hb⟩, ih⟩

/-- Loading the host's bytes gives the canonical form. -/
theorem Memory.ofBytes_wf (bytes : Bytes) : Memory.wf (Memory.ofBytes bytes) bytes.length = true := by
  simpa [Memory.wf, Memory.ofBytes] using Memory.cellsFrom_wfFrom bytes 0

theorem Memory.read_cellsFrom_below :
    ∀ (bytes : Bytes) (p q : Nat), q < p → Memory.read (Memory.cellsFrom p bytes) q = Memory.unlisted
  | [], _, _, _ => rfl
  | b :: bs, p, q, h => by
    unfold Memory.cellsFrom
    split
    · exact Memory.read_cellsFrom_below bs (p + 1) q (by omega)
    · simp only [Memory.read]
      rw [if_neg (by omega)]
      exact Memory.read_cellsFrom_below bs (p + 1) q (by omega)

theorem Memory.read_cellsFrom :
    ∀ (bytes : Bytes) (p i : Nat),
      Memory.read (Memory.cellsFrom p bytes) (p + i) = bytes.getD i Memory.unlisted
  | [], _, _ => by simp [Memory.cellsFrom, Memory.read]
  | b :: bs, p, i => by
    unfold Memory.cellsFrom
    cases i with
    | zero =>
      split
      · rename_i hb
        simpa [hb] using Memory.read_cellsFrom_below bs (p + 1) p (by omega)
      · simp [Memory.read]
    | succ i =>
      have ih := Memory.read_cellsFrom bs (p + 1) i
      rw [show p + 1 + i = p + (i + 1) by omega] at ih
      split
      · simpa using ih
      · simp only [Memory.read]
        rw [if_neg (by omega), ih]
        simp

/-- A loaded buffer reads as the host's bytes, and as 0 past them. -/
theorem Memory.read_ofBytes (bytes : Bytes) (i : Nat) :
    Memory.read (Memory.ofBytes bytes) i = bytes.getD i Memory.unlisted := by
  simpa [Memory.ofBytes] using Memory.read_cellsFrom bytes 0 i

@[simp] theorem Memory.readRun_length (buf : List Host.Cell) :
    ∀ n p : Nat, (Memory.readRun buf n p).length = n
  | 0, _ => rfl
  | n + 1, p => by simp [Memory.readRun, Memory.readRun_length buf n (p + 1)]

@[simp] theorem State.bytesFrom_length (s : State) (p : Nat) : (s.bytesFrom p).length = s.len - p :=
  Memory.readRun_length ..

theorem State.byteAt?_eq_some {s : State} {p : Nat} {b : Byte} (h : s.byteAt? p = some b) :
    p < s.len ∧ b = Memory.read s.buf p := by
  unfold State.byteAt? at h
  split at h
  · exact ⟨‹_›, by simpa using h.symm⟩
  · cases h

theorem State.byteAt?_eq_none {s : State} {p : Nat} : s.byteAt? p = none ↔ s.len ≤ p := by
  unfold State.byteAt?
  split <;> simp <;> omega

theorem State.bytesFrom_cons {s : State} {p : Nat} (h : p < s.len) :
    s.bytesFrom p = Memory.read s.buf p :: s.bytesFrom (p + 1) := by
  unfold State.bytesFrom
  obtain ⟨n, hn⟩ : ∃ n, s.len - p = n + 1 := ⟨s.len - p - 1, by omega⟩
  rw [hn, show s.len - (p + 1) = n by omega]
  rfl

theorem State.bytesFrom_nil {s : State} {p : Nat} (h : s.len ≤ p) : s.bytesFrom p = [] := by
  unfold State.bytesFrom
  rw [show s.len - p = 0 by omega]
  rfl

/-- The first byte of a run from `p`, and the run after it. -/
theorem State.bytesFrom_eq_cons {s : State} {p : Nat} {b : Byte} {rest : Bytes}
    (h : s.bytesFrom p = b :: rest) :
    p < s.len ∧ s.byteAt? p = some b ∧ s.bytesFrom (p + 1) = rest := by
  have hl : p < s.len := by
    by_contra hc
    rw [State.bytesFrom_nil (by omega)] at h
    cases h
  rw [State.bytesFrom_cons hl, List.cons.injEq] at h
  exact ⟨hl, by rw [State.byteAt?, if_pos hl, h.1], h.2⟩

/-- What follows a run of bytes from `p`. -/
theorem State.bytesFrom_eq_append {s : State} :
    ∀ {a rest : Bytes} {p : Nat}, s.bytesFrom p = a ++ rest → s.bytesFrom (p + a.length) = rest
  | [], rest, p, h => by simpa using h
  | x :: xs, rest, p, h => by
    have := State.bytesFrom_eq_append (State.bytesFrom_eq_cons h).2.2
    rwa [show p + 1 + xs.length = p + (x :: xs).length by simp; omega] at this

/-- Bytes that are read depend on the buffer alone. -/
theorem State.bytesFrom_congr {s t : State} (hb : t.buf = s.buf) (hl : t.len = s.len) (p : Nat) :
    t.bytesFrom p = s.bytesFrom p := by
  unfold State.bytesFrom
  rw [hb, hl]

theorem State.byteAt?_congr {s t : State} (hb : t.buf = s.buf) (hl : t.len = s.len) (p : Nat) :
    t.byteAt? p = s.byteAt? p := by
  unfold State.byteAt?
  rw [hb, hl]

/-- Over a loaded buffer there is a byte exactly at the offsets of the host's bytes (R22, R70). -/
theorem State.byteAt?_loaded {s : State} {bytes : Bytes} (hl : s.len = bytes.length)
    (hb : s.buf = Memory.ofBytes bytes) (p : Nat) : s.byteAt? p = bytes[p]? := by
  unfold State.byteAt?
  rw [hl, hb]
  by_cases h : p < List.length bytes
  · rw [if_pos h, Memory.read_ofBytes, List.getD_eq_getElem?_getD, List.getElem?_eq_getElem h]
    rfl
  · rw [if_neg h]
    exact (List.getElem?_eq_none (by omega)).symm

end Sys2Proof.Machine
end

