-- ==== Sys2Proof/Laws/Decode.lean ====
section
/-! SUPPORT. The decoder: fields of two bytes, palettes, and how much of the buffer a decoded token
took. -/

namespace Sys2Proof

/-- A 16-bit field read from its two bytes (R73). -/
@[simp] theorem u16le_toNat (lo hi : Byte) : (u16le lo hi).toNat = lo.toNat + 256 * hi.toNat := by
  have h1 := lo.isLt
  have h2 := hi.isLt
  unfold u16le
  rw [BitVec.toNat_ofNat, Nat.mod_eq_of_lt (by omega)]

/-- The bytes of a 16-bit field read back as the field. -/
theorem u16le_split (v : U16) :
    u16le (BitVec.ofNat 8 (v.toNat % 256)) (BitVec.ofNat 8 (v.toNat / 256)) = v := by
  have h := v.isLt
  apply BitVec.eq_of_toNat_eq
  rw [u16le_toNat, BitVec.toNat_ofNat, BitVec.toNat_ofNat]
  omega

/-- Two bytes are the bytes of the field they make. -/
theorem u16bytes_u16le (lo hi : Byte) : u16bytes (u16le lo hi) = [lo, hi] := by
  have h1 := lo.isLt
  have h2 := hi.isLt
  unfold u16bytes
  rw [u16le_toNat]
  congr 1
  · apply BitVec.eq_of_toNat_eq
    rw [BitVec.toNat_ofNat]
    omega
  · congr 1
    apply BitVec.eq_of_toNat_eq
    rw [BitVec.toNat_ofNat]
    omega

theorem takePalette_length : ∀ {n : Nat} {bs rest : Bytes} {p : List Rgb},
    takePalette n bs = some (p, rest) → p.length = n ∧ bs.length = 3 * n + rest.length
  | 0, bs, rest, p, h => by
    simp only [takePalette, Option.some.injEq, Prod.mk.injEq] at h
    obtain ⟨rfl, rfl⟩ := h
    simp
  | n + 1, bs, rest, p, h => by
    match bs, h with
    | r :: g :: b :: tail, h =>
      simp only [takePalette, Option.map_eq_some_iff, Prod.mk.injEq] at h
      obtain ⟨⟨q, u⟩, hq, rfl, rfl⟩ := h
      have := takePalette_length hq
      simp only [List.length_cons]
      omega
    | [], h => simp [takePalette] at h
    | [_], h => simp [takePalette] at h
    | [_, _], h => simp [takePalette] at h

/-- An encoded palette reads back, with what follows it (R104). -/
theorem takePalette_encode (rest : Bytes) : ∀ p : List Rgb,
    takePalette p.length (encodePalette p ++ rest) = some (p, rest)
  | [] => rfl
  | c :: cs => by
    simp [encodePalette, takePalette, takePalette_encode rest cs]

/-- The bytes a palette was read from are its encoding and the rest. -/
theorem encodePalette_take : ∀ {n : Nat} {bs rest : Bytes} {p : List Rgb},
    takePalette n bs = some (p, rest) → bs = encodePalette p ++ rest
  | 0, bs, rest, p, h => by
    simp only [takePalette, Option.some.injEq, Prod.mk.injEq] at h
    obtain ⟨rfl, rfl⟩ := h
    rfl
  | n + 1, bs, rest, p, h => by
    match bs, h with
    | r :: g :: b :: tail, h =>
      simp only [takePalette, Option.map_eq_some_iff, Prod.mk.injEq] at h
      obtain ⟨⟨q, u⟩, hq, rfl, rfl⟩ := h
      rw [encodePalette_take hq]
      rfl
    | [], h => simp [takePalette] at h
    | [_], h => simp [takePalette] at h
    | [_, _], h => simp [takePalette] at h

/-- The operands were read from at most `n` bytes of the buffer, and a palette has the length its flags
byte says. -/
def Instr.within (n : Nat) : Instr → Prop
  | .parseHeader (some h) (some p) => 13 + 3 * p.length ≤ n ∧ p.length = paletteLength h.flags
  | .parseHeader (some _) none => 13 ≤ n
  | .parseHeader none _ => True
  | .image (some d) (some p) (some _) =>
    11 + 3 * p.length ≤ n ∧ p.length = paletteLength d.flags ∧ d.isEmpty = false
  | .image (some d) (some p) none => 10 + 3 * p.length ≤ n ∧ p.length = paletteLength d.flags
  | .image (some _) none none => 10 ≤ n
  | .image (some _) none (some _) => False
  | .image none _ _ => 1 ≤ n
  | .imageEmpty d (some p) (some _) =>
    11 + 3 * p.length ≤ n ∧ p.length = paletteLength d.flags ∧ d.isEmpty = true
  | .imageEmpty d (some p) none => 10 + 3 * p.length ≤ n ∧ p.length = paletteLength d.flags
  | .imageEmpty _ none none => 10 ≤ n
  | .imageEmpty _ none (some _) => False
  | .extGce (some _) => 8 ≤ n
  | .extGce none => 2 ≤ n
  | .extSkip _ => 2 ≤ n
  | .trailer => 1 ≤ n
  | .unexpected _ => 1 ≤ n
  | _ => True

theorem decodeHeader_within (bs : Bytes) : (decodeHeader bs).within bs.length := by
  unfold decodeHeader
  split
  · rename_i f bg asp rest
    cases hp : takePalette (paletteLength f) rest with
    | none => simp [Instr.within]
    | some p =>
      have := takePalette_length (p := p.1) (rest := p.2) hp
      simp only [Option.map_some, Instr.within, List.length_cons]
      omega
  · trivial

theorem decodeImage_within (bs : Bytes) : (decodeImage bs).within (bs.length + 1) := by
  unfold decodeImage
  split
  · rename_i l0 l1 t0 t1 w0 w1 h0 h1 f rest
    simp only
    generalize hd : (⟨u16le l0 l1, u16le t0 t1, u16le w0 w1, u16le h0 h1, f⟩ : ImageDesc) = d
    have hf : d.flags = f := by rw [← hd]
    cases hp : takePalette (paletteLength f) rest with
    | none =>
      simp only [imageOf]
      split <;> simp [Instr.within]
    | some p =>
      have := takePalette_length (p := p.1) (rest := p.2) hp
      simp only [imageOf]
      cases hv : p.2 with
      | nil =>
        rw [hv, List.length_nil] at this
        split <;> (simp only [List.head?_nil, Instr.within, List.length_cons, hf]; omega)
      | cons v tail =>
        rw [hv, List.length_cons] at this
        split
        · rename_i he
          simp only [List.head?_cons, Instr.within, List.length_cons, hf]
          exact ⟨by omega, this.1, he⟩
        · rename_i he
          simp only [List.head?_cons, Instr.within, List.length_cons, hf]
          exact ⟨by omega, this.1, by simpa using he⟩
  · simp [Instr.within]

theorem decodeGce_within (bs : Bytes) : (decodeGce bs).within (bs.length + 2) := by
  unfold decodeGce
  split <;> simp [Instr.within]

/-- A decoded block token was read from the bytes at hand (R118). -/
theorem decodeBlock_within {bs : Bytes} {i : Instr} (h : decodeBlock bs = .ok i) :
    i.within bs.length := by
  cases bs with
  | nil => simp [decodeBlock] at h
  | cons t rest =>
    simp only [decodeBlock] at h
    split at h
    · simp only [Except.ok.injEq] at h
      exact h ▸ decodeImage_within rest
    · split at h
      · cases rest with
        | nil => simp at h
        | cons l body =>
          simp only at h
          split at h
          · simp only [Except.ok.injEq] at h
            exact h ▸ decodeGce_within body
          · simp only [Except.ok.injEq] at h
            rw [← h]
            simp [Instr.within]
      · split at h <;>
        · simp only [Except.ok.injEq] at h
          rw [← h]
          simp [Instr.within]

theorem decodeBlock_reject {bs : Bytes} {r : DecodeReject} (h : decodeBlock bs = .error r) :
    (r = .noIntroducer ∧ bs = []) ∨ (r = .noLabel ∧ bs = [0x21#8]) := by
  cases bs with
  | nil =>
    simp only [decodeBlock, Except.error.injEq] at h
    exact .inl ⟨h.symm, rfl⟩
  | cons t rest =>
    simp only [decodeBlock] at h
    split at h
    · simp at h
    · split at h
      · rename_i ht
        cases rest with
        | nil =>
          simp only [Except.error.injEq] at h
          exact .inr ⟨h.symm, by rw [ht]⟩
        | cons l body =>
          simp only at h
          split at h <;> simp at h
      · split at h <;> simp at h

/-- A block token is one of the seven of R105 and R106. -/
theorem decodeBlock_kind {bs : Bytes} {i : Instr} (h : decodeBlock bs = .ok i) :
    (∃ d p v, i = .image d p v) ∨ (∃ d p v, i = .imageEmpty d p v) ∨ (∃ b, i = .extGce b) ∨
      (∃ l, i = .extSkip l) ∨ i = .trailer ∨ ∃ t, i = .unexpected t := by
  cases bs with
  | nil => simp [decodeBlock] at h
  | cons t rest =>
    simp only [decodeBlock] at h
    split at h
    · simp only [Except.ok.injEq] at h
      subst h
      unfold decodeImage
      split
      · simp only
        split <;> (unfold imageOf; split <;> simp)
      · simp
    · split at h
      · cases rest with
        | nil => simp at h
        | cons l body =>
          simp only at h
          split at h
          · simp only [Except.ok.injEq] at h
            subst h
            unfold decodeGce
            split <;> simp
          · simp only [Except.ok.injEq] at h
            subst h
            simp
      · split at h <;>
        · simp only [Except.ok.injEq] at h
          subst h
          simp

theorem decodeHeader_kind (bs : Bytes) : ∃ h p, decodeHeader bs = .parseHeader h p := by
  unfold decodeHeader
  split <;> exact ⟨_, _, rfl⟩

/-- The class of a code, with the condition that puts it there (R115). -/
theorem decodeCode_cases (k : CodeContext) (c : Nat) :
    (decodeCode k c = .clear ∧ c = clearCodeOf k.m) ∨
    (decodeCode k c = .endCode ∧ c = endCodeOf k.m) ∨
    (decodeCode k c = .dict c ∧ k.isData c = true ∧ c < k.size) ∨
    (decodeCode k c = .skip c ∧ k.isData c = true ∧ k.size ≤ c ∧ k.prevCode = none) ∨
    (decodeCode k c = .kwkwk c ∧ k.isData c = true ∧ c = k.size ∧ k.prevCode.isSome = true) ∨
    (decodeCode k c = .unspecCode c ∧ k.isData c = true ∧ k.size < c ∧ k.prevCode.isSome = true) := by
  unfold decodeCode
  by_cases h1 : c = clearCodeOf k.m
  · simp [h1]
  by_cases h2 : c = endCodeOf k.m
  · right; left
    rw [if_neg h1, if_pos h2]
    exact ⟨rfl, h2⟩
  have hd : k.isData c = true := by simp [CodeContext.isData, h1, h2]
  rw [if_neg h1, if_neg h2, hd]
  by_cases h3 : c < k.size
  · simp [h3]
  rw [if_neg h3]
  cases hp : k.prevCode with
  | none =>
    right; right; right; left
    exact ⟨rfl, rfl, by omega, rfl⟩
  | some p =>
    by_cases h4 : c = k.size
    · right; right; right; right; left
      exact ⟨if_pos h4, rfl, h4, rfl⟩
    · right; right; right; right; right
      exact ⟨if_neg h4, rfl, by omega, rfl⟩

/-- The command decoder rejects only a number outside 0..6 (decision D39). -/
theorem decodeCommand_reject {n : Nat} {bytes : Bytes} {r : DecodeReject}
    (h : decodeCommand n bytes = .error r) : r = .unknownCommand n ∧ 7 ≤ n := by
  match n with
  | 0 | 1 | 2 | 3 | 4 | 5 | 6 => nomatch h
  | n + 7 => exact ⟨(Except.error.inj h).symm, by omega⟩

/-- A host command number is one of seven, or has no meaning (decision D39). -/
theorem decodeCommand_cases (n : Nat) (bytes : Bytes) :
    (n = 0 ∧ decodeCommand n bytes = .ok (.construct bytes)) ∨
    (n = 1 ∧ decodeCommand n bytes = .ok .nextFrame) ∨
    (n = 2 ∧ decodeCommand n bytes = .ok .getVersion) ∨
    (n = 3 ∧ decodeCommand n bytes = .ok .getWidth) ∨
    (n = 4 ∧ decodeCommand n bytes = .ok .getHeight) ∨
    (n = 5 ∧ decodeCommand n bytes = .ok .getBackgroundColor) ∨
    (n = 6 ∧ decodeCommand n bytes = .ok .release) ∨
    (7 ≤ n ∧ decodeCommand n bytes = .error (.unknownCommand n)) := by
  match n with
  | 0 | 1 | 2 | 3 | 4 | 5 | 6 => simp [decodeCommand]
  | n + 7 => simp [decodeCommand]

end Sys2Proof
end

