-- ==== Sys2Proof/Laws/Dictionary.lean ====
section
/-! SUPPORT. The dictionary: its canonical form, and read after write. -/

namespace Sys2Proof.Machine

theorem Dict.wfFrom_mono {lo lo' : Nat} (h : lo' ≤ lo) :
    ∀ {d : List (Nat × List Nat)}, Dict.wfFrom lo d = true → Dict.wfFrom lo' d = true
  | [], _ => rfl
  | e :: es, hw => by
    simp only [Dict.wfFrom, Bool.and_eq_true, decide_eq_true_eq] at hw ⊢
    exact ⟨⟨by omega, hw.1.2⟩, hw.2⟩

theorem Dict.cons_wfFrom {lo c : Nat} {q : List Nat} {es : List (Nat × List Nat)} (hc : lo ≤ c)
    (h : Dict.wfFrom (c + 1) es = true) : Dict.wfFrom lo (Dict.cons c q es) = true := by
  unfold Dict.cons
  split
  · exact Dict.wfFrom_mono (by omega) h
  · rename_i hq
    simp [Dict.wfFrom, hc, hq, h]

theorem Dict.write_wfFrom {c : Nat} {q : List Nat} :
    ∀ {d : List (Nat × List Nat)} {lo : Nat}, lo ≤ c → Dict.wfFrom lo d = true →
      Dict.wfFrom lo (Dict.write d c q) = true
  | [], lo, hc, _ => by simpa [Dict.write] using Dict.cons_wfFrom hc rfl
  | e :: es, lo, hc, hw => by
    simp only [Dict.wfFrom, Bool.and_eq_true, decide_eq_true_eq] at hw
    obtain ⟨⟨h1, h2⟩, h3⟩ := hw
    unfold Dict.write
    split
    · rename_i hlt
      simp only [Dict.wfFrom, Bool.and_eq_true, decide_eq_true_eq]
      exact ⟨⟨h1, h2⟩, Dict.write_wfFrom (by omega) h3⟩
    · split
      · rename_i heq
        exact Dict.cons_wfFrom hc (heq ▸ h3)
      · refine Dict.cons_wfFrom hc ?_
        simp only [Dict.wfFrom, Bool.and_eq_true, decide_eq_true_eq]
        exact ⟨⟨by omega, h2⟩, h3⟩

/-- A write keeps the canonical form. -/
theorem Dict.write_wf {d : List (Nat × List Nat)} (c : Nat) (q : List Nat) (h : Dict.wf d = true) :
    Dict.wf (Dict.write d c q) = true :=
  Dict.write_wfFrom (Nat.zero_le c) h

theorem Dict.read_below {d : List (Nat × List Nat)} {lo c : Nat} (h : Dict.wfFrom lo d = true)
    (hc : c < lo) : Dict.read d c = [] := by
  induction d generalizing lo with
  | nil => rfl
  | cons e es ih =>
    simp only [Dict.wfFrom, Bool.and_eq_true, decide_eq_true_eq] at h
    simp only [Dict.read]
    rw [if_neg (by omega)]
    exact ih h.2 (by omega)

theorem Dict.read_cons {c x : Nat} {q : List Nat} {es : List (Nat × List Nat)}
    (h : Dict.wfFrom (c + 1) es = true) :
    Dict.read (Dict.cons c q es) x = if x = c then q else Dict.read es x := by
  unfold Dict.cons
  split
  · rename_i hq
    split
    · rename_i hx
      subst hx
      rw [hq, Dict.read_below h (by omega)]
    · rfl
  · simp only [Dict.read, eq_comm]

/-- Read after write. -/
theorem Dict.read_write {c x : Nat} {q : List Nat} :
    ∀ {d : List (Nat × List Nat)} {lo : Nat}, Dict.wfFrom lo d = true →
      Dict.read (Dict.write d c q) x = if x = c then q else Dict.read d x
  | [], lo, _ => by
    simpa [Dict.write, Dict.read] using
      Dict.read_cons (c := c) (x := x) (q := q) (es := []) (by rfl)
  | e :: es, lo, hw => by
    simp only [Dict.wfFrom, Bool.and_eq_true, decide_eq_true_eq] at hw
    obtain ⟨⟨h1, h2⟩, h3⟩ := hw
    unfold Dict.write
    split
    · rename_i hlt
      simp only [Dict.read]
      rw [Dict.read_write h3]
      by_cases he : e.1 = x
      · rw [if_pos he, if_pos he, if_neg (by omega)]
      · rw [if_neg he, if_neg he]
    · split
      · rename_i heq
        rw [Dict.read_cons (heq ▸ h3)]
        simp only [Dict.read]
        by_cases hx : x = c
        · rw [if_pos hx, if_pos hx]
        · rw [if_neg hx, if_neg hx, if_neg (by omega)]
      · refine Dict.read_cons ?_
        simp only [Dict.wfFrom, Bool.and_eq_true, decide_eq_true_eq]
        exact ⟨⟨by omega, h2⟩, h3⟩

theorem Dict.read_append (a b : List (Nat × List Nat)) (c : Nat) :
    Dict.read (a ++ b) c = if ∃ e ∈ a, e.1 = c then Dict.read a c else Dict.read b c := by
  induction a with
  | nil => simp
  | cons e es ih =>
    have hx : (∃ x ∈ e :: es, x.1 = c) ↔ e.1 = c ∨ ∃ x ∈ es, x.1 = c := by
      simp [List.mem_cons, or_and_right, exists_or]
    simp only [List.cons_append, Dict.read, ih, hx]
    by_cases he : e.1 = c
    · rw [if_pos he, if_pos (Or.inl he), if_pos he]
    · rw [if_neg he, if_neg he]
      by_cases hs : ∃ x ∈ es, x.1 = c
      · rw [if_pos hs, if_pos (Or.inr hs)]
      · rw [if_neg hs, if_neg (by simp only [he, false_or]; exact hs)]

theorem Dict.read_literals (l : List Nat) (c : Nat) :
    Dict.read (l.map fun i => (i, [i])) c = if c ∈ l then [c] else [] := by
  induction l with
  | nil => rfl
  | cons i is ih =>
    simp only [List.map_cons, Dict.read, ih, List.mem_cons]
    by_cases h : i = c
    · simp [h]
    · simp [h, Ne.symm h]

theorem Dict.read_filter (d : List (Nat × List Nat)) (n c : Nat) :
    Dict.read (d.filter fun e => n ≤ e.1) c = if n ≤ c then Dict.read d c else [] := by
  induction d with
  | nil => simp [Dict.read]
  | cons e es ih =>
    simp only [List.filter_cons, Dict.read]
    by_cases he : n ≤ e.1
    · simp only [he, decide_true, if_true, Dict.read, ih]
      by_cases hc : e.1 = c
      · simp [hc, hc ▸ he]
      · simp [hc]
    · simp only [he, decide_false, Bool.false_eq_true, if_false, ih]
      by_cases hc : e.1 = c
      · rw [if_pos hc, if_neg (by omega), if_neg (by omega)]
      · rw [if_neg hc]

/-- The literal entries read as single symbols, every other entry as before (R180). -/
theorem Dict.read_writeLiterals (n c : Nat) (d : List (Nat × List Nat)) :
    Dict.read (Dict.writeLiterals n d) c = if c < n then [c] else Dict.read d c := by
  unfold Dict.writeLiterals
  rw [Dict.read_append, Dict.read_literals, Dict.read_filter]
  by_cases h : c < n
  · simp [h]
  · simp [h]

theorem Dict.filter_wfFrom {n : Nat} :
    ∀ {d : List (Nat × List Nat)} {lo : Nat}, Dict.wfFrom lo d = true →
      Dict.wfFrom (max lo n) (d.filter fun e => n ≤ e.1) = true
  | [], _, _ => rfl
  | e :: es, lo, hw => by
    simp only [Dict.wfFrom, Bool.and_eq_true, decide_eq_true_eq] at hw
    obtain ⟨⟨h1, h2⟩, h3⟩ := hw
    have ih := Dict.filter_wfFrom (n := n) h3
    simp only [List.filter_cons]
    by_cases he : n ≤ e.1
    · simp only [he, decide_true, if_true, Dict.wfFrom, Bool.and_eq_true, decide_eq_true_eq]
      exact ⟨⟨by omega, h2⟩, by rwa [show max (e.1 + 1) n = e.1 + 1 by omega] at ih⟩
    · simp only [he, decide_false, Bool.false_eq_true, if_false]
      exact Dict.wfFrom_mono (by omega) ih

theorem Dict.literals_wfFrom {n : Nat} {es : List (Nat × List Nat)} (h : Dict.wfFrom n es = true) :
    ∀ k lo : Nat, lo + k = n →
      Dict.wfFrom lo ((List.range' lo k).map (fun i => (i, [i])) ++ es) = true
  | 0, lo, hk => by simpa [show lo = n by omega] using h
  | k + 1, lo, hk => by
    simp only [List.range'_succ, List.map_cons, List.cons_append, Dict.wfFrom, Bool.and_eq_true,
      decide_eq_true_eq]
    exact ⟨⟨le_refl _, rfl⟩, Dict.literals_wfFrom h k (lo + 1) (by omega)⟩

/-- Writing the literal entries keeps the canonical form. -/
theorem Dict.writeLiterals_wf {d : List (Nat × List Nat)} (n : Nat) (h : Dict.wf d = true) :
    Dict.wf (Dict.writeLiterals n d) = true := by
  unfold Dict.wf Dict.writeLiterals
  rw [List.range_eq_range']
  exact Dict.literals_wfFrom (by simpa using Dict.filter_wfFrom (n := n) h) n 0 (by omega)

end Sys2Proof.Machine
end

