-- ==== Sys2Proof/Laws/Engine.lean ====
section
/-! SUPPORT. The LZW engine: the registers each code class writes, and that the engine invariants
(R191, R194) hold after LZW_INIT and are kept by every code class. -/

namespace Sys2Proof.Machine

/-! ## Fields -/

@[simp] theorem Engine.clear_m (e : Engine) : e.clear.m = e.m := rfl
@[simp] theorem Engine.clear_clearCode (e : Engine) : e.clear.clearCode = e.clearCode := rfl
@[simp] theorem Engine.clear_endCode (e : Engine) : e.clear.endCode = e.endCode := rfl
@[simp] theorem Engine.clear_width (e : Engine) : e.clear.width = e.m + 1 := rfl
@[simp] theorem Engine.clear_size (e : Engine) : e.clear.size = 2 ^ e.m + 2 := rfl
@[simp] theorem Engine.clear_prevCode (e : Engine) : e.clear.prevCode = none := rfl
@[simp] theorem Engine.clear_dict (e : Engine) : e.clear.dict = e.dict := rfl
@[simp] theorem Engine.clear_entry (e : Engine) (c : Nat) : e.clear.entry c = e.entry c := rfl

@[simp] theorem Engine.addEntry_m (e : Engine) (q : List Nat) : (e.addEntry q).m = e.m := rfl
@[simp] theorem Engine.addEntry_clearCode (e : Engine) (q : List Nat) :
    (e.addEntry q).clearCode = e.clearCode := rfl
@[simp] theorem Engine.addEntry_endCode (e : Engine) (q : List Nat) :
    (e.addEntry q).endCode = e.endCode := rfl
@[simp] theorem Engine.addEntry_width (e : Engine) (q : List Nat) :
    (e.addEntry q).width = e.width := rfl
@[simp] theorem Engine.addEntry_size (e : Engine) (q : List Nat) :
    (e.addEntry q).size = e.size + 1 := rfl
@[simp] theorem Engine.addEntry_prevCode (e : Engine) (q : List Nat) :
    (e.addEntry q).prevCode = e.prevCode := rfl

theorem Engine.addEntry_entry {e : Engine} (q : List Nat) (c : Nat) (h : Dict.wf e.dict = true) :
    (e.addEntry q).entry c = if c = e.size then q else e.entry c :=
  Dict.read_write h

@[simp] theorem Engine.grow_m (e : Engine) : e.grow.m = e.m := by
  unfold Engine.grow; split <;> rfl
@[simp] theorem Engine.grow_clearCode (e : Engine) : e.grow.clearCode = e.clearCode := by
  unfold Engine.grow; split <;> rfl
@[simp] theorem Engine.grow_endCode (e : Engine) : e.grow.endCode = e.endCode := by
  unfold Engine.grow; split <;> rfl
@[simp] theorem Engine.grow_size (e : Engine) : e.grow.size = e.size := by
  unfold Engine.grow; split <;> rfl
@[simp] theorem Engine.grow_prevCode (e : Engine) : e.grow.prevCode = e.prevCode := by
  unfold Engine.grow; split <;> rfl
@[simp] theorem Engine.grow_dict (e : Engine) : e.grow.dict = e.dict := by
  unfold Engine.grow; split <;> rfl
@[simp] theorem Engine.grow_entry (e : Engine) (c : Nat) : e.grow.entry c = e.entry c := by
  simp [Engine.entry]

/-! ## Invariants -/

/-- The invariants hold after LZW_INIT (R180, R191). -/
theorem engineInit_ok {m : Nat} (h2 : 2 ≤ m) (h11 : m ≤ 11) (d : List (Nat × List Nat)) :
    EngineOk (engineInit m d) := by
  have h4 : 4 ≤ 2 ^ m := by
    calc 4 = 2 ^ 2 := rfl
      _ ≤ 2 ^ m := Nat.pow_le_pow_right (by decide) h2
  have h2048 : 2 ^ m ≤ 2048 := by
    calc 2 ^ m ≤ 2 ^ 11 := Nat.pow_le_pow_right (by decide) h11
      _ = 2048 := rfl
  have hp : 2 ^ (m + 1) = 2 * 2 ^ m := by rw [pow_succ]; ring
  have hr : ∀ c, c < 2 ^ m → (engineInit m d).entry c = [c] := fun c hc => by
    have := Dict.read_writeLiterals (2 ^ m) c d
    rw [if_pos hc] at this
    exact this
  have hdef : ∀ c, c < 2 ^ m + 2 → c ≠ 2 ^ m → c ≠ 2 ^ m + 1 → c < 2 ^ m := by omega
  exact
    { m_low := h2
      m_high := h11
      clear_eq := rfl
      end_eq := rfl
      size_low := le_refl _
      size_high := by simp only [engineInit, initialSize]; omega
      width_low := le_refl _
      width_high := by simp only [engineInit]; omega
      size_fits := by simp only [engineInit, initialSize]; omega
      grown := by simp only [engineInit, initialSize]; omega
      prev_ok := by simp [engineInit]
      literals := hr
      nonempty := fun c hc h1 h2 => by rw [hr c (hdef c hc h1 h2)]; simp
      symbols := fun c hc h1 h2 i hi => by
        have hlt := hdef c hc h1 h2
        rw [hr c hlt, List.mem_singleton] at hi
        subst hi
        exact hlt
      lengths := fun c h1 h2 => by simp only [engineInit, initialSize] at h1 h2; omega }

theorem engineInit_wf {m : Nat} {d : List (Nat × List Nat)} (h : Dict.wf d = true) :
    Dict.wf (engineInit m d).dict = true := Dict.writeLiterals_wf _ h

/-- CLEAR keeps the invariants (R182, R191). -/
theorem Engine.clear_ok {e : Engine} (h : EngineOk e) : EngineOk e.clear := by
  have h4 : 4 ≤ 2 ^ e.m := by
    calc 4 = 2 ^ 2 := rfl
      _ ≤ 2 ^ e.m := Nat.pow_le_pow_right (by decide) h.m_low
  have hp : 2 ^ (e.m + 1) = 2 * 2 ^ e.m := by rw [pow_succ]; ring
  have hs := h.size_low
  have h11 := h.m_high
  exact
    { m_low := h.m_low
      m_high := h.m_high
      clear_eq := h.clear_eq
      end_eq := h.end_eq
      size_low := le_refl _
      size_high := le_trans hs h.size_high
      width_low := le_refl _
      width_high := by simp only [Engine.clear_width]; omega
      size_fits := by simp only [Engine.clear_size, Engine.clear_width]; omega
      grown := by simp only [Engine.clear_size, Engine.clear_width]; omega
      prev_ok := by simp
      literals := h.literals
      nonempty := fun c hc => h.nonempty c (lt_of_lt_of_le hc hs)
      symbols := fun c hc => h.symbols c (lt_of_lt_of_le hc hs)
      lengths := fun c h1 h2 => h.lengths c h1 (lt_of_lt_of_le h2 hs) }

/-- An engine all of whose invariants hold but the one that GROW restores (R189). -/
structure EngineDue (e : Engine) : Prop where
  m_low      : 2 ≤ e.m
  m_high     : e.m ≤ 11
  clear_eq   : e.clearCode = 2 ^ e.m
  end_eq     : e.endCode = 2 ^ e.m + 1
  size_low   : 2 ^ e.m + 2 ≤ e.size
  size_high  : e.size ≤ 4096
  width_low  : e.m + 1 ≤ e.width
  width_high : e.width ≤ 12
  size_fits  : e.size ≤ 2 ^ e.width
  prev_ok    : ∀ p, e.prevCode = some p → p < e.size ∧ p ≠ e.clearCode ∧ p ≠ e.endCode
  literals   : ∀ i, i < 2 ^ e.m → e.entry i = [i]
  nonempty   : ∀ c, c < e.size → c ≠ e.clearCode → c ≠ e.endCode → e.entry c ≠ []
  symbols    : ∀ c, c < e.size → c ≠ e.clearCode → c ≠ e.endCode → ∀ i ∈ e.entry c, i < 2 ^ e.m
  lengths    : ∀ c, 2 ^ e.m + 2 ≤ c → c < e.size → (e.entry c).length ≤ c - 2 ^ e.m

theorem EngineOk.due {e : Engine} (h : EngineOk e) : EngineDue e :=
  ⟨h.m_low, h.m_high, h.clear_eq, h.end_eq, h.size_low, h.size_high, h.width_low, h.width_high,
    h.size_fits, h.prev_ok, h.literals, h.nonempty, h.symbols, h.lengths⟩

/-- GROW restores the invariants (R189, R191). -/
theorem Engine.grow_ok {e : Engine} (h : EngineDue e) : EngineOk e.grow := by
  by_cases hg : e.size = 2 ^ e.width ∧ e.width < Config.maxCodeWidth
  · have hw : e.grow = { e with width := e.width + 1 } := by unfold Engine.grow; rw [if_pos hg]
    have hp : 2 ^ (e.width + 1) = 2 * 2 ^ e.width := by rw [pow_succ]; ring
    have hpos : 0 < 2 ^ e.width := by positivity
    have hlow := h.width_low
    rw [hw]
    exact
      { m_low := h.m_low
        m_high := h.m_high
        clear_eq := h.clear_eq
        end_eq := h.end_eq
        size_low := h.size_low
        size_high := h.size_high
        width_low := by simp only; omega
        width_high := hg.2
        size_fits := by simp only; omega
        grown := by simp only; omega
        prev_ok := h.prev_ok
        literals := h.literals
        nonempty := h.nonempty
        symbols := h.symbols
        lengths := h.lengths }
  · have hw : e.grow = e := by unfold Engine.grow; rw [if_neg hg]
    rw [hw]
    exact
      { m_low := h.m_low
        m_high := h.m_high
        clear_eq := h.clear_eq
        end_eq := h.end_eq
        size_low := h.size_low
        size_high := h.size_high
        width_low := h.width_low
        width_high := h.width_high
        size_fits := h.size_fits
        grown := fun he => by
          have hnot : ¬ e.width < 12 := fun hlt => hg ⟨he, hlt⟩
          have := h.width_high
          omega
        prev_ok := h.prev_ok
        literals := h.literals
        nonempty := h.nonempty
        symbols := h.symbols
        lengths := h.lengths }

/-- An added entry keeps the invariants, whatever its width test says (R188, R194). -/
theorem Engine.addEntry_due {e : Engine} {q : List Nat} {p : Nat} (h : EngineOk e)
    (hd : Dict.wf e.dict = true) (hsize : e.size < 4096) (hp : e.prevCode = some p) {k : Nat}
    (hk : k < 2 ^ e.m) (hq : q = e.entry p ++ [k]) : EngineDue (e.addEntry q) := by
  obtain ⟨hp1, hp2, hp3⟩ := h.prev_ok p hp
  have hsl := h.size_low
  have hentry : ∀ c, (e.addEntry q).entry c = if c = e.size then q else e.entry c :=
    fun c => Engine.addEntry_entry q c hd
  have hqne : q ≠ [] := by rw [hq]; simp
  have hfits : e.size + 1 ≤ 2 ^ e.width := by
    have hf := h.size_fits
    have hg := h.grown
    by_contra hcon
    have hw : e.width = 12 := hg (by omega)
    rw [hw] at hf hcon
    omega
  exact
    { m_low := h.m_low
      m_high := h.m_high
      clear_eq := h.clear_eq
      end_eq := h.end_eq
      size_low := by simp only [Engine.addEntry_size, Engine.addEntry_m]; omega
      size_high := by simp only [Engine.addEntry_size]; omega
      width_low := h.width_low
      width_high := h.width_high
      size_fits := hfits
      prev_ok := fun p' hp' => by
        have := h.prev_ok p' hp'
        simp only [Engine.addEntry_size, Engine.addEntry_clearCode, Engine.addEntry_endCode]
        omega
      literals := fun i hi => by
        simp only [Engine.addEntry_m] at hi
        rw [hentry, if_neg (by omega)]
        exact h.literals i hi
      nonempty := fun c hc h1 h2 => by
        simp only [Engine.addEntry_size] at hc
        rw [hentry]
        split
        · exact hqne
        · exact h.nonempty c (by omega) h1 h2
      symbols := fun c hc h1 h2 i hi => by
        simp only [Engine.addEntry_size] at hc
        rw [hentry] at hi
        split at hi
        · rw [hq, List.mem_append, List.mem_singleton] at hi
          rcases hi with hi | rfl
          · exact h.symbols p hp1 hp2 hp3 i hi
          · exact hk
        · exact h.symbols c (by omega) h1 h2 i hi
      lengths := fun c h1 h2 => by
        simp only [Engine.addEntry_size, Engine.addEntry_m] at h1 h2 ⊢
        rw [hentry]
        split
        · rename_i hc
          rw [hq, List.length_append, List.length_singleton]
          have hpe : (e.entry p).length ≤ e.size - 2 ^ e.m - 1 := by
            by_cases hpl : p < 2 ^ e.m
            · rw [h.literals p hpl, List.length_singleton]; omega
            · have hce := h.clear_eq
              have hee := h.end_eq
              have := h.lengths p (by omega) hp1
              omega
          omega
        · exact h.lengths c h1 (by omega) }

theorem EngineDue.setPrev {e : Engine} (h : EngineDue e) {c : Nat} (hc : c < e.size)
    (h1 : c ≠ e.clearCode) (h2 : c ≠ e.endCode) : EngineDue { e with prevCode := some c } :=
  { m_low := h.m_low
    m_high := h.m_high
    clear_eq := h.clear_eq
    end_eq := h.end_eq
    size_low := h.size_low
    size_high := h.size_high
    width_low := h.width_low
    width_high := h.width_high
    size_fits := h.size_fits
    prev_ok := fun p hp => by
      simp only [Option.some.injEq] at hp
      subst hp
      exact ⟨hc, h1, h2⟩
    literals := h.literals
    nonempty := h.nonempty
    symbols := h.symbols
    lengths := h.lengths }

/-- The first symbol of a defined entry is a literal (R191 (d)). -/
theorem firstSymbol_lt {e : Engine} (h : EngineOk e) {c : Nat} (hc : c < e.size)
    (h1 : c ≠ e.clearCode) (h2 : c ≠ e.endCode) : firstSymbol (e.entry c) < 2 ^ e.m := by
  have hne := h.nonempty c hc h1 h2
  have hsym := h.symbols c hc h1 h2
  cases hq : e.entry c with
  | nil => exact absurd hq hne
  | cons a l => exact hsym a (by rw [hq]; simp)

/-- DICT keeps the invariants (R184, R191). -/
theorem Engine.dictCode_ok {e : Engine} (h : EngineOk e) (hd : Dict.wf e.dict = true) {c : Nat}
    (hc : c < e.size) (h1 : c ≠ e.clearCode) (h2 : c ≠ e.endCode) : EngineOk (e.dictCode c) := by
  have hk := firstSymbol_lt h hc h1 h2
  unfold Engine.dictCode
  apply Engine.grow_ok
  cases hp : e.prevCode with
  | none => exact h.due.setPrev hc h1 h2
  | some p =>
    simp only
    split
    · rename_i hs
      exact (Engine.addEntry_due h hd hs hp hk rfl).setPrev (Nat.lt_succ_of_lt hc) h1 h2
    · exact h.due.setPrev hc h1 h2

/-- KWKWK keeps the invariants (R185, R191). -/
theorem Engine.kwkwkCode_ok {e : Engine} (h : EngineOk e) (hd : Dict.wf e.dict = true) {p c : Nat}
    (hp : e.prevCode = some p) (hc : c = e.size) (hs : e.size < 4096) (h1 : c ≠ e.clearCode)
    (h2 : c ≠ e.endCode) : EngineOk (e.kwkwkCode p c) := by
  obtain ⟨hp1, hp2, hp3⟩ := h.prev_ok p hp
  have hk := firstSymbol_lt h hp1 hp2 hp3
  unfold Engine.kwkwkCode
  apply Engine.grow_ok
  rw [if_pos hs]
  exact (Engine.addEntry_due h hd hs hp hk rfl).setPrev (by simp; omega) h1 h2

theorem Engine.dictCode_wf {e : Engine} (hd : Dict.wf e.dict = true) (c : Nat) :
    Dict.wf (e.dictCode c).dict = true := by
  unfold Engine.dictCode
  rw [Engine.grow_dict]
  cases e.prevCode with
  | none => exact hd
  | some p =>
    simp only
    split
    · exact Dict.write_wf _ _ hd
    · exact hd

theorem Engine.kwkwkCode_wf {e : Engine} (hd : Dict.wf e.dict = true) (p c : Nat) :
    Dict.wf (e.kwkwkCode p c).dict = true := by
  unfold Engine.kwkwkCode
  rw [Engine.grow_dict]
  split
  · exact Dict.write_wf _ _ hd
  · exact hd

end Sys2Proof.Machine
end

