-- ==== Sys2Proof/Laws/Reader.lean ====
section
/-! SUPPORT. What the reader operations can do: only `pos` and the reader registers change, `pos` never
goes back, and a completed read leaves the reader registers in range. -/

namespace Sys2Proof.Machine

/-- Only `pos` and the reader registers differ, and `pos` did not go back. -/
structure ReaderMove (s t : State) : Prop where
  frame  : t = { s with pos := t.pos, reader := t.reader }
  pos_le : s.pos ≤ t.pos

theorem ReaderMove.refl (s : State) : ReaderMove s s := ⟨rfl, le_refl _⟩

theorem ReaderMove.trans (a b c : State) (h : ReaderMove a b) (k : ReaderMove b c) : ReaderMove a c :=
  ⟨by rw [k.frame, h.frame], h.pos_le.trans k.pos_le⟩

theorem ReaderMove.mk' (s : State) (p : Nat) (r : Reader) (h : s.pos ≤ p) :
    ReaderMove s { s with pos := p, reader := r } := ⟨rfl, h⟩

theorem ReaderMove.len {s t : State} (h : ReaderMove s t) : t.len = s.len := by rw [h.frame]

theorem ReaderMove.buf {s t : State} (h : ReaderMove s t) : t.buf = s.buf := by rw [h.frame]

/-- What ReaderOk says without its bound on `nacc`, which holds between codes only. -/
structure ReaderFits (s : State) : Prop where
  sbRem_le : s.reader.sbRem ≤ 255
  acc_lt   : s.reader.acc < 2 ^ s.reader.nacc
  block_in : s.pos + s.reader.sbRem ≤ s.len

theorem ReaderOk.fits {s : State} (h : ReaderOk s) : ReaderFits s := ⟨h.sbRem_le, h.acc_lt, h.block_in⟩

theorem enterSubBlock_move (s : State) : ReaderMove s (enterSubBlock s).state := by
  unfold enterSubBlock
  split
  · exact ReaderMove.refl s
  · simp only
    split
    · exact ReaderMove.mk' s _ _ (by simp)
    · split
      · exact ReaderMove.mk' s _ _ (by simp)
      · exact ReaderMove.mk' s _ _ (by simp)

theorem takeByte_move (s : State) : ReaderMove s (takeByte s).state := by
  unfold takeByte
  split
  · exact ReaderMove.refl s
  · exact ReaderMove.mk' s _ _ (by simp)

theorem fetchByte_move (s : State) : ReaderMove s (fetchByte s).state := by
  unfold fetchByte
  split
  · exact Result.bind_state ReaderMove.trans (enterSubBlock_move s) fun _ t _ => takeByte_move t
  · exact takeByte_move s

theorem fillBits_move (n : Nat) : ∀ rounds s, ReaderMove s (fillBits rounds n s).state
  | 0, s => ReaderMove.refl s
  | r + 1, s => by
    unfold fillBits
    split
    · exact Result.bind_state ReaderMove.trans (fetchByte_move s) fun _ t _ => fillBits_move n r t
    · exact ReaderMove.refl s

theorem readCode_move (n : Nat) (s : State) : ReaderMove s (readCode n s).state :=
  Result.bind_state ReaderMove.trans (fillBits_move n n s) fun _ t _ =>
    ReaderMove.mk' t _ _ (le_refl _)

theorem skipChainFrom_move : ∀ n s, ReaderMove s (skipChainFrom n s).state
  | 0, s => ReaderMove.refl s
  | n + 1, s => by
    unfold skipChainFrom
    split
    · exact ReaderMove.refl s
    · simp only
      split
      · exact ReaderMove.mk' s _ _ (by simp)
      · split
        · exact ReaderMove.mk' s _ _ (by simp)
        · exact ReaderMove.trans _ _ _ (ReaderMove.mk' s _ _ (by simp; omega))
            (skipChainFrom_move n _)

theorem skipChain_move (s : State) : ReaderMove s (skipChain s).state := skipChainFrom_move _ s

/-! ## Where they can stop, and what they take -/

/-- An entered sub-block is not empty, lies in the buffer, and cost its length byte (R151). -/
theorem enterSubBlock_ok {s t : State} {u : Unit} (h : enterSubBlock s = .ok u t) :
    ∃ l : Byte, s.byteAt? s.pos = some l ∧ l ≠ 0#8 ∧ s.pos + 1 + l.toNat ≤ s.len ∧
      t = { s with pos := s.pos + 1, reader := { s.reader with sbRem := l.toNat } } := by
  unfold enterSubBlock at h
  split at h
  · simp at h
  · rename_i l hl
    simp only at h
    split at h
    · simp at h
    · split at h
      · simp at h
      · rename_i h0 h1
        simp only [Result.ok.injEq, true_and, State.advance_pos, State.advance_len] at h h1
        exact ⟨l, hl, h0, by omega, h.symm⟩

/-- A data byte goes above the bits already held (R151). -/
theorem takeByte_ok {s t : State} {u : Unit} (h : takeByte s = .ok u t) :
    ∃ b : Byte, s.byteAt? s.pos = some b ∧
      t = { s with
        pos := s.pos + 1
        reader := ⟨s.reader.sbRem - 1, s.reader.acc + b.toNat * 2 ^ s.reader.nacc, s.reader.nacc + 8⟩ } := by
  unfold takeByte at h
  split at h
  · simp at h
  · rename_i b hb
    simp only [Result.ok.injEq, true_and] at h
    exact ⟨b, hb, h.symm⟩

theorem takeByte_fits {s t : State} {u : Unit} (hs : ReaderFits s) (_hr : s.reader.sbRem ≠ 0)
    (h : takeByte s = .ok u t) :
    ReaderFits t ∧ t.reader.nacc = s.reader.nacc + 8 ∧ t.pos = s.pos + 1 ∧ t.bitsLeft = s.bitsLeft := by
  obtain ⟨b, hb, rfl⟩ := takeByte_ok h
  have hlt := (State.byteAt?_eq_some hb).1
  have hbv : b.toNat < 256 := b.isLt
  refine ⟨⟨?_, ?_, ?_⟩, rfl, rfl, ?_⟩
  · have := hs.sbRem_le
    simp only
    omega
  · have := hs.acc_lt
    simp only
    have e : 2 ^ (s.reader.nacc + 8) = 256 * 2 ^ s.reader.nacc := by rw [pow_add]; ring
    rw [e]
    nlinarith [Nat.zero_le (2 ^ s.reader.nacc)]
  · have := hs.block_in
    simp only
    omega
  · simp only [State.bitsLeft]
    omega

/-- FETCH_BYTE adds 8 bits and takes at least 8 bits of the buffer for them (R151, R391). -/
theorem fetchByte_fits {s t : State} {u : Unit} (hs : ReaderFits s) (h : fetchByte s = .ok u t) :
    ReaderFits t ∧ t.reader.nacc = s.reader.nacc + 8 ∧ s.pos < t.pos ∧ t.bitsLeft ≤ s.bitsLeft := by
  unfold fetchByte at h
  split at h
  · obtain ⟨_, s1, h1, h2⟩ := Result.bind_eq_ok.mp h
    obtain ⟨l, hl, h0, hin, rfl⟩ := enterSubBlock_ok h1
    have hpos : l.toNat ≠ 0 := fun hz => h0 (BitVec.eq_of_toNat_eq (by simpa using hz))
    have hlb : l.toNat ≤ 255 := by have := l.isLt; omega
    obtain ⟨f, hn, hp, hb⟩ := takeByte_fits (s := { s with pos := s.pos + 1, reader := { s.reader with sbRem := l.toNat } })
      ⟨hlb, hs.acc_lt, hin⟩ hpos h2
    refine ⟨f, hn, ?_, ?_⟩
    · simp only at hp; omega
    · rw [hb]; simp only [State.bitsLeft]; omega
  · rename_i hr
    obtain ⟨f, hn, hp, hb⟩ := takeByte_fits hs hr h
    exact ⟨f, hn, by omega, by omega⟩

/-- Where FETCH_BYTE stops, `pos` is still inside the buffer (R21, R151). -/
theorem fetchByte_pos_le {s : State} (hs : ReaderFits s) : (fetchByte s).state.pos ≤ s.len := by
  have hin := hs.block_in
  cases hf : fetchByte s with
  | ok u t =>
    have f := (fetchByte_fits hs hf).1
    have hl := (hf ▸ fetchByte_move s : ReaderMove s (Result.ok u t).state).len
    have := f.block_in
    simp only [Result.state_ok] at hl ⊢
    omega
  | trap k t =>
    unfold fetchByte at hf
    have take_trap : ∀ {s' : State}, takeByte s' = .trap k t → t.pos ≤ s'.len ∨ t = s' := by
      intro s' h
      unfold takeByte at h
      split at h
      · simp only [raise, Result.trap.injEq] at h
        exact .inr h.2.symm
      · simp at h
    split at hf
    · rcases Result.bind_eq_trap.mp hf with h1 | ⟨_, s1, h1, h2⟩
      · unfold enterSubBlock at h1
        split at h1
        · simp only [raise, Result.trap.injEq] at h1
          rw [Result.state_trap, ← h1.2]; omega
        · rename_i l hl
          have := (State.byteAt?_eq_some hl).1
          simp only at h1
          split at h1
          · simp only [raise, Result.trap.injEq] at h1
            rw [Result.state_trap, ← h1.2, State.advance_pos]; omega
          · split at h1
            · simp only [raise, Result.trap.injEq] at h1
              rw [Result.state_trap, ← h1.2, State.advance_pos]; omega
            · simp at h1
      · obtain ⟨l, hl, h0, hin', rfl⟩ := enterSubBlock_ok h1
        rcases take_trap h2 with h | rfl
        · exact h
        · simp only [Result.state_trap]; omega
    · rcases take_trap hf with h | rfl
      · exact h
      · simp only [Result.state_trap]; omega

theorem fillBits_fits {n : Nat} : ∀ {rounds : Nat} {s t : State} {u : Unit}, ReaderFits s →
    n ≤ s.reader.nacc + 8 * rounds → fillBits rounds n s = .ok u t →
    ReaderFits t ∧ n ≤ t.reader.nacc ∧ (t.reader.nacc = s.reader.nacc ∨ t.reader.nacc < n + 8) ∧
      t.bitsLeft ≤ s.bitsLeft
  | 0, s, t, u, hs, hn, h => by
    simp only [fillBits, Result.ok.injEq, true_and] at h
    subst h
    exact ⟨hs, by omega, .inl rfl, le_refl _⟩
  | r + 1, s, t, u, hs, hn, h => by
    unfold fillBits at h
    split at h
    · obtain ⟨_, s1, h1, h2⟩ := Result.bind_eq_ok.mp h
      obtain ⟨f1, hn1, _, hb1⟩ := fetchByte_fits hs h1
      obtain ⟨f2, hn2, hd2, hb2⟩ := fillBits_fits f1 (by omega) h2
      exact ⟨f2, hn2, by omega, by omega⟩
    · simp only [Result.ok.injEq, true_and] at h
      subst h
      exact ⟨hs, by omega, .inl rfl, le_refl _⟩

theorem fillBits_pos_le {n : Nat} : ∀ {rounds : Nat} {s : State}, ReaderFits s →
    (fillBits rounds n s).state.pos ≤ s.len
  | 0, s, hs => by
    have := hs.block_in
    simp only [fillBits, Result.state_ok]
    omega
  | r + 1, s, hs => by
    have hin := hs.block_in
    unfold fillBits
    split
    · cases hf : fetchByte s with
      | ok u t =>
        have f := (fetchByte_fits hs hf).1
        have hl := (hf ▸ fetchByte_move s : ReaderMove s (Result.ok u t).state).len
        have := fillBits_pos_le (n := n) (rounds := r) f
        simp only [Result.state_ok] at hl
        simp only [Result.bind_ok]
        omega
      | trap k t =>
        have := fetchByte_pos_le hs
        rw [hf] at this
        exact this
    · simp only [Result.state_ok]; omega

/-- READ_CODE of a width the engine can have: the code fits, the reader stays in range, and `n` bits are
consumed (R23, R152, R391 (c)). -/
theorem readCode_ok {n c : Nat} {s t : State} (hs : ReaderOk s) (hn : n ≤ 12)
    (h : readCode n s = .ok c t) :
    c < 2 ^ n ∧ ReaderOk t ∧ t.bitsLeft + n ≤ s.bitsLeft := by
  obtain ⟨_, s1, h1, h2⟩ := Result.bind_eq_ok.mp h
  obtain ⟨f, hge, hd, hb⟩ := fillBits_fits hs.fits (by omega) h1
  simp only [takeBits, Result.ok.injEq] at h2
  obtain ⟨rfl, rfl⟩ := h2
  have hnacc := hs.nacc_le
  refine ⟨Nat.mod_lt _ (by positivity), ⟨f.sbRem_le, ?_, ?_, f.block_in⟩, ?_⟩
  · simp only
    rw [Nat.div_lt_iff_lt_mul (by positivity), ← pow_add, Nat.sub_add_cancel hge]
    exact f.acc_lt
  · simp only; omega
  · simp only [State.bitsLeft] at hb ⊢; omega

theorem readCode_pos_le {n : Nat} {s : State} (hs : ReaderOk s) : (readCode n s).state.pos ≤ s.len := by
  have := fillBits_pos_le (n := n) (rounds := n) hs.fits
  unfold readCode
  cases hf : fillBits n n s with
  | ok u t => rw [hf] at this; exact this
  | trap k t => rw [hf] at this; exact this

/-- SKIP_CHAIN stays inside the buffer, and a completed one took at least its terminator (R155). -/
theorem skipChainFrom_pos : ∀ {n : Nat} {s : State}, s.pos ≤ s.len →
    (skipChainFrom n s).state.pos ≤ s.len ∧
      ∀ u t, skipChainFrom n s = .ok u t → s.pos < t.pos
  | 0, s, h => ⟨h, by simp [skipChainFrom]⟩
  | n + 1, s, h => by
    unfold skipChainFrom
    split
    · exact ⟨h, by simp⟩
    · rename_i l hl
      have := (State.byteAt?_eq_some hl).1
      simp only
      split
      · exact ⟨by simpa using this, by rintro u t ht; cases ht; simp⟩
      · split
        · exact ⟨by simpa using this, by simp⟩
        · rename_i hin
          have ih := skipChainFrom_pos (n := n) (s := (s.advance 1).advance l.toNat)
            (by simp at hin ⊢; omega)
          simp only [State.advance_len, State.advance_pos] at ih
          exact ⟨ih.1, fun u t ht => by have := ih.2 u t ht; omega⟩

theorem skipChain_pos {s : State} (h : s.pos ≤ s.len) :
    (skipChain s).state.pos ≤ s.len ∧ ∀ u t, skipChain s = .ok u t → s.pos < t.pos :=
  skipChainFrom_pos h

/-! ## Over a chain that is there -/

theorem encodeChain_eq (blocks : List Bytes) : encodeChain blocks = encodeBlocks blocks ++ [0x00#8] := by
  induction blocks with
  | nil => rfl
  | cons b bs ih => simp [encodeChain, encodeBlocks, ih]

theorem BlocksOk.cons {b : Bytes} {bs : List Bytes} (h : BlocksOk (b :: bs)) :
    (1 ≤ b.length ∧ b.length ≤ 255) ∧ BlocksOk bs :=
  ⟨h b (by simp), fun x hx => h x (by simp [hx])⟩

/-- A block's length byte is its length (R113). -/
theorem lengthByte_toNat {b : Bytes} (h : b.length ≤ 255) : (BitVec.ofNat 8 b.length).toNat = b.length := by
  rw [BitVec.toNat_ofNat, Nat.mod_eq_of_lt (by omega)]

theorem lengthByte_ne_zero {b : Bytes} (h : 1 ≤ b.length ∧ b.length ≤ 255) : BitVec.ofNat 8 b.length ≠ 0#8 := by
  intro hz
  have := lengthByte_toNat h.2
  rw [hz] at this
  simp at this
  omega

/-- SKIP_CHAIN passes whole sub-blocks (R155). -/
theorem skipChainFrom_blocks {rest : Bytes} : ∀ {blocks : List Bytes} {n : Nat} {s : State},
    BlocksOk blocks → s.bytesFrom s.pos = encodeBlocks blocks ++ rest → s.len - s.pos ≤ n →
    ∃ m, skipChainFrom n s = skipChainFrom m (s.advance (encodeBlocks blocks).length) ∧
      s.len - (s.pos + (encodeBlocks blocks).length) ≤ m
  | [], n, s, _, _, hn => ⟨n, rfl, by simpa [encodeBlocks] using hn⟩
  | b :: bs, 0, s, _, h, hn => by
    have := (State.bytesFrom_eq_cons h).1
    omega
  | b :: bs, n + 1, s, hok, h, hn => by
    obtain ⟨hlt, hb, hr⟩ := State.bytesFrom_eq_cons h
    obtain ⟨h1, h2⟩ := hok.cons
    have htail : s.bytesFrom (s.pos + 1) = b ++ (encodeBlocks bs ++ rest) := by
      rw [hr]; exact List.append_assoc ..
    have hnext := State.bytesFrom_eq_append htail
    have hlen : b.length + (encodeBlocks bs ++ rest).length = s.len - (s.pos + 1) := by
      rw [← State.bytesFrom_length s (s.pos + 1), htail]
      simp only [List.length_append]
    obtain ⟨m, hm, hle⟩ := skipChainFrom_blocks (n := n) (s := (s.advance 1).advance b.length) h2 hnext
      (by simp only [State.advance_len, State.advance_pos]; omega)
    refine ⟨m, ?_, ?_⟩
    · rw [skipChainFrom, hb]
      simp only
      rw [if_neg (lengthByte_ne_zero h1), lengthByte_toNat h1.2, if_neg, hm]
      · congr 1
        simp only [State.advance, encodeBlocks, List.length_cons, List.length_append]
        congr 1
        omega
      · simp only [State.advance_len, State.advance_pos]
        omega
    · simp only [State.advance_len, State.advance_pos] at hle
      simp only [encodeBlocks, List.length_cons, List.length_append]
      omega

/-- SKIP_CHAIN over a chain moves `pos` past its terminator, and changes nothing else (R155). -/
theorem skipChain_encodeChain {s : State} {blocks : List Bytes} {tail : Bytes} (hok : BlocksOk blocks)
    (h : s.bytesFrom s.pos = encodeChain blocks ++ tail) :
    skipChain s = .ok () (s.advance (encodeChain blocks).length) := by
  rw [encodeChain_eq, List.append_assoc] at h
  obtain ⟨m, hm, hle⟩ := skipChainFrom_blocks hok h (le_refl _)
  have hz := State.bytesFrom_eq_append h
  obtain ⟨hlt, hb, _⟩ := State.bytesFrom_eq_cons hz
  unfold skipChain
  rw [hm]
  obtain ⟨k, rfl⟩ : ∃ k, m = k + 1 := ⟨m - 1, by omega⟩
  have hb' : (s.advance (encodeBlocks blocks).length).byteAt?
      (s.advance (encodeBlocks blocks).length).pos = some 0x00#8 := hb
  rw [skipChainFrom, hb']
  simp only [if_true]
  rw [encodeChain_eq, List.length_append, List.length_singleton]
  simp [State.advance, Nat.add_assoc]

/-! ## Which errors they raise -/

/-- SKIP_CHAIN raises Truncated or Malformed (R155). -/
theorem skipChainFrom_trap {s t : State} {k : Cause} : ∀ {n}, skipChainFrom n s = .trap k t → k = .error .truncated ∨ k = .error .malformed := by
  intro n
  induction n generalizing s with
  | zero => intro h; simp [skipChainFrom, raise] at h; exact .inl h.1.symm
  | succ n ih =>
    intro h
    unfold skipChainFrom at h
    split at h
    · simp [raise] at h; exact .inl h.1.symm
    · simp only at h
      split at h
      · simp at h
      · split at h
        · simp [raise] at h; exact .inr h.1.symm
        · exact ih h

/-- FETCH_BYTE raises Truncated or Malformed (R151). -/
theorem fillBits_trap {s t : State} {k : Cause} {n m : Nat} : fillBits m n s = .trap k t → k = .error .truncated ∨ k = .error .malformed := by
  induction m generalizing s with
  | zero => intro h; simp [fillBits] at h
  | succ m ih =>
    intro h
    unfold fillBits at h
    split at h
    · rcases Result.bind_eq_trap.mp h with h1 | ⟨_, _, _, h1⟩
      · unfold fetchByte at h1
        have tk : ∀ s', takeByte s' = .trap k t → k = .error .truncated := by
          intro s' h
          unfold takeByte at h
          split at h
          · simp [raise] at h; exact h.1.symm
          · simp at h
        split at h1
        · rcases Result.bind_eq_trap.mp h1 with h2 | ⟨_, _, _, h2⟩
          · unfold enterSubBlock at h2
            split at h2
            · simp [raise] at h2; exact .inl h2.1.symm
            · simp only at h2
              split at h2
              · simp [raise] at h2; exact .inl h2.1.symm
              · split at h2
                · simp [raise] at h2; exact .inr h2.1.symm
                · simp at h2
          · exact .inl (tk _ h2)
        · exact .inl (tk _ h1)
      · exact ih h1
    · simp at h

/-- READ_CODE raises Truncated or Malformed (R152). -/
theorem readCode_trap {s t : State} {k : Cause} {n : Nat} (h : readCode n s = .trap k t) : k = .error .truncated ∨ k = .error .malformed := by
  rcases Result.bind_eq_trap.mp h with h1 | ⟨_, _, _, h1⟩
  · exact fillBits_trap h1
  · simp [takeBits] at h1

end Sys2Proof.Machine
end

