-- ==== Sys2Proof/Laws/Frame.lean ====
section
/-! SUPPORT. Frames: what each instruction can change where it answers a next state, be it completion or
trap entry. -/

namespace Sys2Proof.Machine

/-- A step that an operation amounts to leaves its state, or takes an error in it. -/
theorem Result.finish_state {r : Result Unit} {t : State} (h : r.finish = .next t) :
    t = r.state ∨ ∃ k, t = takeError k r.state := by
  rcases Result.finish_eq_next.mp h with hr | ⟨k, s, hr, rfl⟩
  · rw [hr]; exact .inl rfl
  · rw [hr]; exact .inr ⟨k, rfl⟩

/-- What IMAGE can change (R222, R230). An allocated canvas stays. -/
def ImageFrame (s t : State) : Prop := t = { s with
      phase := t.phase, pos := t.pos, img := t.img, lpal := t.lpal, apal := t.apal, lzw := t.lzw
      canvas := t.canvas, control := t.control, outbox := t.outbox } ∧
    (s.canvas.written = true → t.canvas = s.canvas)

/-- What the operands of an image, or an empty image, can change (R222, R229). -/
def TokenFrame (s t : State) : Prop := t = { s with
      phase := t.phase, pos := t.pos, img := t.img, lpal := t.lpal, control := t.control, outbox := t.outbox }

theorem TokenFrame.image {s t} (h : TokenFrame s t) : ImageFrame s t := by
  constructor
  · rw [h]
  · intro _; rw [h]

theorem TokenFrame.trans {a b c} (h : TokenFrame a b) (k : TokenFrame b c) : TokenFrame a c := by
  unfold TokenFrame at *; rw [k, h]
theorem ImageFrame.trans {a b c} (h : TokenFrame a b) (k : ImageFrame b c) : ImageFrame a c := by
  unfold TokenFrame at h; obtain ⟨k1, k2⟩ := k
  constructor
  · rw [k1, h]
  · intro hw; rw [k2 (by rw [h]; exact hw), h]

theorem beginImage_frame (d p v) (s : State) : TokenFrame s (beginImage d p v s).state := by
  unfold beginImage
  cases d with
  | none => rfl
  | some d =>
    simp only [readLocalPalette]
    split
    · cases p with
      | none => rfl
      | some p =>
        cases v with
        | none => rfl
        | some b => rfl
    · cases v with
      | none => rfl
      | some b => rfl

theorem ReaderMove.token {s t : State} (h : ReaderMove s t) (hr : t.reader = s.reader) : TokenFrame s t := by
  unfold TokenFrame; rw [h.frame, hr]

theorem skipChain_reader (s : State) : (skipChain s).state.reader = s.reader := by
  unfold skipChain
  generalize s.len - s.pos = n
  induction n generalizing s with
  | zero => rfl
  | succ n ih =>
    unfold skipChainFrom
    split
    · rfl
    · simp only
      split
      · rfl
      · split
        · rfl
        · rw [ih]; rfl

theorem skipChain_token (s : State) : TokenFrame s (skipChain s).state :=
  ReaderMove.token (skipChain_move s) (skipChain_reader s)

theorem beginFrame_frame (v) (s : State) : ImageFrame s (beginFrame v s).state := by
  unfold beginFrame lzwInit
  simp only
  split
  · exact ⟨rfl, fun _ => rfl⟩
  · simp only [Result.bind_ok, interlaceCheck]
    split
    · exact ⟨rfl, fun _ => rfl⟩
    · simp only [Result.bind_ok, Result.state_ok, firstAlloc]
      split
      · exact ⟨rfl, fun _ => rfl⟩
      · rename_i hw
        exact ⟨rfl, fun h => absurd h hw⟩

theorem imageBody_frame (v) (s : State) : ImageFrame s (imageBody v s).state := by
  unfold imageBody
  split
  · exact (skipChain_token s).image
  · obtain ⟨a, b⟩ := beginFrame_frame v (selectPalette s)
    constructor
    · rw [a]; rfl
    · exact b

theorem Result.bind_state_cases {α β} (r : Result α) (f : α → State → Result β) :
    (r.bind f).state = r.state ∨ ∃ a t, r = .ok a t ∧ (r.bind f).state = (f a t).state := by
  cases r with
  | ok a t => exact .inr ⟨a, t, rfl, rfl⟩
  | trap k t => exact .inl rfl

theorem takeError_frame {s t : State} {k} (h : TokenFrame s t) : TokenFrame s (takeError k t) := by
  unfold TokenFrame at *; rw [h]; rfl
theorem takeError_image {s t : State} {k} (h : ImageFrame s t) : ImageFrame s (takeError k t) := by
  obtain ⟨a, b⟩ := h
  exact ⟨by rw [a]; rfl, b⟩

/-- IMAGE (R222). -/
theorem image_frame {d p v} {s t : State} (h : execImage d p v s = .next t) : ImageFrame s t := by
  have hb := beginImage_frame d p v s
  have : ImageFrame s ((beginImage d p v s).bind imageBody).state := by
    rcases Result.bind_state_cases (beginImage d p v s) imageBody with h | ⟨a, u, h1, h2⟩
    · rw [h]; exact hb.image
    · rw [h2]; rw [h1] at hb
      exact ImageFrame.trans hb (imageBody_frame a u)
  rcases Result.finish_state h with rfl | ⟨k, rfl⟩
  · exact this
  · exact takeError_image this

/-- IMAGE_EMPTY (R229). -/
theorem imageEmpty_frame {d p v} {s t : State} (h : execImageEmpty d p v s = .next t) : TokenFrame s t := by
  have hb := beginImage_frame (some d) p v s
  have : TokenFrame s ((beginImage (some d) p v s).bind fun _ s' => skipImage s').state := by
    rcases Result.bind_state_cases (beginImage (some d) p v s) (fun _ s' => skipImage s') with
      h | ⟨a, u, h1, h2⟩
    · rw [h]; exact hb
    · rw [h2]; rw [h1] at hb
      exact TokenFrame.trans hb (skipChain_token u)
  rcases Result.finish_state h with rfl | ⟨k, rfl⟩
  · exact this
  · exact takeError_frame this

/-- EXT_GCE (R223). -/
theorem extGce_frame {b} {s t : State} (h : execExtGce b s = .next t) : t = { s with
      phase := t.phase, pos := t.pos, gc := t.gc, control := t.control, outbox := t.outbox } := by
  unfold execExtGce extGce at h
  cases b with
  | none =>
    simp only [finish_raise, Host.Outcome.next.injEq] at h
    subst h; rfl
  | some b =>
    simp only at h
    split at h
    · simp only [Result.finish_ok, Host.Outcome.next.injEq] at h; subst h; rfl
    · simp at h

/-- EXT_SKIP (R224). -/
theorem extSkip_frame {l} {s t : State} (h : execExtSkip l s = .next t) : t = { s with
      phase := t.phase, pos := t.pos, control := t.control, outbox := t.outbox } := by
  have hm := skipChain_move (s.advance 2)
  have hr := skipChain_reader (s.advance 2)
  have : (skipChain (s.advance 2)).state = { s with pos := (skipChain (s.advance 2)).state.pos } := by
    rw [hm.frame, hr]; rfl
  rcases Result.finish_state h with rfl | ⟨k, rfl⟩
  · rw [this]
  · rw [this]; rfl

/-- An emission with its engine update (R184, R185): only the canvas elements, the cursor and the engine
differ. -/
theorem emit_frame {q : List Nat} {f : State → Engine} {s t : State}
    (h : ((emitAll q s).bind fun _ s' => .ok () { s' with lzw := f s' }).finish = .next t) :
    ∃ u, u.lzw = s.lzw ∧ t.lzw = f u ∧ t = { s with
      lzw := t.lzw, cur := t.cur, canvas := { s.canvas with output := t.canvas.output } } := by
  have hmv := emitAll_move q s
  cases he : emitAll q s with
  | ok u s2 =>
    rw [he] at h hmv
    simp only [Result.bind_ok, Result.finish_ok, Host.Outcome.next.injEq, Result.state_ok] at h hmv
    subst h
    refine ⟨s2, by rw [hmv.frame], rfl, ?_⟩
    rw [hmv.frame]
  | trap k s2 =>
    rw [he] at h
    rw [emitAll_trap he] at h
    simp [Result.finish] at h

theorem dictCode_kept (e : Engine) (c : Nat) : (e.dictCode c).m = e.m ∧
    (e.dictCode c).clearCode = e.clearCode ∧ (e.dictCode c).endCode = e.endCode := by
  simp only [Engine.dictCode, Engine.grow_m, Engine.grow_clearCode, Engine.grow_endCode]
  cases e.prevCode with
  | none => exact ⟨rfl, rfl, rfl⟩
  | some p => simp only; split <;> exact ⟨rfl, rfl, rfl⟩

theorem kwkwkCode_kept (e : Engine) (p c : Nat) : (e.kwkwkCode p c).m = e.m ∧
    (e.kwkwkCode p c).clearCode = e.clearCode ∧ (e.kwkwkCode p c).endCode = e.endCode := by
  simp only [Engine.kwkwkCode, Engine.grow_m, Engine.grow_clearCode, Engine.grow_endCode]
  split <;> exact ⟨rfl, rfl, rfl⟩

/-- DICT and KWKWK (R184, R185). -/
theorem code_frame {i : Instr} {s t : State} (ht : exec i s = .next t)
    (hi : (∃ c, i = .dict c) ∨ (∃ c, i = .kwkwk c)) : t = { s with
      lzw := t.lzw, cur := t.cur, canvas := { s.canvas with output := t.canvas.output } } ∧
      t.lzw.m = s.lzw.m ∧ t.lzw.clearCode = s.lzw.clearCode ∧ t.lzw.endCode = s.lzw.endCode := by
  rcases hi with ⟨c, rfl⟩ | ⟨c, rfl⟩
  · obtain ⟨u, h1, h2, h3⟩ := emit_frame (f := fun s' => s'.lzw.dictCode c) ht
    refine ⟨h3, ?_⟩
    rw [h2, ← h1]; exact dictCode_kept _ _
  · simp only [exec, execKwkwk] at ht
    split at ht
    · simp only [Host.Outcome.next.injEq] at ht
      subst ht
      exact ⟨rfl, rfl, rfl, rfl⟩
    · rename_i p _
      obtain ⟨u, h1, h2, h3⟩ := emit_frame (f := fun s' => s'.lzw.kwkwkCode p c) ht
      refine ⟨h3, ?_⟩
      rw [h2, ← h1]; exact kwkwkCode_kept _ _ _

/-- END (R183). -/
theorem endCode_frame {s t : State} (ht : execEndCode s = .next t) : t = { s with
      phase := t.phase, pos := t.pos, reader := t.reader, control := t.control, outbox := t.outbox } := by
  unfold execEndCode skipResidual at ht
  have hm := skipChain_move { s with pos := s.pos + s.reader.sbRem, reader := ⟨0, 0, 0⟩ }
  cases hr : skipChain { s with pos := s.pos + s.reader.sbRem, reader := ⟨0, 0, 0⟩ } with
  | ok u s2 =>
    rw [hr] at ht hm
    simp only [Result.bind_ok, Result.finish_ok, Host.Outcome.next.injEq, Result.state_ok] at ht hm
    subst ht
    rw [hm.frame]; rfl
  | trap k s2 =>
    rw [hr] at ht hm
    simp only [Result.state_trap] at hm
    rcases Result.finish_state ht with h | ⟨k, h⟩
    · simp only [Result.bind_trap, Result.state_trap] at h; rw [h, hm.frame]
    · simp only [Result.bind_trap, Result.state_trap] at h; rw [h, hm.frame]; rfl

/-- PARSE_HEADER (R220). -/
theorem header_frame {h p} {s t : State} (ht : execParseHeader h p s = .next t) : t = { s with
    scr := t.scr, gpal := t.gpal, pos := t.pos, phase := t.phase, control := t.control, outbox := t.outbox } := by
  have : (parseHeader h p s).state = { s with
      scr := (parseHeader h p s).state.scr
      gpal := (parseHeader h p s).state.gpal
      pos := (parseHeader h p s).state.pos
      phase := (parseHeader h p s).state.phase
      control := (parseHeader h p s).state.control } := by
    unfold parseHeader
    cases h with
    | none => rfl
    | some x =>
      simp only
      cases hv : x.version with
      | none => rfl
      | some v =>
        simp only [readGlobalPalette]
        split
        · cases p <;> rfl
        · rfl
  rcases Result.finish_state ht with rfl | ⟨k, rfl⟩
  · rw [this]
  · rw [this]; rfl

theorem restorePrevious_frame (s : State) :
    restorePrevious s = { s with canvas := (restorePrevious s).canvas } := by
  unfold restorePrevious; split <;> rfl

/-- NEXT_FRAME and the attribute reads (R311 to R315). -/
theorem host_frame {i : Instr} {s t : State} (ht : exec i s = .next t)
    (hi : i = .nextFrame ∨ i = .getVersion ∨ i = .getWidth ∨ i = .getHeight ∨ i = .getBackgroundColor) :
    t = { s with
      refused := t.refused, everRefused := t.everRefused, control := t.control, outbox := t.outbox } := by
  rcases hi with rfl | rfl | rfl | rfl | rfl <;>
    simp only [exec, execNextFrame, execGetVersion, execGetWidth, execGetHeight,
      execGetBackgroundColor, attributeRead] at ht <;>
    (repeat' split at ht) <;>
    first | (simp only [Host.Outcome.next.injEq] at ht; subst ht; rfl) | simp at ht

/-- CONSTRUCT where it is refused changes the marks and the replies; where it is admitted it keeps the
queue, the replies and the run's mark (R310, R349). -/
theorem construct_frame {bytes : Bytes} {s t : State} (ht : execConstruct bytes s = .next t) :
    (s.phase.refusesConstruct = true ∧ t = refuse s) ∨
    (s.phase.refusesConstruct = false ∧ t = construct bytes s) := by
  unfold execConstruct at ht
  cases hr : s.phase.refusesConstruct <;> rw [hr] at ht
  · exact .inr ⟨rfl, (Host.Outcome.next.inj ht).symm⟩
  · exact .inl ⟨rfl, (Host.Outcome.next.inj ht).symm⟩

/-- RELEASE (R316). -/
theorem release_frame {s t : State} (ht : execRelease s = .next t) :
    t = { s with
      refused := t.refused, everRefused := t.everRefused, phase := t.phase, reader := t.reader
      lzw := t.lzw, canvas := t.canvas, outbox := t.outbox } := by
  unfold execRelease at ht
  split at ht <;> (simp only [Host.Outcome.next.injEq] at ht; subst ht; rfl)

end Sys2Proof.Machine
end

