-- ==== Sys2Proof/Laws/Invariant.lean ====
section
/-! SUPPORT. What each operation leaves of the invariant of Sys2Proof/Safety.lean: the parts that hold
even where a trap stops the operation, and the whole where it completes. -/

namespace Sys2Proof.Machine

/-! ## The part that survives a trap -/

/-- The part of the invariant that does not depend on the place inside a command. -/
structure Kept (s : State) : Prop where
  buffer        : BufferOk s
  gpal_alpha    : ∀ p ∈ s.gpal, p.a = 255#8
  lpal_alpha    : ∀ p ∈ s.lpal, p.a = 255#8
  output_length : s.canvas.written = true → s.canvas.output.length = s.canvasSize
  snap_length   : s.canvas.written = true → ∀ b, s.canvas.prev = .snap b → b.length = s.canvasSize
  dict          : Dict.wf s.lzw.dict = true
  frames        : FramesOk s

theorem Inv.kept {s : State} (h : Inv s) : Kept s :=
  ⟨h.buffer, h.palettes.gpal_alpha, h.palettes.lpal_alpha, h.canvas.output_length,
    h.canvas.snap_length, h.dict, h.frames⟩

/-- A reply that is no frame, or a frame of the right size, keeps FramesOk. -/
theorem framesOk_append {s : State} {r : Reply} (h : FramesOk s)
    (hr : ∀ f, r = .frame f → f.pixels.length = f.width.toNat * f.height.toNat) :
    ∀ f, Reply.frame f ∈ s.outbox ++ [r] → f.pixels.length = f.width.toNat * f.height.toNat := by
  intro f hf
  rw [List.mem_append, List.mem_singleton] at hf
  rcases hf with hf | hf
  · exact h f hf
  · exact hr f hf.symm

/-- Trap entry leaves a state of the invariant (R347). -/
theorem inv_takeError {s : State} (k : ErrorKind) (h : Kept s) : Inv (takeError k s) where
  buffer := ⟨h.buffer.canonical, h.buffer.pos_le⟩
  phase := ⟨by simp, by simp [Control.inBlocks], by simp⟩
  palettes := ⟨by simp, h.gpal_alpha, h.lpal_alpha⟩
  canvas := ⟨by simp, h.output_length, h.snap_length⟩
  dict := h.dict
  frame := by simp [Control.inFrame]
  engine := by simp [Control.inFrame]
  reader := by simp
  cursor := by simp
  frames := framesOk_append h.frames (by simp)

theorem kept_readerMove {s t : State} (h : Kept s) (hm : ReaderMove s t) (hp : t.pos ≤ s.len) : Kept t := by
  rw [hm.frame]
  exact ⟨⟨h.buffer.canonical, hp⟩, h.gpal_alpha, h.lpal_alpha, h.output_length, h.snap_length, h.dict,
    h.frames⟩

/-- The step of an operation keeps the invariant when a completed one does and every trap leaves the
part that survives. -/
theorem inv_finish {r : Result Unit} {t : State} (hok : ∀ u t', r = .ok u t' → Inv t')
    (htrap : ∀ k t', r = .trap (.error k) t' → Kept t') (h : r.finish = .next t) : Inv t := by
  rcases Result.finish_eq_next.mp h with hr | ⟨k, s, hr, rfl⟩
  · exact hok () t hr
  · exact inv_takeError k (htrap k s hr)

/-! ## Host commands -/

/-- The invariant speaks of no waiting command and not of the mark. -/
theorem inv_inbox {s : State} (ws : List HostWord) (h : Inv s) : Inv { s with inbox := ws } where
  buffer := ⟨h.buffer.canonical, h.buffer.pos_le⟩
  phase := ⟨h.phase.header_fresh, h.phase.blocks_ready, h.phase.fresh_pos⟩
  palettes := ⟨h.palettes.gpal_length, h.palettes.gpal_alpha, h.palettes.lpal_alpha⟩
  canvas := ⟨h.canvas.fresh_unwritten, h.canvas.output_length, h.canvas.snap_length⟩
  dict := h.dict
  frame := fun hc =>
    let f := h.frame hc
    ⟨f.width_pos, f.height_pos, f.allocated, f.palette, f.lpal_length, f.interlace⟩
  engine := h.engine
  reader := fun hc => let r := h.reader hc; ⟨r.sbRem_le, r.acc_lt, r.nacc_le, r.block_in⟩
  cursor := fun hc =>
    let c := h.cursor hc
    ⟨c.rowEnd_eq, c.safeEnd_eq, c.yLimit_eq, c.cx_low, c.cx_high, c.cy_low⟩
  frames := h.frames

theorem inv_reply {s : State} {r : Reply} (h : Inv s)
    (hr : ∀ f, r = .frame f → f.pixels.length = f.width.toNat * f.height.toNat) :
    Inv (s.reply r) where
  buffer := ⟨h.buffer.canonical, h.buffer.pos_le⟩
  phase := ⟨h.phase.header_fresh, h.phase.blocks_ready, h.phase.fresh_pos⟩
  palettes := ⟨h.palettes.gpal_length, h.palettes.gpal_alpha, h.palettes.lpal_alpha⟩
  canvas := ⟨h.canvas.fresh_unwritten, h.canvas.output_length, h.canvas.snap_length⟩
  dict := h.dict
  frame := fun hc =>
    let f := h.frame hc
    ⟨f.width_pos, f.height_pos, f.allocated, f.palette, f.lpal_length, f.interlace⟩
  engine := h.engine
  reader := fun hc => let r := h.reader hc; ⟨r.sbRem_le, r.acc_lt, r.nacc_le, r.block_in⟩
  cursor := fun hc =>
    let c := h.cursor hc
    ⟨c.rowEnd_eq, c.safeEnd_eq, c.yLimit_eq, c.cx_low, c.cx_high, c.cy_low⟩
  frames := framesOk_append h.frames hr

theorem inv_refuse {s : State} (h : Inv s) : Inv (refuse s) where
  buffer := ⟨h.buffer.canonical, h.buffer.pos_le⟩
  phase := ⟨h.phase.header_fresh, h.phase.blocks_ready, h.phase.fresh_pos⟩
  palettes := ⟨h.palettes.gpal_length, h.palettes.gpal_alpha, h.palettes.lpal_alpha⟩
  canvas := ⟨h.canvas.fresh_unwritten, h.canvas.output_length, h.canvas.snap_length⟩
  dict := h.dict
  frame := fun hc =>
    let f := h.frame hc
    ⟨f.width_pos, f.height_pos, f.allocated, f.palette, f.lpal_length, f.interlace⟩
  engine := h.engine
  reader := fun hc => let r := h.reader hc; ⟨r.sbRem_le, r.acc_lt, r.nacc_le, r.block_in⟩
  cursor := fun hc =>
    let c := h.cursor hc
    ⟨c.rowEnd_eq, c.safeEnd_eq, c.yLimit_eq, c.cx_low, c.cx_high, c.cy_low⟩
  frames := framesOk_append h.frames (by simp)

theorem inv_construct {s : State} (bytes : Bytes) (h : FramesOk s) : Inv (construct bytes s) where
  buffer := ⟨Memory.ofBytes_wf bytes, Nat.zero_le _⟩
  phase := ⟨by simp [construct, State.reset], by simp [construct, State.reset, Control.inBlocks], fun _ => rfl⟩
  palettes := ⟨by simp [construct, State.reset], by simp [construct, State.reset],
    by simp [construct, State.reset]⟩
  canvas := ⟨fun _ => rfl, by simp [construct, State.reset], by simp [construct, State.reset]⟩
  dict := rfl
  frame := by simp [construct, State.reset, Control.inFrame]
  engine := by simp [construct, State.reset, Control.inFrame]
  reader := by simp [construct, State.reset]
  cursor := by simp [construct, State.reset]
  frames := h

/-- CONSTRUCT, admitted or refused (R310, R349). -/
theorem inv_execConstruct {s t : State} {bytes : Bytes} (h : Inv s) (ht : execConstruct bytes s = .next t) :
    Inv t := by
  unfold execConstruct at ht
  split at ht <;> rw [Host.Outcome.next.injEq] at ht
  · exact ht ▸ inv_refuse h
  · exact ht ▸ inv_construct bytes h.frames

/-- At a place outside any frame, the invariant is its part that survives and the phase conditions. -/
theorem inv_outside {s : State} (h : Kept s) (hf : s.control.inFrame = false)
    (hp : PhaseOk s) (hg : s.phase = .ready ∨ s.phase = .done →
      s.gpal.length = if s.scr.gctPresent then paletteEntries s.scr.gctN else 0)
    (hu : s.phase = .fresh → s.canvas.written = false) : Inv s where
  buffer := h.buffer
  phase := hp
  palettes := ⟨hg, h.gpal_alpha, h.lpal_alpha⟩
  canvas := ⟨hu, h.output_length, h.snap_length⟩
  dict := h.dict
  frame := by simp [hf]
  engine := by simp [hf]
  reader := fun hc => by rw [hc] at hf; simp [Control.inFrame] at hf
  cursor := fun hc => by rw [hc] at hf; simp [Control.inFrame] at hf
  frames := h.frames

theorem Kept.goto {s : State} (h : Kept s) (c : Control) : Kept (s.goto c) :=
  ⟨⟨h.buffer.canonical, h.buffer.pos_le⟩, h.gpal_alpha, h.lpal_alpha, h.output_length, h.snap_length,
    h.dict, h.frames⟩

theorem inv_nextFrame {s t : State} (h : Inv s) (ht : execNextFrame s = .next t) : Inv t := by
  unfold execNextFrame at ht
  split at ht
  · simp only [Host.Outcome.next.injEq] at ht
    exact ht ▸ inv_refuse h
  · split at ht
    · simp only [Host.Outcome.next.injEq] at ht
      exact ht ▸ inv_reply h (by simp)
    · split at ht
      · rename_i hp
        simp only [Host.Outcome.next.injEq] at ht
        subst ht
        exact inv_outside (h.kept.goto _) rfl ⟨fun _ => hp, by simp [Control.inBlocks], h.phase.fresh_pos⟩
          h.palettes.gpal_length h.canvas.fresh_unwritten
      · rename_i h1 h2 h3
        simp only [Host.Outcome.next.injEq] at ht
        subst ht
        refine inv_outside (h.kept.goto _) rfl ⟨by simp, fun _ => ?_, h.phase.fresh_pos⟩
          h.palettes.gpal_length h.canvas.fresh_unwritten
        cases hp : s.phase <;> simp_all [Phase.refusesNextFrame, Phase.isFailed]

theorem inv_attributeRead {s : State} {r : Reply} (h : Inv s) (hr : ∀ f, r ≠ .frame f) :
    Inv (attributeRead r s) := by
  unfold attributeRead
  split
  · exact inv_refuse h
  · exact inv_reply h fun f hf => absurd hf (hr f)

theorem inv_getBackgroundColor {s t : State} (h : Inv s) (ht : execGetBackgroundColor s = .next t) :
    Inv t := by
  unfold execGetBackgroundColor at ht
  split at ht
  · simp only [Host.Outcome.next.injEq] at ht
    exact ht ▸ inv_refuse h
  · split at ht
    · split at ht
      · simp only [Host.Outcome.next.injEq] at ht
        exact ht ▸ inv_reply h (by simp)
      · simp at ht
    · simp only [Host.Outcome.next.injEq] at ht
      exact ht ▸ inv_reply h (by simp)

theorem inv_release {s t : State} (h : Inv s) (hc : s.control = .idle)
    (ht : execRelease s = .next t) : Inv t := by
  unfold execRelease at ht
  split at ht
  · simp only [Host.Outcome.next.injEq] at ht
    exact ht ▸ inv_refuse h
  · simp only [Host.Outcome.next.injEq] at ht
    subst ht
    refine inv_outside ⟨⟨h.buffer.canonical, h.buffer.pos_le⟩, h.palettes.gpal_alpha,
      h.palettes.lpal_alpha, by simp [releaseBuffers, State.reset],
      by simp [releaseBuffers, State.reset], rfl, h.frames⟩ ?_ ⟨?_, ?_, ?_⟩ (by simp) (by simp)
    · simp [releaseBuffers, hc, Control.inFrame]
    · simp [releaseBuffers, hc]
    · simp [releaseBuffers, hc, Control.inBlocks]
    · simp

/-! ## Header and blocks -/

theorem colors_alpha (p : List Rgb) : ∀ c ∈ p.map colorOf, c.a = 255#8 := by
  intro c hc
  obtain ⟨q, _, rfl⟩ := List.mem_map.mp hc
  rfl

theorem paletteLength_of_flag {f : Byte} (h : paletteFlag f = true) :
    paletteLength f = paletteEntries (paletteCode f) := by
  simp [paletteLength, h]

theorem inv_parseHeader {s t : State} {h : Option Screen} {p : Option (List Rgb)} (hi : Inv s)
    (hc : s.control = .header) (hw : (Instr.parseHeader h p).within s.len)
    (ht : execParseHeader h p s = .next t) : Inv t := by
  have hfresh := hi.phase.header_fresh hc
  have hun := hi.canvas.fresh_unwritten hfresh
  refine inv_finish ?_ ?_ ht
  · intro u t' hr
    unfold parseHeader at hr
    cases h with
    | none => simp at hr
    | some scr =>
      simp only at hr
      cases hv : scr.version with
      | none => simp [hv] at hr
      | some v =>
        simp only [hv] at hr
        obtain ⟨q, s1, h1, h2⟩ := Result.bind_eq_ok.mp hr
        simp only [Result.ok.injEq, true_and] at h2
        subst h2
        unfold readGlobalPalette at h1
        by_cases hf : paletteFlag scr.flags = true
        · rw [if_pos hf] at h1
          cases p with
          | none => simp [readPalette] at h1
          | some p =>
            simp only [readPalette, Result.ok.injEq] at h1
            obtain ⟨rfl, rfl⟩ := h1
            simp only [Instr.within] at hw
            have hl := hw.2
            rw [paletteLength_of_flag hf] at hl
            refine inv_outside ⟨⟨hi.buffer.canonical, ?_⟩, colors_alpha p, hi.palettes.lpal_alpha, ?_, ?_,
              hi.dict, hi.frames⟩ rfl ⟨by simp, by simp, by simp⟩ ?_ (by simp)
            · simp only [State.advance, State.goto, Config.headerBytes]; omega
            · simp [State.advance, State.goto, hun]
            · simp [State.advance, State.goto, hun]
            · intro _
              simp [State.advance, State.goto, screenRegs, hf, hl]
        · rw [if_neg hf] at h1
          simp only [Result.ok.injEq] at h1
          obtain ⟨rfl, rfl⟩ := h1
          refine inv_outside ⟨⟨hi.buffer.canonical, ?_⟩, by simp [State.goto], hi.palettes.lpal_alpha, ?_,
            ?_, hi.dict, hi.frames⟩ rfl ⟨by simp, by simp, by simp⟩ ?_ (by simp)
          · cases p <;> simp only [Instr.within] at hw <;>
              simp only [State.goto, Config.headerBytes] <;> omega
          · simp [State.goto, hun]
          · simp [State.goto, hun]
          · intro _
            simp [State.goto, screenRegs, hf]
  · intro k t' hr
    unfold parseHeader at hr
    cases h with
    | none =>
      simp only [raise, Result.trap.injEq] at hr
      exact hr.2 ▸ hi.kept
    | some scr =>
      simp only at hr
      cases hv : scr.version with
      | none =>
        simp only [hv, raise, Result.trap.injEq] at hr
        exact hr.2 ▸ hi.kept
      | some v =>
        simp only [hv] at hr
        rcases Result.bind_eq_trap.mp hr with h1 | ⟨q, s1, h1, h2⟩
        · unfold readGlobalPalette at h1
          split at h1
          · cases p with
            | none =>
              simp only [readPalette, raise, Result.trap.injEq] at h1
              rw [← h1.2]
              refine ⟨⟨hi.buffer.canonical, hw⟩, hi.palettes.gpal_alpha, hi.palettes.lpal_alpha, ?_, ?_,
                hi.dict, hi.frames⟩
              · simp [hun]
              · simp [hun]
            | some p => simp [readPalette] at h1
          · simp at h1
        · simp at h2

/-- What IMAGE's operands leave, whether or not one is missing (R222). -/
theorem beginImage_kept {s : State} {d : Option ImageDesc} {p : Option (List Rgb)} {v : Option Byte}
    {n : Nat} (hi : Kept s) (hn : s.pos + n = s.len) (hw : (Instr.image d p v).within n ∨
      ∃ d', d = some d' ∧ (Instr.imageEmpty d' p v).within n) :
    Kept (beginImage d p v s).state := by
  unfold beginImage
  cases d with
  | none =>
    refine ⟨⟨hi.buffer.canonical, ?_⟩, hi.gpal_alpha, hi.lpal_alpha, hi.output_length,
      hi.snap_length, hi.dict, hi.frames⟩
    rcases hw with hw | ⟨d', hd, _⟩
    · simp only [Instr.within] at hw
      simp only [state_raise, State.advance_pos, State.advance_len]
      omega
    · cases hd
  | some d =>
    have hw' : 10 ≤ n ∧ (∀ q, p = some q → 10 + 3 * q.length ≤ n ∧ q.length = paletteLength d.flags) ∧
        (∀ q b, p = some q → v = some b → 11 + 3 * q.length ≤ n) := by
      rcases hw with hw | ⟨d', hd, hw⟩
      · cases p <;> cases v <;> simp only [Instr.within] at hw <;> simp <;> omega
      · cases hd
        cases p <;> cases v <;> simp only [Instr.within] at hw <;> simp <;> omega
    obtain ⟨h10, hp, hv⟩ := hw'
    have base : ∀ (pos : Nat) (l : List Pixel), pos ≤ s.len → (∀ c ∈ l, c.a = 255#8) →
        Kept { s with img := imageRegs d, pos := pos, lpal := l } := fun pos l h1 h2 =>
      ⟨⟨hi.buffer.canonical, h1⟩, hi.gpal_alpha, h2, hi.output_length, hi.snap_length, hi.dict,
        hi.frames⟩
    simp only [readLocalPalette]
    by_cases hf : paletteFlag d.flags = true
    · rw [if_pos hf]
      cases p with
      | none =>
        simp only [readPalette, bind_raise, state_raise]
        exact base (s.pos + 10) s.lpal (by omega) hi.lpal_alpha
      | some q =>
        obtain ⟨h1, h2⟩ := hp q rfl
        rw [paletteLength_of_flag hf] at h2
        simp only [readPalette, Result.bind_ok]
        cases v with
        | none =>
          simp only [state_raise, State.advance]
          exact base _ _ (by omega) (colors_alpha q)
        | some b =>
          have := hv q b rfl rfl
          simp only [Result.state_ok, State.advance]
          exact base _ _ (by omega) (colors_alpha q)
    · rw [if_neg hf]
      simp only [Result.bind_ok]
      have h0 : paletteLength d.flags = 0 := by simp [paletteLength, hf]
      cases v with
      | none =>
        simp only [state_raise]
        exact base (s.pos + 10) s.lpal (by omega) hi.lpal_alpha
      | some b =>
        simp only [Result.state_ok, State.advance]
        refine base _ s.lpal ?_ hi.lpal_alpha
        rcases hw with hw | ⟨d', hd, hw⟩
        · cases p <;> simp only [Instr.within] at hw
          omega
        · cases hd
          cases p <;> simp only [Instr.within] at hw
          omega

/-- What a completed IMAGE operand fetch leaves (R222). -/
theorem beginImage_ok {s t : State} {d : Option ImageDesc} {p : Option (List Rgb)} {v : Option Byte}
    {b : Byte} (h : beginImage d p v s = .ok b t) :
    ∃ d', d = some d' ∧ v = some b ∧
      t = { s with
        img := imageRegs d'
        pos := t.pos
        lpal := if paletteFlag d'.flags then (p.getD []).map colorOf else s.lpal } ∧
      (paletteFlag d'.flags = true → p.isSome = true) ∧
      t.pos = s.pos + 11 + 3 * paletteLength d'.flags := by
  unfold beginImage at h
  cases d with
  | none => simp at h
  | some d =>
    refine ⟨d, rfl, ?_⟩
    simp only [readLocalPalette] at h
    by_cases hf : paletteFlag d.flags = true
    · rw [if_pos hf] at h
      cases p with
      | none => simp [readPalette] at h
      | some q =>
        cases v with
        | none => simp [readPalette] at h
        | some b' =>
          simp only [readPalette, Result.bind_ok, Result.ok.injEq] at h
          obtain ⟨rfl, rfl⟩ := h
          refine ⟨rfl, ?_, by simp, ?_⟩
          · simp [State.advance, hf]
          · simp only [State.advance, paletteLength_of_flag hf]; omega
    · rw [if_neg hf] at h
      cases v with
      | none => simp at h
      | some b' =>
        simp only [Result.bind_ok, Result.ok.injEq] at h
        obtain ⟨rfl, rfl⟩ := h
        refine ⟨rfl, ?_, fun hc => absurd hc hf, ?_⟩
        · simp [State.advance, hf]
        · simp [State.advance, paletteLength, hf]

/-- The invariant at a block-introducer position: the part that survives a trap, and the header. -/
structure AtBlock (s : State) : Prop where
  kept    : Kept s
  block   : s.control = .block
  ready   : s.phase = .ready
  palette : s.gpal.length = if s.scr.gctPresent then paletteEntries s.scr.gctN else 0

theorem Inv.atBlock {s : State} (h : Inv s) (hc : s.control = .block) : AtBlock s := by
  have hr := h.phase.blocks_ready (by rw [hc]; rfl)
  exact ⟨h.kept, hc, hr, h.palettes.gpal_length (.inl hr)⟩

theorem AtBlock.inv {s : State} (h : AtBlock s) : Inv s :=
  inv_outside h.kept (by rw [h.block]; rfl) ⟨by simp [h.block], fun _ => h.ready, by simp [h.ready]⟩ (fun _ => h.palette)
    (by simp [h.ready])

theorem atBlock_readerMove {s t : State} (h : AtBlock s) (hm : ReaderMove s t) (hp : t.pos ≤ s.len) :
    AtBlock t := by
  have hk := kept_readerMove h.kept hm hp
  rw [hm.frame] at hk ⊢
  exact ⟨hk, h.block, h.ready, h.palette⟩

/-- A skipped chain goes on at a block-introducer position, or leaves the part that survives (R155). -/
theorem inv_skipChain {s t : State} (h : AtBlock s) (ht : (skipChain s).finish = .next t) : Inv t := by
  have hm := skipChain_move s
  have hp := (skipChain_pos h.kept.buffer.pos_le).1
  refine inv_finish (fun u t' hr => ?_) (fun k t' hr => ?_) ht
  · rw [hr] at hm hp
    exact (atBlock_readerMove h hm hp).inv
  · rw [hr] at hm hp
    exact kept_readerMove h.kept hm hp

/-- What DECODE_FRAME leaves when it has reached DISPOSE (R180, R230, R261, R274). -/
theorem beginFrame_ok {s t : State} {v : Byte} {u : Unit} (h : beginFrame v s = .ok u t) :
    2 ≤ clampMinCodeSize v ∧
    (s.img.interlaced = true → s.scr.W ≠ 0#16 ∧ s.img.top = 0#16 ∧ s.img.height = s.scr.H) ∧
    t = { s with
      lzw := engineInit (clampMinCodeSize v) s.lzw.dict
      canvas := (firstAlloc s).canvas
      control := .dispose } := by
  unfold beginFrame at h
  obtain ⟨_, s1, h1, h⟩ := Result.bind_eq_ok.mp h
  obtain ⟨_, s2, h2, h⟩ := Result.bind_eq_ok.mp h
  unfold lzwInit at h1
  simp only at h1
  split at h1
  · simp at h1
  · rename_i hm
    simp only [Result.ok.injEq, true_and] at h1
    subst h1
    unfold interlaceCheck at h2
    split at h2
    · simp at h2
    · rename_i hc
      simp only [Result.ok.injEq, true_and] at h2
      subst h2
      simp only [Result.ok.injEq, true_and] at h
      refine ⟨by simp only [Config.minCodeSizeLow] at hm; omega, ?_, ?_⟩
      · intro hi
        simpa [hi, and_assoc] using hc
      · rw [← h]
        unfold firstAlloc
        by_cases hw : s.canvas.written = true <;> simp [hw, State.goto, State.zeroCanvas, State.canvasSize]

/-- DECODE_FRAME raises no error kind before DISPOSE: its checks are model faults (R180, R274). -/
theorem beginFrame_trap {s t : State} {v : Byte} {k : Cause} (h : beginFrame v s = .trap k t) :
    k = .fault .unspecMinCodeSize ∨ k = .fault .unspecPartialInterlace := by
  unfold beginFrame at h
  rcases Result.bind_eq_trap.mp h with h1 | ⟨_, s1, h1, h⟩
  · unfold lzwInit at h1
    simp only at h1
    split at h1
    · simp only [fault, Result.trap.injEq] at h1
      exact .inl h1.1.symm
    · simp at h1
  · rcases Result.bind_eq_trap.mp h with h2 | ⟨_, s2, h2, h⟩
    · unfold interlaceCheck at h2
      split at h2
      · simp only [fault, Result.trap.injEq] at h2
        exact .inr h2.1.symm
      · simp at h2
    · simp at h

theorem clampMinCodeSize_le (v : Byte) : clampMinCodeSize v ≤ 11 := Nat.min_le_right _ _

/-- FIRST_ALLOC leaves a written canvas of the screen's size (R261). -/
theorem firstAlloc_ok {s : State} (h : Kept s) :
    (firstAlloc s).canvas.written = true ∧ (firstAlloc s).canvas.output.length = s.canvasSize ∧
      ∀ b, (firstAlloc s).canvas.prev = .snap b → b.length = s.canvasSize := by
  unfold firstAlloc
  split
  · rename_i hw
    exact ⟨hw, h.output_length hw, h.snap_length hw⟩
  · refine ⟨rfl, by simp [State.zeroCanvas], ?_⟩
    intro b hb
    simp only [Prev.snap.injEq] at hb
    rw [← hb]
    simp [State.zeroCanvas]

/-- A frame that reached DISPOSE satisfies the invariant. -/
theorem inv_beginFrame {s t : State} {v : Byte} {u : Unit} (h : AtBlock s)
    (hw : s.img.width ≠ 0#16) (hh : s.img.height ≠ 0#16)
    (hl : s.img.hasLocal = true → s.lpal.length = paletteEntries s.img.lsizeN)
    (ht : beginFrame v (selectPalette s) = .ok u t) : Inv t := by
  obtain ⟨h2, hint, rfl⟩ := beginFrame_ok ht
  have hfa : (firstAlloc (selectPalette s)).canvas = (firstAlloc s).canvas := by
    unfold firstAlloc
    by_cases hc : s.canvas.written = true <;> simp [hc, State.zeroCanvas, State.canvasSize]
  rw [hfa]
  obtain ⟨f1, f2, f3⟩ := firstAlloc_ok h.kept
  exact
    { buffer := ⟨h.kept.buffer.canonical, h.kept.buffer.pos_le⟩
      phase := ⟨by simp, fun _ => h.ready, by simp [h.ready]⟩
      palettes := ⟨fun _ => h.palette, h.kept.gpal_alpha, h.kept.lpal_alpha⟩
      canvas := ⟨by simp [h.ready], fun _ => f2, fun _ => f3⟩
      dict := engineInit_wf h.kept.dict
      frame := fun _ => ⟨hw, hh, f1, rfl, hl, hint⟩
      engine := fun _ => engineInit_ok h2 (clampMinCodeSize_le v) _
      reader := by simp
      cursor := by simp
      frames := h.kept.frames }

/-- A completed IMAGE operand fetch stays at a block position, with the local palette's length (R222). -/
theorem beginImage_atBlock {s t : State} {d : Option ImageDesc} {p : Option (List Rgb)} {v : Option Byte}
    {b : Byte} {n : Nat} (hi : AtBlock s) (hn : s.pos + n = s.len)
    (hw : (Instr.image d p v).within n ∨ ∃ d', d = some d' ∧ (Instr.imageEmpty d' p v).within n)
    (h : beginImage d p v s = .ok b t) :
    AtBlock t ∧ (t.img.hasLocal = true → t.lpal.length = paletteEntries t.img.lsizeN) := by
  have hk := beginImage_kept hi.kept hn hw
  rw [h] at hk
  obtain ⟨d', rfl, rfl, ht, hp, _⟩ := beginImage_ok h
  simp only [Result.state_ok] at hk
  refine ⟨⟨hk, ?_, ?_, ?_⟩, ?_⟩
  · rw [ht]; exact hi.block
  · rw [ht]; exact hi.ready
  · rw [ht]; exact hi.palette
  · rw [ht]
    intro hl
    simp only [imageRegs] at hl ⊢
    have hsome := hp hl
    obtain ⟨q, rfl⟩ := Option.isSome_iff_exists.mp hsome
    have hql : q.length = paletteLength d'.flags := by
      rcases hw with hw | ⟨d'', hd, hw⟩
      · simp only [Instr.within] at hw; exact hw.2.1
      · cases hd
        simp only [Instr.within] at hw; exact hw.2.1
    simp [hl, hql, paletteLength_of_flag hl]

theorem inv_image {s t : State} {d : Option ImageDesc} {p : Option (List Rgb)} {v : Option Byte} {n : Nat}
    (hi : AtBlock s) (hn : s.pos + n = s.len) (hw : (Instr.image d p v).within n)
    (ht : execImage d p v s = .next t) : Inv t := by
  unfold execImage at ht
  cases hb : beginImage d p v s with
  | trap k s1 =>
    have hk := beginImage_kept hi.kept hn (.inl hw)
    rw [hb] at ht hk
    exact inv_finish (by simp) (fun k' t' hr => by
      simp only [Result.bind_trap, Result.trap.injEq] at hr
      exact hr.2 ▸ hk) ht
  | ok b s1 =>
    obtain ⟨hat, hl⟩ := beginImage_atBlock hi hn (.inl hw) hb
    rw [hb] at ht
    simp only [Result.bind_ok] at ht
    unfold imageBody at ht
    split at ht
    · exact inv_skipChain hat ht
    · rename_i hz
      refine inv_finish (fun u t' hr => ?_) (fun k t' hr => ?_) ht
      · exact inv_beginFrame hat (fun h => hz (.inl h)) (fun h => hz (.inr h)) hl hr
      · rcases beginFrame_trap hr with h | h <;> cases h

theorem inv_imageEmpty {s t : State} {d : ImageDesc} {p : Option (List Rgb)} {v : Option Byte} {n : Nat}
    (hi : AtBlock s) (hn : s.pos + n = s.len) (hw : (Instr.imageEmpty d p v).within n)
    (ht : execImageEmpty d p v s = .next t) : Inv t := by
  unfold execImageEmpty at ht
  cases hb : beginImage (some d) p v s with
  | trap k s1 =>
    have hk := beginImage_kept hi.kept hn (.inr ⟨d, rfl, hw⟩)
    rw [hb] at ht hk
    exact inv_finish (by simp) (fun k' t' hr => by
      simp only [Result.bind_trap, Result.trap.injEq] at hr
      exact hr.2 ▸ hk) ht
  | ok b s1 =>
    obtain ⟨hat, _⟩ := beginImage_atBlock hi hn (.inr ⟨d, rfl, hw⟩) hb
    rw [hb] at ht
    exact inv_skipChain hat ht

theorem AtBlock.advance {s : State} (h : AtBlock s) {n : Nat} (hn : s.pos + n ≤ s.len) :
    AtBlock (s.advance n) :=
  atBlock_readerMove h (ReaderMove.mk' s (s.pos + n) s.reader (Nat.le_add_right _ _)) hn

theorem inv_extGce {s t : State} {b : Option GceBody} {n : Nat} (hi : AtBlock s) (hn : s.pos + n = s.len)
    (hw : (Instr.extGce b).within n) (ht : execExtGce b s = .next t) : Inv t := by
  unfold execExtGce extGce at ht
  cases b with
  | none =>
    simp only [Instr.within] at hw
    simp only [finish_raise, Host.Outcome.next.injEq] at ht
    rw [← ht]
    exact inv_takeError _ (hi.advance (by omega)).kept
  | some b =>
    simp only [Instr.within] at hw
    simp only at ht
    split at ht
    · simp only [Result.finish_ok, Host.Outcome.next.injEq] at ht
      rw [← ht]
      have h8 := (hi.advance (n := 8) (by omega))
      exact AtBlock.inv ⟨⟨⟨h8.kept.buffer.canonical, h8.kept.buffer.pos_le⟩, hi.kept.gpal_alpha,
        hi.kept.lpal_alpha, hi.kept.output_length, hi.kept.snap_length, hi.kept.dict, hi.kept.frames⟩,
        hi.block, hi.ready, hi.palette⟩
    · simp at ht

theorem inv_extSkip {s t : State} {l : Byte} {n : Nat} (hi : AtBlock s) (hn : s.pos + n = s.len)
    (hw : (Instr.extSkip l).within n) (ht : execExtSkip l s = .next t) : Inv t := by
  simp only [Instr.within] at hw
  exact inv_skipChain (hi.advance (by omega)) ht

theorem inv_trailer {s t : State} {n : Nat} (hi : AtBlock s) (hn : s.pos + n = s.len)
    (hw : Instr.trailer.within n) (ht : execTrailer s = .next t) : Inv t := by
  simp only [Instr.within] at hw
  simp only [execTrailer, Host.Outcome.next.injEq] at ht
  have h1 := (hi.advance (n := 1) (by omega)).kept
  subst ht
  exact inv_outside ⟨⟨h1.buffer.canonical, h1.buffer.pos_le⟩, h1.gpal_alpha, h1.lpal_alpha,
    h1.output_length, h1.snap_length, h1.dict, framesOk_append h1.frames (by simp)⟩ rfl
    ⟨by simp, by simp [Control.inBlocks], by simp⟩ (fun _ => hi.palette) (by simp)

theorem inv_unexpected {s t : State} {b : Byte} {n : Nat} (hi : AtBlock s) (hn : s.pos + n = s.len)
    (hw : (Instr.unexpected b).within n) (ht : execUnexpected b s = .next t) : Inv t := by
  simp only [Instr.within] at hw
  simp only [execUnexpected, finish_raise, Host.Outcome.next.injEq] at ht
  rw [← ht]
  exact inv_takeError _ (hi.advance (by omega)).kept

/-! ## Frames -/

/-- The invariant inside a frame. -/
structure InFrame (s : State) : Prop where
  kept    : Kept s
  ready   : s.phase = .ready
  palette : s.gpal.length = if s.scr.gctPresent then paletteEntries s.scr.gctN else 0
  frame   : FrameOk s
  engine  : EngineOk s.lzw

theorem Inv.inFrame {s : State} (h : Inv s) (hc : s.control.inFrame = true) : InFrame s := by
  have hb : s.control.inBlocks = true := by
    cases hs : s.control <;> rw [hs] at hc <;> simp_all [Control.inFrame, Control.inBlocks]
  have hr := h.phase.blocks_ready hb
  exact ⟨h.kept, hr, h.palettes.gpal_length (.inl hr), h.frame hc, h.engine hc⟩

theorem InFrame.inv {s : State} (h : InFrame s) (hc : s.control.inFrame = true)
    (hr : s.control = .code → ReaderOk s) (hu : s.control = .code → CursorOk s) : Inv s where
  buffer := h.kept.buffer
  phase := ⟨fun hh => by rw [hh] at hc; simp [Control.inFrame] at hc, fun _ => h.ready, by simp [h.ready]⟩
  palettes := ⟨fun _ => h.palette, h.kept.gpal_alpha, h.kept.lpal_alpha⟩
  canvas := ⟨by simp [h.ready], h.kept.output_length, h.kept.snap_length⟩
  dict := h.kept.dict
  frame := fun _ => h.frame
  engine := fun _ => h.engine
  reader := hr
  cursor := hu
  frames := h.kept.frames

/-- A change of the canvas that keeps its sizes, and of the place, keeps what holds inside a frame. -/
theorem InFrame.canvas {s t : State} (h : InFrame s) (c : Canvas) (k : Control)
    (hw : c.written = true) (ho : c.output.length = s.canvasSize)
    (hp : ∀ b, c.prev = .snap b → b.length = s.canvasSize)
    (ht : t = { s with canvas := c, control := k }) : InFrame t := by
  subst ht
  exact ⟨⟨⟨h.kept.buffer.canonical, h.kept.buffer.pos_le⟩, h.kept.gpal_alpha, h.kept.lpal_alpha,
      fun _ => ho, fun _ => hp, h.kept.dict, h.kept.frames⟩, h.ready, h.palette,
    ⟨h.frame.width_pos, h.frame.height_pos, hw, h.frame.palette, h.frame.lpal_length,
      h.frame.interlace⟩, h.engine⟩

theorem inv_disposed {s t : State} (h : InFrame s) (c : Canvas) (hw : c.written = true)
    (ho : c.output.length = s.canvasSize) (hp : ∀ b, c.prev = .snap b → b.length = s.canvasSize)
    (ht : t = { s with canvas := c, control := .cursor }) : Inv t :=
  (h.canvas c .cursor hw ho hp ht).inv (by rw [ht]; rfl) (by rw [ht]; simp) (by rw [ht]; simp)

theorem inv_aliasPrev {s : State} (h : InFrame s) : Inv ((aliasPrev s).goto .cursor) :=
  inv_disposed h { s.canvas with prev := .same } h.frame.allocated
    (h.kept.output_length h.frame.allocated) (by simp) rfl

theorem inv_restoreBackground {s : State} (p : RbPrevPolicy) (h : InFrame s) :
    Inv ((restoreBackground p s).goto .cursor) := by
  refine inv_disposed h (restoreBackground p s).canvas h.frame.allocated
    (by simp [restoreBackground, State.zeroCanvas]) ?_ rfl
  intro b hb
  simp only [restoreBackground] at hb
  split at hb
  · simp only [Prev.snap.injEq] at hb
    rw [← hb]
    exact h.kept.output_length h.frame.allocated
  · simp at hb
  · rename_i b' hb'
    simp only [Prev.snap.injEq] at hb
    rw [← hb]
    exact h.kept.snap_length h.frame.allocated _ hb'

theorem inv_restorePrevious {s : State} (h : InFrame s) : Inv ((restorePrevious s).goto .cursor) := by
  have ho := h.kept.output_length h.frame.allocated
  have hs := h.kept.snap_length h.frame.allocated
  cases hp : s.canvas.prev with
  | same =>
    refine inv_disposed h { s.canvas with prev := .snap s.canvas.output } h.frame.allocated ho ?_
      (by simp [restorePrevious, hp, State.goto])
    intro b hb
    simp only [Prev.snap.injEq] at hb
    rw [← hb]
    exact ho
  | snap b =>
    exact inv_disposed h { s.canvas with output := b } h.frame.allocated (hs b hp)
      (fun b' hb' => hs b' hb') (by simp [restorePrevious, hp, State.goto])

theorem inv_startCodes {s : State} (h : InFrame s) : Inv (startCodes s) := by
  have hk : InFrame (startCodes s) :=
    ⟨⟨⟨h.kept.buffer.canonical, h.kept.buffer.pos_le⟩, h.kept.gpal_alpha, h.kept.lpal_alpha,
        h.kept.output_length, h.kept.snap_length, h.kept.dict, h.kept.frames⟩, h.ready, h.palette,
      ⟨h.frame.width_pos, h.frame.height_pos, h.frame.allocated, h.frame.palette, h.frame.lpal_length,
        h.frame.interlace⟩, h.engine⟩
  refine hk.inv rfl (fun _ => ⟨by simp, by simp, by simp, ?_⟩) (fun _ => ⟨rfl, rfl, rfl, le_refl _, ?_, le_refl _⟩)
  · simpa using h.kept.buffer.pos_le
  · have hw : s.img.width.toNat ≠ 0 := fun hz =>
      h.frame.width_pos (BitVec.eq_of_toNat_eq (by simpa using hz))
    simp only [startCodes_cur, cursorInit]
    omega

/-- Reading a code keeps the invariant, and the code has at most 12 bits (R152, R191 (b)). -/
theorem inv_readCode {s t : State} {c : Nat} (h : Inv s) (hc : s.control = .code)
    (hr : readCode s.lzw.width s = .ok c t) :
    Inv t ∧ t.control = .code ∧ t.lzw = s.lzw ∧ c < 2 ^ s.lzw.width ∧ c < 4096 := by
  have hf := h.inFrame (by rw [hc]; rfl)
  have hro := h.reader hc
  have hwh := hf.engine.width_high
  obtain ⟨h1, h2, _⟩ := readCode_ok hro hwh hr
  have hm := readCode_move s.lzw.width s
  have hp := readCode_pos_le (n := s.lzw.width) hro
  rw [hr] at hm hp
  have hk := kept_readerMove h.kept hm hp
  have hcur := h.cursor hc
  simp only [Result.state_ok] at hm
  have h4096 : c < 4096 := lt_of_lt_of_le h1 (by
    calc 2 ^ s.lzw.width ≤ 2 ^ 12 := Nat.pow_le_pow_right (by decide) hwh
      _ = 4096 := rfl)
  have hctl : t.control = .code := by rw [hm.frame]; exact hc
  refine ⟨InFrame.inv ⟨hk, ?_, ?_, ?_, ?_⟩ (by rw [hctl]; rfl) (fun _ => h2) (fun _ => ?_), hctl, ?_, h1, h4096⟩
  · rw [hm.frame]; exact hf.ready
  · rw [hm.frame]; exact hf.palette
  · rw [hm.frame]
    exact ⟨hf.frame.width_pos, hf.frame.height_pos, hf.frame.allocated, hf.frame.palette,
      hf.frame.lpal_length, hf.frame.interlace⟩
  · rw [hm.frame]; exact hf.engine
  · rw [hm.frame]
    exact ⟨hcur.rowEnd_eq, hcur.safeEnd_eq, hcur.yLimit_eq, hcur.cx_low, hcur.cx_high, hcur.cy_low⟩
  · rw [hm.frame]

/-- A change of the engine registers that keeps their invariants keeps the invariant. -/
theorem inv_engine {s : State} (e : Engine) (h : Inv s) (hc : s.control = .code) (he : EngineOk e)
    (hd : Dict.wf e.dict = true) : Inv { s with lzw := e } where
  buffer := ⟨h.buffer.canonical, h.buffer.pos_le⟩
  phase := ⟨h.phase.header_fresh, h.phase.blocks_ready, h.phase.fresh_pos⟩
  palettes := ⟨h.palettes.gpal_length, h.palettes.gpal_alpha, h.palettes.lpal_alpha⟩
  canvas := ⟨h.canvas.fresh_unwritten, h.canvas.output_length, h.canvas.snap_length⟩
  dict := hd
  frame := fun hf =>
    let f := h.frame hf
    ⟨f.width_pos, f.height_pos, f.allocated, f.palette, f.lpal_length, f.interlace⟩
  engine := fun _ => he
  reader := fun _ => let r := h.reader hc; ⟨r.sbRem_le, r.acc_lt, r.nacc_le, r.block_in⟩
  cursor := fun _ =>
    let c := h.cursor hc
    ⟨c.rowEnd_eq, c.safeEnd_eq, c.yLimit_eq, c.cx_low, c.cx_high, c.cy_low⟩
  frames := h.frames

/-- An emission keeps the invariant (R190, R278). -/
theorem inv_emitAll {s t : State} {q : List Nat} {u : Unit} (h : Inv s) (hc : s.control = .code)
    (he : emitAll q s = .ok u t) : Inv t ∧ t.control = .code ∧ t.lzw = s.lzw := by
  have hf := h.inFrame (by rw [hc]; rfl)
  have hm := emitAll_move q s
  rw [he] at hm
  simp only [Result.state_ok] at hm
  have hcur := emitAll_cursorOk (h.cursor hc) he
  have hro := h.reader hc
  have hctl : t.control = .code := by rw [hm.frame]; exact hc
  refine ⟨InFrame.inv ⟨?_, ?_, ?_, ?_, ?_⟩ (by rw [hctl]; rfl) (fun _ => ?_) (fun _ => hcur), hctl, ?_⟩
  · have ho := h.kept.output_length hf.frame.allocated
    have hl := hm.length
    rw [hm.frame]
    exact ⟨⟨h.buffer.canonical, h.buffer.pos_le⟩, h.kept.gpal_alpha, h.kept.lpal_alpha,
      fun _ => hl.trans ho, h.kept.snap_length, h.dict, h.frames⟩
  · rw [hm.frame]; exact hf.ready
  · rw [hm.frame]; exact hf.palette
  · rw [hm.frame]
    exact ⟨hf.frame.width_pos, hf.frame.height_pos, hf.frame.allocated, hf.frame.palette,
      hf.frame.lpal_length, hf.frame.interlace⟩
  · rw [hm.frame]; exact hf.engine
  · rw [hm.frame]; exact ⟨hro.sbRem_le, hro.acc_lt, hro.nacc_le, hro.block_in⟩
  · rw [hm.frame]

theorem inv_clear {s t : State} (h : Inv s) (hc : s.control = .code) (ht : execClear s = .next t) :
    Inv t := by
  simp only [execClear, Host.Outcome.next.injEq] at ht
  rw [← ht]
  exact inv_engine _ h hc (Engine.clear_ok (h.engine (by rw [hc]; rfl))) h.dict

theorem inv_dict {s t : State} {c : Nat} (h : Inv s) (hc : s.control = .code) (h1 : c < s.lzw.size)
    (h2 : c ≠ s.lzw.clearCode) (h3 : c ≠ s.lzw.endCode) (ht : execDict c s = .next t) : Inv t := by
  refine inv_finish (fun u t' hr => ?_) (fun k t' hr => ?_) ht
  · obtain ⟨_, s1, he, h4⟩ := Result.bind_eq_ok.mp hr
    obtain ⟨hi, hc1, hl⟩ := inv_emitAll h hc he
    simp only [Result.ok.injEq, true_and] at h4
    rw [← h4]
    refine inv_engine _ hi hc1 (Engine.dictCode_ok (hi.engine (by rw [hc1]; rfl)) hi.dict ?_ ?_ ?_)
      (Engine.dictCode_wf hi.dict c) <;> rw [hl] <;> assumption
  · rcases Result.bind_eq_trap.mp hr with he | ⟨_, _, _, he⟩
    · have := emitAll_trap he
      cases this
    · simp at he

theorem inv_kwkwk {s t : State} {c : Nat} (h : Inv s) (hc : s.control = .code) (h1 : c = s.lzw.size)
    (hlt : c < 4096) (h2 : c ≠ s.lzw.clearCode) (h3 : c ≠ s.lzw.endCode)
    (ht : execKwkwk c s = .next t) : Inv t := by
  unfold execKwkwk at ht
  cases hp : s.lzw.prevCode with
  | none =>
    rw [hp] at ht
    simp only [Host.Outcome.next.injEq] at ht
    exact ht ▸ h
  | some p =>
    rw [hp] at ht
    refine inv_finish (fun u t' hr => ?_) (fun k t' hr => ?_) ht
    · obtain ⟨_, s1, he, h4⟩ := Result.bind_eq_ok.mp hr
      obtain ⟨hi, hc1, hl⟩ := inv_emitAll h hc he
      simp only [Result.ok.injEq, true_and] at h4
      rw [← h4]
      refine inv_engine _ hi hc1 (Engine.kwkwkCode_ok (hi.engine (by rw [hc1]; rfl)) hi.dict ?_ ?_ ?_ ?_ ?_)
        (Engine.kwkwkCode_wf hi.dict p c)
      · rw [hl]; exact hp
      · rw [hl]; exact h1
      · rw [hl]; omega
      · rw [hl]; exact h2
      · rw [hl]; exact h3
    · rcases Result.bind_eq_trap.mp hr with he | ⟨_, _, _, he⟩
      · have := emitAll_trap he
        cases this
      · simp at he

theorem inv_endCode {s t : State} (h : Inv s) (hc : s.control = .code) (ht : execEndCode s = .next t) :
    Inv t := by
  have hf := h.inFrame (by rw [hc]; rfl)
  have hro := h.reader hc
  set s0 : State := { s with pos := s.pos + s.reader.sbRem, reader := ⟨0, 0, 0⟩ } with hs0
  have hm0 : ReaderMove s s0 := ReaderMove.mk' s _ _ (Nat.le_add_right _ _)
  have hm : ReaderMove s (skipChain s0).state := ReaderMove.trans _ _ _ hm0 (skipChain_move s0)
  have hp : (skipChain s0).state.pos ≤ s.len := (skipChain_pos (s := s0) hro.block_in).1
  have hk := kept_readerMove h.kept hm hp
  refine inv_finish (fun u t' hr => ?_) (fun k t' hr => ?_) ht
  · obtain ⟨_, s1, he, h4⟩ := Result.bind_eq_ok.mp hr
    have he' : skipChain s0 = .ok () s1 := he
    simp only [Result.ok.injEq, true_and] at h4
    rw [he'] at hm hk
    simp only [Result.state_ok] at hm hk
    rw [← h4]
    refine InFrame.inv ⟨hk.goto _, ?_, ?_, ?_, ?_⟩ rfl (by simp) (by simp)
    · rw [hm.frame]; exact hf.ready
    · rw [hm.frame]; exact hf.palette
    · rw [hm.frame]
      exact ⟨hf.frame.width_pos, hf.frame.height_pos, hf.frame.allocated, hf.frame.palette,
        hf.frame.lpal_length, hf.frame.interlace⟩
    · rw [hm.frame]; exact hf.engine
  · rcases Result.bind_eq_trap.mp hr with he | ⟨_, _, _, he⟩
    · have he' : skipChain s0 = .trap (.error k) t' := he
      rw [he'] at hk
      exact hk
    · simp at he

/-- The end of a frame: the canvas keeps its size, and the frame handed out has the screen's (R275,
R277, R317). -/
theorem inv_finishFrame {s : State} (h : InFrame s) : Inv (finishFrame s) := by
  have ho := h.kept.output_length h.frame.allocated
  have hs := h.kept.snap_length h.frame.allocated
  unfold finishFrame
  by_cases hi : s.img.interlaced = true
  · simp only [hi, if_true]
    have hd : (deinterlace s).canvas.output.length = s.canvasSize := by
      simp [deinterlaced_length, ho]
    refine inv_outside ⟨⟨h.kept.buffer.canonical, h.kept.buffer.pos_le⟩, h.kept.gpal_alpha,
      h.kept.lpal_alpha, fun _ => hd, fun _ => hs, h.kept.dict, ?_⟩ rfl
      ⟨by simp, by simp [Control.inBlocks], by simp [h.ready]⟩ (fun _ => h.palette) (by simp [h.ready])
    refine framesOk_append h.kept.frames fun f hf => ?_
    simp only [Reply.frame.injEq] at hf
    rw [← hf]
    exact hd
  · simp only [hi]
    refine inv_outside ⟨⟨h.kept.buffer.canonical, h.kept.buffer.pos_le⟩, h.kept.gpal_alpha,
      h.kept.lpal_alpha, fun _ => ho, fun _ => hs, h.kept.dict, ?_⟩ rfl
      ⟨by simp, by simp [Control.inBlocks], by simp [h.ready]⟩ (fun _ => h.palette) (by simp [h.ready])
    refine framesOk_append h.kept.frames fun f hf => ?_
    simp only [Reply.frame.injEq] at hf
    rw [← hf]
    exact ho

end Sys2Proof.Machine
end

