-- ==== Sys2Proof/Laws/PerInstr.lean ====
section
/-! SUPPORT. One statement made instruction by instruction: the word that encodes a well-formed
instruction has a size the encoding allows. -/

namespace Sys2Proof.Laws

/-- The sizes of spec/30_encoding.md: a header or a token before its chain takes at most 781 bytes (R118),
a code has at most 12 bits (R114), and the commands are numbered 0 to 6 (decision D39). -/
def WordInRange : FetchWord → Prop
  | .header b => b.length ≤ maxTokenBytes
  | .block b => b.length ≤ maxTokenBytes
  | .code c => c < 2 ^ Config.maxCodeWidth
  | .selector _ => True
  | .command n _ => n ≤ 6

theorem length_encodePalette (p : List Rgb) : (encodePalette p).length = 3 * p.length := by
  induction p with
  | nil => rfl
  | cons c cs ih => simp only [encodePalette, List.length_cons, ih]; omega

theorem paletteLength_le (flags : Byte) : paletteLength flags ≤ 256 := by
  have h : 2 ^ ((paletteCode flags).toNat + 1) ≤ 2 ^ 8 :=
    Nat.pow_le_pow_right (by decide) (by have := (paletteCode flags).isLt; omega)
  unfold paletteLength paletteEntries
  split <;> omega

theorem length_encodeDesc (d : ImageDesc) : (encodeDesc d).length = 9 := rfl

theorem length_encodeScreen_le (h : Screen) : (encodeScreen h).length ≤ 13 := by
  rcases h with ⟨_ | (_ | _), _, _, _, _, _⟩ <;>
    simp [encodeScreen, encodeSignature, u16bytes]

end Sys2Proof.Laws

namespace Sys2Proof.Laws.WordRange

/-- The word of a well-formed instruction is in range, for a `m` the engine can hold (R31). -/
def Statement (i : Instr) : Prop :=
  ∀ k : CodeContext, k.m ≤ 11 → i.wellFormed = true → WordInRange (encode k i)

theorem reservedCode_lt {m : Nat} (h : m ≤ 11) : 2 ^ m + 1 < 2 ^ Config.maxCodeWidth := by
  have := Nat.pow_le_pow_right (n := 2) (by decide) h
  simp only [Config.maxCodeWidth]
  omega

theorem code_of_wf {c : Nat} (h : decide (c < 2 ^ Config.maxCodeWidth) = true) :
    c < 2 ^ Config.maxCodeWidth :=
  of_decide_eq_true h

theorem parseHeader (screen : Option Screen) (gpal : Option (List Rgb)) :
    Statement (.parseHeader screen gpal) := by
  intro k _ wf
  rcases screen with _ | h <;> rcases gpal with _ | p <;> simp only [Instr.wellFormed] at wf <;>
    try contradiction
  have hp : p.length = paletteLength h.flags := by simpa using (Bool.and_eq_true_iff.1 wf).2
  have := paletteLength_le h.flags
  have := length_encodeScreen_le h
  simp only [encode, WordInRange, Option.map_some, Option.getD_some, List.length_append,
    length_encodePalette, maxTokenBytes]
  omega

theorem encodeImage_le (d : ImageDesc) (p : List Rgb) (v : Byte) (h : p.length = paletteLength d.flags) :
    (encodeImage d (some p) (some v)).length ≤ maxTokenBytes := by
  have := paletteLength_le d.flags
  simp only [encodeImage, List.length_cons, List.length_append, length_encodeDesc, Option.getD_some,
    length_encodePalette, Option.toList_some, List.length_nil, maxTokenBytes]
  omega

theorem image (desc : Option ImageDesc) (lpal : Option (List Rgb)) (v : Option Byte) :
    Statement (.image desc lpal v) := by
  intro k _ wf
  rcases desc with _ | d <;> rcases lpal with _ | p <;> rcases v with _ | v <;>
    simp only [Instr.wellFormed] at wf <;> try contradiction
  exact encodeImage_le d p v (by simpa using (Bool.and_eq_true_iff.1 wf).2)

theorem imageEmpty (d : ImageDesc) (lpal : Option (List Rgb)) (v : Option Byte) :
    Statement (.imageEmpty d lpal v) := by
  intro k _ wf
  rcases lpal with _ | p <;> rcases v with _ | v <;> simp only [Instr.wellFormed] at wf <;>
    try contradiction
  exact encodeImage_le d p v (by simpa using (Bool.and_eq_true_iff.1 wf).2)

theorem extGce (body : Option GceBody) : Statement (.extGce body) := by
  intro k _ wf
  rcases body with _ | b
  · simp [Instr.wellFormed] at wf
  · show (encodeGce b).length ≤ maxTokenBytes
    simp [encodeGce, u16bytes, maxTokenBytes]

theorem extSkip (label : Byte) : Statement (.extSkip label) := fun _ _ _ => by
  show 2 ≤ maxTokenBytes
  decide
theorem trailer : Statement .trailer := fun _ _ _ => by
  show 1 ≤ maxTokenBytes
  decide
theorem unexpected (t : Byte) : Statement (.unexpected t) := fun _ _ _ => by
  show 1 ≤ maxTokenBytes
  decide
theorem clear : Statement .clear := fun _ hm _ => Nat.lt_of_succ_lt (reservedCode_lt hm)
theorem endCode : Statement .endCode := fun _ hm _ => reservedCode_lt hm
theorem dict (c : Nat) : Statement (.dict c) := fun _ _ wf => code_of_wf wf
theorem kwkwk (c : Nat) : Statement (.kwkwk c) := fun _ _ wf => code_of_wf wf
theorem skip (c : Nat) : Statement (.skip c) := fun _ _ wf => code_of_wf wf
theorem unspecCode (c : Nat) : Statement (.unspecCode c) := fun _ _ wf => code_of_wf wf
theorem disposeNone : Statement .disposeNone := fun _ _ _ => trivial
theorem disposeKeep : Statement .disposeKeep := fun _ _ _ => trivial
theorem disposeRestoreBg : Statement .disposeRestoreBg := fun _ _ _ => trivial
theorem disposeRestorePrev : Statement .disposeRestorePrev := fun _ _ _ => trivial
theorem construct (bytes : Bytes) : Statement (.construct bytes) := fun _ _ _ => Nat.zero_le _
theorem nextFrame : Statement .nextFrame := fun _ _ _ => by show 1 ≤ 6; decide
theorem getVersion : Statement .getVersion := fun _ _ _ => by show 2 ≤ 6; decide
theorem getWidth : Statement .getWidth := fun _ _ _ => by show 3 ≤ 6; decide
theorem getHeight : Statement .getHeight := fun _ _ _ => by show 4 ≤ 6; decide
theorem getBackgroundColor : Statement .getBackgroundColor := fun _ _ _ => by show 5 ≤ 6; decide
theorem release : Statement .release := fun _ _ _ => by show 6 ≤ 6; decide

end Sys2Proof.Laws.WordRange
end

