-- ==== Sys2Proof/Laws/Place.lean ====
section
/-! SUPPORT. What the compositor's operations amount to: when an emission completes, where the j-th index
of a frame goes, which row a deinterlaced pixel comes from, and what an image's operands write. -/

namespace Sys2Proof.Machine

theorem skips_iff (g : GraphicControl) (i : Nat) : g.skips i = true ↔ g.tidx.map BitVec.toNat = some i := by
  unfold GraphicControl.skips
  cases g.tidx with
  | none => simp
  | some t => simp only [beq_iff_eq, Option.map_some, Option.some.injEq]; exact eq_comm

/-- An emission completes where every index is in the palette or transparent (R271, R273). -/
theorem emitAll_completes : ∀ {q : List Nat} {s : State},
    (∀ i ∈ q, i < s.activePalette.length ∨ s.gc.tidx.map BitVec.toNat = some i) →
        ∃ t, emitAll q s = .ok () t
  | [], s, _ => ⟨s, rfl⟩
  | i :: is, s, h => by
    have h1 : ∃ t, place i s = .ok () t := by
      unfold place
      split
      · exact ⟨_, rfl⟩
      · split
        · rename_i hw
          have hn : ¬ s.gc.skips i = true := by
            simp [State.writes] at hw; simp [hw.2]
          have hlt := (h i (by simp)).resolve_right (fun hh => hn ((skips_iff _ _).mpr hh))
          unfold lookup
          rw [List.getElem?_eq_getElem hlt]
          exact ⟨_, rfl⟩
        · exact ⟨_, rfl⟩
    obtain ⟨t, ht⟩ := h1
    have hm := place_move i s
    rw [ht] at hm
    simp only [Result.state_ok] at hm
    have hg : t.gc = s.gc := by rw [hm.frame]
    have hp : t.activePalette = s.activePalette := by rw [hm.frame]; rfl
    obtain ⟨u, hu⟩ := emitAll_completes (q := is) (s := t) fun j hj => by
      rw [hg, hp]
      exact h j (by simp [hj])
    exact ⟨u, by rw [emitAll, ht]; exact hu⟩

theorem emitAll_append : ∀ (a b : List Nat) (s : State), emitAll (a ++ b) s =
    (emitAll a s).bind fun _ t => emitAll b t
  | [], b, s => rfl
  | i :: is, b, s => by
    simp only [List.cons_append, emitAll]
    cases place i s with
    | ok u t => exact emitAll_append is b t
    | trap k t => rfl

/-- A moved row reads as its source, and every other row as before (R275). -/
theorem moveRow_get (W H : Nat) (old out : List Pixel) (a b : Nat) (hb : b < H)
    (hout : out.length = W * H) (k : Nat) :
   (∀ x y, x < W → y < H → k = oidx W H x y → (moveRow W H old out a b).getD k zeroPixel = if y =
       b then old.getD (oidx W H x a) zeroPixel else out.getD k zeroPixel) := by
  intro x y hx hy hk
  unfold moveRow
  suffices h : ∀ (n : Nat), n ≤ W → ((List.range n).foldl
    (fun o x => o.set (oidx W H x b) (old.getD (oidx W H x a) zeroPixel)) out).length = W * H ∧
        ((List.range n).foldl
    (fun o x => o.set (oidx W H x b) (old.getD (oidx W H x a) zeroPixel)) out).getD k zeroPixel =
        if y = b ∧ x < n then old.getD (oidx W H x a) zeroPixel else out.getD k zeroPixel by
    rw [(h W (le_refl _)).2]
    simp [hx]
  intro n
  induction n with
  | zero => intro _; simp [hout]
  | succ n ih =>
    intro hn
    obtain ⟨ih1, ih2⟩ := ih (by omega)
    rw [List.range_succ, List.foldl_append, List.foldl_cons, List.foldl_nil]
    refine ⟨by rw [List.length_set, ih1], ?_⟩
    by_cases hsame : k = oidx W H n b
    · obtain ⟨rfl, rfl⟩ := oidx_inj hx (by omega) hy hb (hk.symm.trans hsame)
      rw [← hk]
      have hlt : k < W * H := hk ▸ oidx_lt hx hy
      rw [List.getD_eq_getElem?_getD, List.getElem?_set_self (by rw [ih1]; exact hlt)]
      simp
    · rw [List.getD_eq_getElem?_getD, List.getElem?_set_ne (fun h => hsame h.symm),
          ← List.getD_eq_getElem?_getD, ih2]
      by_cases hyb : y = b
      · subst hyb
        have : x ≠ n := fun h => hsame (by rw [hk, h])
        by_cases hxn : x < n
        · simp [hxn, show x < n + 1 by omega]
        · simp [hxn, show ¬ x < n + 1 by omega]
      · simp [hyb]

/-- A pixel after a run of row moves comes from the first move to its row (R275). -/
theorem moveRows_get (W H : Nat) (old : List Pixel) : ∀ (rows : List (Nat × Nat)) (out :
    List Pixel), out.length = W * H →
    (∀ p ∈ rows, p.2 < H) → (rows.map Prod.snd).Nodup → 
    (rows.foldl (fun o r => moveRow W H old o r.1 r.2) out).length = W * H ∧
    ∀ x y, x < W → y < H →
        (rows.foldl (fun o r => moveRow W H old o r.1 r.2) out).getD (oidx W H x y) zeroPixel =
      match rows.find? (fun p => p.2 = y) with
      | some p => old.getD (oidx W H x p.1) zeroPixel
      | none => out.getD (oidx W H x y) zeroPixel := by
  intro rows
  induction rows with
  | nil => intro out h _ _; exact ⟨h, fun x y _ _ => rfl⟩
  | cons r rs ih =>
    intro out ho hb hn
    rw [List.foldl_cons]
    simp only [List.map_cons, List.nodup_cons] at hn
    have hl : (moveRow W H old out r.1 r.2).length = W * H := by rw [moveRow_length, ho]
    obtain ⟨i1, i2⟩ := ih (moveRow W H old out r.1 r.2) hl (fun p hp => hb p (by simp [hp])) hn.2
    refine ⟨i1, fun x y hx hy => ?_⟩
    rw [i2 x y hx hy]
    rw [moveRow_get W H old out r.1 r.2 (hb r (by simp)) ho _ x y hx hy rfl]
    by_cases hry : r.2 = y
    · subst hry
      have hnone : rs.find? (fun p => p.2 = r.2) = none := by
        rw [List.find?_eq_none]
        intro p hp hpe
        exact hn.1 (List.mem_map.mpr ⟨p, hp, by simpa using hpe⟩)
      rw [hnone]
      simp
    · rw [List.find?_cons_of_neg (by simpa using hry)]
      simp [show ¬ y = r.2 from fun h => hry h.symm]

theorem yLimitOf_le (v) (s : State) : yLimitOf v s ≤ s.scr.H.toNat := by
  cases v
  · exact le_refl _
  · exact Nat.min_le_right _ _

theorem ImageRegs.position_inj {d : ImageRegs} {j k : Nat} (h1 : d.columnOf j = d.columnOf k)
    (h2 : d.rowOf j = d.rowOf k) : j = k := by
  simp only [ImageRegs.columnOf, ImageRegs.rowOf] at h1 h2
  have a := Nat.div_add_mod j d.width.toNat
  have b := Nat.div_add_mod k d.width.toNat
  rw [← a, ← b, show j / d.width.toNat = k / d.width.toNat by omega,
      show j % d.width.toNat = k % d.width.toNat by omega]

theorem ImageRegs.rowOf_mono (d : ImageRegs) {j k : Nat} (h : j ≤ k) : d.rowOf j ≤ d.rowOf k := by
  simp only [ImageRegs.rowOf]
  have := Nat.div_le_div_right (c := d.width.toNat) h
  omega

/-- The cursor goes from one index's place to the next one's (R269). -/
theorem Cursor.next_position {d : ImageRegs} (hw : 0 < d.width.toNat) {c : Cursor} {j : Nat}
    (hr : c.rowEnd = d.left.toNat + d.width.toNat)
   (hx : c.cx = d.columnOf j) (hy : c.cy = d.rowOf j) : (c.next d.left.toNat).cx =
       d.columnOf (j + 1) ∧ (c.next d.left.toNat).cy = d.rowOf (j + 1) := by
  simp only [ImageRegs.columnOf, ImageRegs.rowOf] at *
  have a := Nat.div_add_mod j d.width.toNat
  have hlt := Nat.mod_lt j hw
  unfold Cursor.next
  by_cases he : c.cx + 1 = c.rowEnd
  · rw [if_pos he]
    have hm : j % d.width.toNat + 1 = d.width.toNat := by omega
    have hj : j + 1 = d.width.toNat * (j / d.width.toNat + 1) := by rw [Nat.mul_add]; omega
    constructor
    · rw [hj]; simp
    · simp only
      rw [hj, Nat.mul_div_cancel_left _ hw, hy]; omega
  · rw [if_neg he]
    have hm : j % d.width.toNat + 1 < d.width.toNat := by omega
    have hj : j + 1 = d.width.toNat * (j / d.width.toNat) + (j % d.width.toNat + 1) := by omega
    constructor
    · rw [hj, Nat.mul_add_mod, Nat.mod_eq_of_lt hm, hx, Nat.add_assoc]
    · rw [hj, Nat.mul_add_div hw, Nat.div_eq_of_lt hm, hy]; simp

/-- IMAGE's operands, when none is missing (R222, R227). -/
theorem beginImage_complete (s : State) (d : ImageDesc) (p : List Rgb) (v : Byte)
  (hp : p.length = (if d.flags.getLsbD 7 then 2 ^ ((d.flags.extractLsb' 0 3).toNat + 1) else 0)) :
  beginImage (some d) (some p) (some v) s = .ok v { s with
        pos := s.pos + 11 + 3 * p.length
        img := ⟨d.left, d.top, d.width, d.height, d.flags.getLsbD 7, d.flags.getLsbD 6,
          d.flags.extractLsb' 0 3⟩
        lpal := if d.flags.getLsbD 7 then p.map fun c => ⟨c.r, c.g, c.b, 255#8⟩ else s.lpal } := by
  by_cases hf : d.flags.getLsbD 7 = true
  · rw [if_pos hf] at hp
    simp only [beginImage, readLocalPalette, paletteFlag, hf, if_true, readPalette, Result.bind_ok,
        State.advance, imageRegs, interlaceFlag, paletteCode, paletteEntries, ← hp]
    have : s.pos + 10 + 3 * p.length + 1 = s.pos + 11 + 3 * p.length := by omega
    rw [this]
    rfl
  · rw [if_neg hf] at hp
    have hp0 := List.eq_nil_of_length_eq_zero hp
    subst hp0
    simp only [Bool.not_eq_true] at hf
    simp only [beginImage, readLocalPalette, paletteFlag, hf, State.advance, imageRegs,
        interlaceFlag, paletteCode, Bool.false_eq_true, if_false, Result.bind_ok, List.length_nil,
        Nat.mul_zero, Nat.add_zero, Nat.add_assoc]

end Sys2Proof.Machine
end

