-- ==== Sys2Proof/Laws/Step.lean ====
section
/-! SUPPORT. What a step is at each place of a command. -/

namespace Sys2Proof.Machine

/-- The step of a decoded word: the instruction in the state of the fetch, or the rejection. -/
theorem step_of_fetch {s s' : State} {w : FetchWord} (h : fetch s = decoded w s') :
    step s = match decode s'.codeContext w with
      | .ok i => exec i s'
      | .error r => rejected r s' := by
  unfold step
  rw [h]
  unfold decoded
  cases decode s'.codeContext w <;> rfl

theorem step_waiting {s : State} (hc : s.control = .idle) (hi : s.inbox = []) : step s = .next s := by
  simp [step, fetch, hc, fetchCommand, hi]

theorem step_command {s : State} {w : HostWord} {ws : List HostWord} (hc : s.control = .idle)
    (hi : s.inbox = w :: ws) :
    step s = match decodeCommand w.number w.bytes with
      | .ok i => exec i { s with inbox := ws }
      | .error r => rejected r { s with inbox := ws } :=
  step_of_fetch (w := .command w.number w.bytes) (by simp [fetch, hc, fetchCommand, hi])

theorem step_header {s : State} (hc : s.control = .header) :
    step s = exec (decodeHeader (s.bytesFrom 0)) s :=
  step_of_fetch (w := .header (s.bytesFrom 0)) (by simp [fetch, hc])

theorem step_block {s : State} (hc : s.control = .block) :
    step s = match decodeBlock (s.bytesFrom s.pos) with
      | .ok i => exec i s
      | .error r => rejected r s :=
  step_of_fetch (w := .block (s.bytesFrom s.pos)) (by simp [fetch, hc])

theorem step_dispose {s : State} (hc : s.control = .dispose) :
    step s = exec (decodeSelector s.gc.disposal.selector) s :=
  step_of_fetch (w := .selector s.gc.disposal.selector) (by simp [fetch, hc])

theorem step_cursor {s : State} (hc : s.control = .cursor) : step s = .next (startCodes s) := by
  simp [step, fetch, hc]

theorem step_emit {s : State} (hc : s.control = .emit) : step s = .next (finishFrame s) := by
  simp [step, fetch, hc]

theorem step_code {s t : State} {c : Nat} (hc : s.control = .code)
    (hr : readCode s.lzw.width s = .ok c t) : step s = exec (decodeCode t.codeContext c) t :=
  step_of_fetch (w := .code c) (by simp [fetch, hc, fetchCode, hr])

theorem step_code_trap {s t : State} {k : Cause} (hc : s.control = .code)
    (hr : readCode s.lzw.width s = .trap k t) : step s = (Result.trap k t).finish := by
  simp [step, fetch, hc, fetchCode, hr]

/-- The disposal selector read back gives the instruction of its name (R109, R262). -/
theorem decodeSelector_selector (d : Disposal) :
    decodeSelector d.selector = match d with
      | .noneD => .disposeNone
      | .keep => .disposeKeep
      | .restoreBg => .disposeRestoreBg
      | .restorePrev => .disposeRestorePrev := by
  cases d <;> rfl

/-- The ways a step can answer a next state. -/
theorem step_next_cases {s t : State} (ht : step s = .next t) :
   (s.control = .idle ∧ s.inbox = [] ∧ t = s) ∨
   (∃ w ws i, s.control = .idle ∧ s.inbox = w :: ws ∧ decodeCommand w.number w.bytes = .ok i ∧ exec i { s with inbox := ws } = .next t) ∨
   (∃ i, s.control = .header ∧ decodeHeader (s.bytesFrom 0) = i ∧ exec i s = .next t) ∨
   (∃ i, s.control = .block ∧ decodeBlock (s.bytesFrom s.pos) = .ok i ∧ exec i s = .next t) ∨
   (s.control = .block ∧ s.bytesFrom s.pos = [] ∧ t = takeError .truncated s) ∨
   (s.control = .block ∧ s.bytesFrom s.pos = [0x21#8] ∧ t = takeError .truncated (s.advance 1)) ∨
   (s.control = .dispose ∧ exec (decodeSelector s.gc.disposal.selector) s = .next t) ∨
   (s.control = .cursor ∧ t = startCodes s) ∨ (s.control = .emit ∧ t = finishFrame s) ∨
   (∃ c s1, s.control = .code ∧ readCode s.lzw.width s = .ok c s1 ∧ exec (decodeCode s1.codeContext c) s1 = .next t) ∨
   (∃ k s1, s.control = .code ∧ readCode s.lzw.width s = .trap (.error k) s1 ∧ t = takeError k s1) := by
  cases hc : s.control with
  | idle =>
    cases hi : s.inbox with
    | nil =>
      rw [step_waiting hc hi, Host.Outcome.next.injEq] at ht
      exact .inl ⟨rfl, rfl, ht.symm⟩
    | cons w ws =>
      rw [step_command hc hi] at ht
      cases hd : decodeCommand w.number w.bytes with
      | ok i =>
        rw [hd] at ht
        simp only at ht
        rw [← hc]
        exact .inr (.inl ⟨w, ws, i, rfl, rfl, hd, ht⟩)
      | error r =>
        rw [hd, (decodeCommand_reject hd).1] at ht
        cases ht
  | header => rw [step_header hc] at ht; exact .inr (.inr (.inl ⟨_, rfl, rfl, ht⟩))
  | block =>
    rw [step_block hc] at ht
    cases hd : decodeBlock (s.bytesFrom s.pos) with
    | ok i => rw [hd] at ht; exact .inr (.inr (.inr (.inl ⟨i, rfl, rfl, ht⟩)))
    | error r =>
      rw [hd] at ht
      rcases decodeBlock_reject hd with ⟨rfl, he⟩ | ⟨rfl, he⟩ <;> simp only [rejected, Host.Outcome.next.injEq] at ht
      · exact .inr (.inr (.inr (.inr (.inl ⟨rfl, he, ht.symm⟩))))
      · exact .inr (.inr (.inr (.inr (.inr (.inl ⟨rfl, he, ht.symm⟩)))))
  | dispose => rw [step_dispose hc] at ht; simp [ht]
  | cursor => rw [step_cursor hc, Host.Outcome.next.injEq] at ht; simp [ht]
  | emit => rw [step_emit hc, Host.Outcome.next.injEq] at ht; simp [ht]
  | code =>
    cases hr : readCode s.lzw.width s with
    | ok c s1 => rw [step_code hc hr] at ht; simp [ht]
    | trap k s1 =>
      rw [step_code_trap hc hr] at ht
      rcases Result.finish_eq_next.mp ht with h | ⟨k', s', h, rfl⟩
      · simp at h
      · simp only [Result.trap.injEq] at h
        obtain ⟨rfl, rfl⟩ := h
        simp

end Sys2Proof.Machine
end

