-- ==== Sys2Proof/Laws/Stream.lean ====
section
/-! SUPPORT. The logical stream of a chain (R24, R113, R153): what FETCH_BYTE, the bit loop of READ_CODE
and SKIP_CHAIN do to it, in a whole chain and in a broken one, and the value of packed codes. -/

namespace Sys2Proof.Machine

theorem streamValue_cons (b : Byte) (bs : Bytes) :
    streamValue (b :: bs) = b.toNat + 256 * streamValue bs := rfl

/-- Taking one data byte moves it from the buffer to the accumulator: the stream stays. -/
theorem takeByte_in {s : State} {b : Byte} {cur : Bytes} {blocks : List Bytes} {rest : Bytes}
    (h : InChain s (b :: cur) blocks rest) :
    ∃ t, takeByte s = .ok () t ∧ InChain t cur blocks rest ∧ t.pending cur blocks =
        s.pending (b :: cur) blocks ∧
      t.pendingBits cur blocks = s.pendingBits (b :: cur) blocks ∧
          t = { s with pos := s.pos + 1, reader := t.reader } ∧
          t.reader.nacc = s.reader.nacc + 8 := by
  obtain ⟨hlt, hb, hr⟩ := State.bytesFrom_eq_cons h.bytes
  refine ⟨_, by unfold takeByte; rw [hb], ⟨?_, ?_, h.blocks_ok, hr⟩, ?_, ?_, rfl, rfl⟩
  · have h1 := h.acc_lt
    have h2 : b.toNat < 256 := b.isLt
    simp only
    have e : 2 ^ (s.reader.nacc + 8) = 256 * 2 ^ s.reader.nacc := by rw [pow_add]; ring
    rw [e]
    nlinarith [Nat.zero_le (2 ^ s.reader.nacc)]
  · have := h.sbRem_eq
    simp only [List.length_cons] at this ⊢
    omega
  · simp only [State.pending, List.cons_append, streamValue_cons]
    rw [pow_add]; ring
  · simp only [State.pendingBits, List.cons_append, List.length_cons]
    omega

/-- FETCH_BYTE where the chain has a byte left: the stream stays and `nacc` grows by 8 (R151). -/
theorem fetch_in {s : State} {cur : Bytes} {blocks : List Bytes} {rest : Bytes}
    (h : InChain s cur blocks rest)
    (hne : cur ++ blocks.flatten ≠ []) :
    ∃ t cur' blocks', fetchByte s = .ok () t ∧ InChain t cur' blocks' rest ∧
        t.pending cur' blocks' = s.pending cur blocks ∧
      t.pendingBits cur' blocks' = s.pendingBits cur blocks ∧
          t = { s with pos := t.pos, reader := t.reader } ∧ t.reader.nacc = s.reader.nacc + 8
      ∧ t.pos + cur'.length + (encodeBlocks blocks').length =
          s.pos + cur.length + (encodeBlocks blocks).length := by
  cases cur with
  | cons b cur =>
    obtain ⟨t, h1, h2, h3, h4, h5, h6⟩ := takeByte_in h
    have hnz : s.reader.sbRem ≠ 0 := by rw [h.sbRem_eq]; simp
    refine ⟨t, cur, blocks, by unfold fetchByte; rw [if_neg hnz, h1], h2, h3, h4, by rw [h5], h6, ?_⟩
    rw [h5]; simp only [List.length_cons]; omega
  | nil =>
    cases blocks with
    | nil => simp at hne
    | cons b bs =>
      obtain ⟨hb, hbs⟩ := h.blocks_ok.cons
      have hz : s.reader.sbRem = 0 := by rw [h.sbRem_eq]; rfl
      have hbytes : s.bytesFrom s.pos = BitVec.ofNat 8 b.length :: (b ++ (encodeBlocks bs ++ rest)) := by
        rw [h.bytes]; simp [encodeBlocks]
      obtain ⟨hlt, hby, hr⟩ := State.bytesFrom_eq_cons hbytes
      have hlen := congrArg List.length hr
      rw [State.bytesFrom_length] at hlen
      simp only [List.length_append] at hlen
      have he : enterSubBlock s = .ok () { s with
          pos := s.pos + 1, reader := { s.reader with sbRem := b.length } } := by
        unfold enterSubBlock
        rw [hby]
        simp only
        rw [if_neg (lengthByte_ne_zero hb), lengthByte_toNat hb.2, if_neg]
        · rfl
        · simp only [State.advance_len, State.advance_pos]; omega
      obtain ⟨x, b', rfl⟩ : ∃ x b', b = x :: b' := by
        cases b with
        | nil => simp at hb
        | cons x b' => exact ⟨x, b', rfl⟩
      have hin : InChain { s with pos := s.pos + 1, reader := { s.reader with sbRem :=
          (x :: b').length } } (x :: b') bs rest :=
        ⟨h.acc_lt, rfl, hbs, by
          show s.bytesFrom (s.pos + 1) = _
          rw [hr, List.append_assoc]⟩
      obtain ⟨t, h1, h2, h3, h4, h5, h6⟩ := takeByte_in hin
      refine ⟨t, b', bs, ?_, h2, ?_, ?_, by rw [h5], h6, ?_⟩
      · unfold fetchByte
        rw [if_pos hz, he, Result.bind_ok, h1]
      · rw [h3]; simp [State.pending]
      · rw [h4]; simp [State.pendingBits]
      · rw [h5]; simp only [encodeBlocks, List.length_cons, List.length_append, List.length_nil]; omega

/-- The loop of READ_CODE where the chain has the bits (R152). -/
theorem fill_in {n : Nat} {rest : Bytes} : ∀ {rounds : Nat} {s : State} {cur : Bytes} {blocks :
    List Bytes}, InChain s cur blocks rest →
    n ≤ s.pendingBits cur blocks → n ≤ s.reader.nacc + 8 * rounds →
    ∃ t cur' blocks', fillBits rounds n s = .ok () t ∧ InChain t cur' blocks' rest ∧
        t.pending cur' blocks' = s.pending cur blocks ∧
      t.pendingBits cur' blocks' = s.pendingBits cur blocks ∧
          t = { s with pos := t.pos, reader := t.reader } ∧ n ≤ t.reader.nacc
  | 0, s, cur, blocks, h, hb, hn => ⟨s, cur, blocks, rfl, h, rfl, rfl, rfl, by omega⟩
  | r + 1, s, cur, blocks, h, hb, hn => by
    unfold fillBits
    by_cases hc : s.reader.nacc < n
    · rw [if_pos hc]
      have hne : cur ++ blocks.flatten ≠ [] := by
        intro he
        simp only [State.pendingBits, he, List.length_nil] at hb
        omega
      obtain ⟨t, c1, b1, h1, h2, h3, h4, h5, h6, _⟩ := fetch_in h hne
      obtain ⟨u, c2, b2, k1, k2, k3, k4, k5, k6⟩ := fill_in (n := n) (rounds := r) h2 (by omega) (by omega)
      refine ⟨u, c2, b2, by rw [h1]; exact k1, k2, k3.trans h3, k4.trans h4, ?_, k6⟩
      rw [k5, h5]
    · rw [if_neg hc]
      exact ⟨s, cur, blocks, rfl, h, rfl, rfl, rfl, by omega⟩

/-- FETCH_BYTE at the end of the chain's data (R151). -/
theorem fetch_end {s : State} {rest : Bytes} (h : InChain s [] [] rest) (hp : s.pos ≤ s.len) :
   (rest = [] → ∃ t, fetchByte s = .trap (.error .truncated) t ∧ t.pos = s.len) ∧
    (∀ r, rest = 0#8 :: r → ∃ t, fetchByte s = .trap (.error .truncated) t ∧ t.pos = s.pos + 1) ∧
    (∀ l r, rest = l :: r → l ≠ 0#8 → r.length < l.toNat → ∃ t,
      fetchByte s = .trap (.error .malformed) t ∧ t.pos = s.pos + 1) := by
  have hz : s.reader.sbRem = 0 := by rw [h.sbRem_eq]; rfl
  have hb : s.bytesFrom s.pos = rest := by rw [h.bytes]; rfl
  unfold fetchByte
  rw [if_pos hz]
  refine ⟨?_, ?_, ?_⟩
  · rintro rfl
    have hl := congrArg List.length hb
    rw [State.bytesFrom_length] at hl
    simp only [List.length_nil] at hl
    have : s.byteAt? s.pos = none := State.byteAt?_eq_none.mpr (by omega)
    unfold enterSubBlock
    rw [this]
    exact ⟨s, rfl, by omega⟩
  · rintro r rfl
    obtain ⟨_, hby, _⟩ := State.bytesFrom_eq_cons hb
    unfold enterSubBlock
    rw [hby]
    exact ⟨_, rfl, rfl⟩
  · rintro l r rfl hl hlt
    obtain ⟨_, hby, hr⟩ := State.bytesFrom_eq_cons hb
    have hlen := congrArg List.length hr
    rw [State.bytesFrom_length] at hlen
    unfold enterSubBlock
    rw [hby]
    simp only
    rw [if_neg hl, if_pos]
    · exact ⟨_, rfl, rfl⟩
    · simp only [State.advance_len, State.advance_pos]; omega

/-- The loop of READ_CODE where the chain lacks the bits (R151, R152). -/
theorem fill_end {n : Nat} {rest : Bytes} : ∀ {rounds : Nat} {s : State} {cur : Bytes} {blocks :
    List Bytes}, InChain s cur blocks rest → s.pos ≤ s.len →
    s.pendingBits cur blocks < n → n ≤ s.reader.nacc + 8 * rounds →
    (rest = [] → ∃ t, fillBits rounds n s = .trap (.error .truncated) t ∧ t.pos = s.len) ∧
    (∀ r, rest = 0#8 :: r → ∃ t, fillBits rounds n s = .trap (.error .truncated) t ∧
        t.pos = s.pos + cur.length + (encodeBlocks blocks).length + 1) ∧
    (∀ l r, rest = l :: r → l ≠ 0#8 → r.length < l.toNat → ∃ t,
      fillBits rounds n s = .trap (.error .malformed) t ∧ t.pos =
          s.pos + cur.length + (encodeBlocks blocks).length + 1)
  | 0, s, cur, blocks, h, hp, hb, hn => by
    simp only [State.pendingBits] at hb; omega
  | r + 1, s, cur, blocks, h, hp, hb, hn => by
    have hc : s.reader.nacc < n := by simp only [State.pendingBits] at hb; omega
    unfold fillBits
    rw [if_pos hc]
    by_cases hne : cur ++ blocks.flatten = []
    · have hcur : cur = [] := (List.append_eq_nil_iff.mp hne).1
      have hfl := (List.append_eq_nil_iff.mp hne).2
      have hbl : blocks = [] := by
        cases blocks with
        | nil => rfl
        | cons b bs =>
          have := (h.blocks_ok.cons).1.1
          simp at hfl
          simp [hfl] at this
      subst hcur hbl
      obtain ⟨e1, e2, e3⟩ := fetch_end h hp
      refine ⟨?_, ?_, ?_⟩
      · intro hr
        obtain ⟨t, ht, hpos⟩ := e1 hr
        exact ⟨t, by rw [ht]; rfl, hpos⟩
      · intro q hr
        obtain ⟨t, ht, hpos⟩ := e2 q hr
        exact ⟨t, by rw [ht]; rfl, by simpa [encodeBlocks] using hpos⟩
      · intro l q hr hl hlt
        obtain ⟨t, ht, hpos⟩ := e3 l q hr hl hlt
        exact ⟨t, by rw [ht]; rfl, by simpa [encodeBlocks] using hpos⟩
    · obtain ⟨t, c1, b1, h1, h2, h3, h4, h5, h6, h7⟩ := fetch_in h hne
      have hlen : t.len = s.len := by rw [h5]
      have hple : t.pos ≤ t.len := by
        have hx := congrArg List.length h.bytes
        rw [State.bytesFrom_length] at hx
        simp only [List.length_append] at hx
        omega
      obtain ⟨e1, e2, e3⟩ := fill_end (n := n) (rounds := r) h2 hple (by omega) (by omega)
      rw [h1, Result.bind_ok, ← hlen, ← h7]
      exact ⟨e1, e2, e3⟩

/-- SKIP_CHAIN over a chain without its terminator (R155). -/
theorem skipChain_broken {u : State} {blocks : List Bytes} {rest : Bytes} (hok : BlocksOk blocks)
    (hb : u.bytesFrom u.pos = encodeBlocks blocks ++ rest) (hle : u.pos ≤ u.len) :
    (rest = [] → skipChain u = raise .truncated { u with pos := u.len }) ∧
    (∀ n r, rest = n :: r → n ≠ 0#8 → r.length < n.toNat →
      skipChain u = raise .malformed { u with pos := u.pos + (encodeBlocks blocks).length + 1 }) := by
  obtain ⟨m, hm, hl⟩ := skipChainFrom_blocks hok hb (le_refl _)
  have hrest := State.bytesFrom_eq_append hb
  have hlen := congrArg List.length hrest
  rw [State.bytesFrom_length] at hlen
  have hlen2 := congrArg List.length hb
  rw [State.bytesFrom_length] at hlen2
  simp only [List.length_append] at hlen2
  simp only [skipChain]
  constructor
  · rintro rfl
    simp only [List.length_nil] at hlen hlen2
    rw [hm]
    have hpos : u.pos + (encodeBlocks blocks).length = u.len := by omega
    have hr : skipChainFrom m (u.advance (encodeBlocks blocks).length) =
        raise .truncated (u.advance (encodeBlocks blocks).length) := by
      cases m with
      | zero => rfl
      | succ m =>
        have hn : (u.advance (encodeBlocks blocks).length).byteAt? (u.advance (encodeBlocks blocks).length).pos = none := by
          rw [State.byteAt?_eq_none]
          simp only [State.advance_len, State.advance_pos]; omega
        rw [skipChainFrom, hn]
    rw [hr]
    simp only [State.advance, hpos]
  · rintro n r rfl hn hrl
    simp only [List.length_cons] at hlen hlen2
    rw [hm]
    obtain ⟨_, hby, _⟩ := State.bytesFrom_eq_cons hrest
    obtain ⟨k, rfl⟩ : ∃ k, m = k + 1 := ⟨m - 1, by omega⟩
    have hby' : (u.advance (encodeBlocks blocks).length).byteAt? (u.advance (encodeBlocks blocks).length).pos = some n := hby
    rw [skipChainFrom, hby']
    simp only
    rw [if_neg hn, if_pos]
    · rfl
    · simp only [State.advance_len, State.advance_pos]; omega

theorem bytesOfValue_length : ∀ n v, (bytesOfValue n v).length = n
  | 0, _ => rfl
  | n + 1, v => by simp [bytesOfValue, bytesOfValue_length n]

theorem streamValue_bytesOfValue : ∀ n v, streamValue (bytesOfValue n v) = v % 256 ^ n
  | 0, v => by simp [bytesOfValue, streamValue, Nat.mod_one]
  | n + 1, v => by
    simp only [bytesOfValue, streamValue_cons, streamValue_bytesOfValue n, BitVec.toNat_ofNat]
    rw [show 256 ^ (n + 1) = 256 * 256 ^ n by ring, Nat.mod_mul, show (2 : Nat) ^ 8 = 256 from rfl,
        Nat.mod_mod]

/-- Packed codes take no more bits than their widths (R114). -/
theorem packedValue_lt : ∀ cs : List (Nat × Nat), (∀ x ∈ cs, x.1 < 2 ^ x.2) →
    packedValue cs < 2 ^ packedBits cs
  | [], _ => by simp [packedValue, packedBits]
  | (c, w) :: cs, h => by
    have h1 := h (c, w) (by simp)
    have h2 := packedValue_lt cs (fun x hx => h x (by simp [hx]))
    simp only at h1
    simp only [packedValue, packedBits, pow_add]
    have : 2 ^ w * packedValue cs + 2 ^ w ≤ 2 ^ w * 2 ^ packedBits cs := by
      calc 2 ^ w * packedValue cs + 2 ^ w = 2 ^ w * (packedValue cs + 1) := by ring
        _ ≤ _ := Nat.mul_le_mul_left _ h2
    omega

end Sys2Proof.Machine
end

