-- ==== Sys2Proof/Tests/Slice0.lean ====
section
/-! SUPPORT. Tests: ill-formed terms refused, words written out from spec/30_encoding.md decoded, one step
of each instruction on a small state, with the results of spec/95_test_vectors.md, and a witness for the
hypotheses of each obligation. -/

namespace Sys2Proof.Tests

open Sys2Proof.Machine

/-! ## WellFormed refuses ill-formed terms -/

def screen1 : Screen := ⟨some .gif89a, 1#16, 1#16, 0x80#8, 1#8, 0#8⟩
def pal2 : List Rgb := [⟨255#8, 0#8, 0#8⟩, ⟨0#8, 255#8, 0#8⟩]
def desc1 : ImageDesc := ⟨0#16, 0#16, 1#16, 1#16, 0#8⟩
def descEmpty : ImageDesc := ⟨0#16, 0#16, 0#16, 1#16, 0x80#8⟩

theorem test_wf_accepts : (Instr.parseHeader (some screen1) (some pal2)).wellFormed = true ∧
    (Instr.image (some desc1) (some []) (some 2#8)).wellFormed = true ∧
    (Instr.imageEmpty descEmpty (some pal2) (some 2#8)).wellFormed = true := by decide
theorem test_wf_header_signature :
    (Instr.parseHeader (some { screen1 with version := none }) (some pal2)).wellFormed = false := by decide
theorem test_wf_header_palette :
    (Instr.parseHeader (some screen1) (some [])).wellFormed = false := by decide
theorem test_wf_header_cut : (Instr.parseHeader none none).wellFormed = false := by decide
theorem test_wf_image_empty :
    (Instr.image (some descEmpty) (some pal2) (some 2#8)).wellFormed = false := by decide
theorem test_wf_image_palette :
    (Instr.image (some desc1) (some pal2) (some 2#8)).wellFormed = false := by decide
theorem test_wf_image_cut : (Instr.image (some desc1) (some []) none).wellFormed = false := by decide
theorem test_wf_imageEmpty_not_empty :
    (Instr.imageEmpty desc1 (some []) (some 2#8)).wellFormed = false := by decide
theorem test_wf_imageEmpty_palette :
    (Instr.imageEmpty descEmpty (some []) (some 2#8)).wellFormed = false := by decide
theorem test_wf_imageEmpty_cut : (Instr.imageEmpty descEmpty none none).wellFormed = false := by decide
theorem test_wf_gce_cut : (Instr.extGce none).wellFormed = false := by decide
theorem test_wf_label : (Instr.extSkip 0xF9#8).wellFormed = false := by decide
theorem test_wf_unexpected : (Instr.unexpected 0x2C#8).wellFormed = false ∧
    (Instr.unexpected 0x21#8).wellFormed = false ∧ (Instr.unexpected 0x3B#8).wellFormed = false := by decide
theorem test_wf_code_width : (Instr.dict 4096).wellFormed = false ∧ (Instr.kwkwk 4096).wellFormed = false ∧
    (Instr.skip 4096).wellFormed = false ∧ (Instr.unspecCode 4096).wellFormed = false := by decide

/-- The engine at m = 2 right after its start, and after the code 1 (R180, R115). -/
def k0 : CodeContext := ⟨2, 6, none⟩
def k1 : CodeContext := ⟨2, 6, some 1⟩

theorem test_fits_dict : (Instr.dict 6).fits k1 = false ∧ (Instr.dict 4).fits k1 = false := by decide
theorem test_fits_kwkwk : (Instr.kwkwk 7).fits k1 = false ∧ (Instr.kwkwk 6).fits k0 = false := by decide
theorem test_fits_skip : (Instr.skip 6).fits k1 = false ∧ (Instr.skip 3).fits k0 = false := by decide
theorem test_fits_unspec : (Instr.unspecCode 6).fits k1 = false ∧ (Instr.unspecCode 7).fits k0 = false := by
  decide

/-! ## Decoding words written out from the spec's encodings -/

/-- R101, R102, R104: the 19-byte header HDR2 of spec/95_test_vectors.md, with what follows it. -/
def hdr2 : Bytes := [0x47#8, 0x49#8, 0x46#8, 0x38#8, 0x39#8, 0x61#8, 0x01#8, 0x00#8, 0x01#8, 0x00#8, 0x80#8,
  0x01#8, 0x00#8, 0xFF#8, 0x00#8, 0x00#8, 0x00#8, 0xFF#8, 0x00#8]

theorem test_decode_header : decode k0 (.header (hdr2 ++ [0x3B#8])) =
    .ok (.parseHeader (some screen1) (some pal2)) := by decide
theorem test_decode_header_87a_no_palette : decode k0 (.header [0x47#8, 0x49#8, 0x46#8, 0x38#8, 0x37#8,
    0x61#8, 0x34#8, 0x12#8, 0x00#8, 0x80#8, 0b01110111#8, 5#8, 9#8]) =
    .ok (.parseHeader (some ⟨some .gif87a, 0x1234#16, 0x8000#16, 0b01110111#8, 5#8, 9#8⟩) (some [])) := by
  decide
/-- S4: `GIF88a` is neither signature (R101). -/
theorem test_decode_header_88a : decode k0 (.header [0x47#8, 0x49#8, 0x46#8, 0x38#8, 0x38#8, 0x61#8,
    0x01#8, 0x00#8, 0x01#8, 0x00#8, 0x00#8, 0#8, 0#8]) =
    .ok (.parseHeader (some ⟨none, 1#16, 1#16, 0#8, 0#8, 0#8⟩) (some [])) := by decide
/-- TV-CB-4: twelve bytes are too few. -/
theorem test_decode_header_short : decode k0 (.header (hdr2.take 12)) = .ok (.parseHeader none none) := by
  decide

/-- IMG1 of spec/95_test_vectors.md (R110, R112, R113). -/
def img1 : Bytes := [0x2C#8, 0x00#8, 0x00#8, 0x00#8, 0x00#8, 0x01#8, 0x00#8, 0x01#8, 0x00#8, 0x00#8, 0x02#8,
  0x02#8, 0x4C#8, 0x01#8, 0x00#8]

theorem test_decode_image : decode k0 (.block img1) = .ok (.image (some desc1) (some []) (some 2#8)) := by
  decide
/-- TV-CB-22's image: a local palette of 2 entries between the descriptor and min_code_size. -/
theorem test_decode_image_local : decode k0 (.block ([0x2C#8, 0x05#8, 0x01#8, 0x00#8, 0x02#8, 0x01#8, 0x00#8,
    0x00#8, 0x01#8, 0b11000000#8, 0xFF#8, 0x00#8, 0x00#8, 0x00#8, 0xFF#8, 0x00#8, 0x08#8, 0x00#8])) =
    .ok (.image (some ⟨0x0105#16, 0x0200#16, 1#16, 0x0100#16, 0b11000000#8⟩) (some pal2) (some 8#8)) := by
  decide
/-- S5: width 0. -/
theorem test_decode_imageEmpty : decode k0 (.block [0x2C#8, 0x00#8, 0x00#8, 0x00#8, 0x00#8, 0x00#8, 0x00#8,
    0x01#8, 0x00#8, 0x00#8, 0x02#8, 0x00#8]) =
    .ok (.imageEmpty ⟨0#16, 0#16, 0#16, 1#16, 0#8⟩ (some []) (some 2#8)) := by decide
/-- TV-CB-18 and TV-CB-19: the descriptor cut short, and the min_code_size byte missing. -/
theorem test_decode_image_cut : decode k0 (.block (img1.take 9)) = .ok (.image none none none) ∧
    decode k0 (.block (img1.take 10)) = .ok (.image (some desc1) (some []) none) := by decide
theorem test_decode_gce : decode k0 (.block [0x21#8, 0xF9#8, 0x04#8, 0b00001101#8, 0x2C#8, 0x01#8, 0x03#8,
    0x00#8, 0x99#8]) = .ok (.extGce (some ⟨4#8, 0b00001101#8, 300#16, 3#8, 0#8⟩)) := by decide
/-- TV-CB-15: the body cut short. -/
theorem test_decode_gce_cut : decode k0 (.block [0x21#8, 0xF9#8, 0x04#8, 0x00#8, 0x00#8]) =
    .ok (.extGce none) := by decide
theorem test_decode_ext : decode k0 (.block [0x21#8, 0x01#8, 0x00#8]) = .ok (.extSkip 1#8) ∧
    decode k0 (.block [0x21#8, 0xFF#8, 0x00#8]) = .ok (.extSkip 0xFF#8) := by decide
theorem test_decode_trailer : decode k0 (.block [0x3B#8, 0xFF#8]) = .ok .trailer := by decide
theorem test_decode_unexpected : decode k0 (.block [0x2D#8]) = .ok (.unexpected 0x2D#8) := by decide
theorem test_decode_nothing : decode k0 (.block []) = .error .noIntroducer ∧
    decode k0 (.block [0x21#8]) = .error .noLabel := by decide
theorem test_decode_clear : decode k1 (.code 0b100) = .ok .clear := by decide
theorem test_decode_end : decode k1 (.code 0b101) = .ok .endCode := by decide
theorem test_decode_dict : decode k1 (.code 0b011) = .ok (.dict 3) := by decide
theorem test_decode_kwkwk : decode k1 (.code 0b110) = .ok (.kwkwk 6) := by decide
theorem test_decode_skip : decode k0 (.code 0b110) = .ok (.skip 6) := by decide
theorem test_decode_unspec : decode k1 (.code 0b111) = .ok (.unspecCode 7) := by decide
theorem test_decode_disposals : decode k0 (.selector 0b00#2) = .ok .disposeNone ∧
    decode k0 (.selector 0b01#2) = .ok .disposeKeep ∧ decode k0 (.selector 0b10#2) = .ok .disposeRestoreBg ∧
    decode k0 (.selector 0b11#2) = .ok .disposeRestorePrev := by decide
theorem test_decode_commands : decode k0 (.command 0 hdr2) = .ok (.construct hdr2) ∧
    decode k0 (.command 1 []) = .ok .nextFrame ∧ decode k0 (.command 2 []) = .ok .getVersion ∧
    decode k0 (.command 3 []) = .ok .getWidth ∧ decode k0 (.command 4 []) = .ok .getHeight ∧
    decode k0 (.command 5 []) = .ok .getBackgroundColor ∧ decode k0 (.command 6 []) = .ok .release ∧
    decode k0 (.command 7 []) = .error (.unknownCommand 7) := by decide
/-- Two rows of spec/opcode_table.json by their match words (log 13). -/
theorem test_table_words : decodeTableWord 8 0x3B = some .trailer ∧
    decodeTableWord 16 0x21F9 = some (.extGce (some ⟨0#8, 0#8, 0#16, 0#8, 0#8⟩)) := by decide
/-- `CODES{4/3 1/3 5/3}` of IMG1 (R114, R120). -/
theorem test_pack : packCodes [(4, 3), (1, 3), (5, 3)] = [0x4C#8, 0x01#8] := by decide

/-! ## One step of each instruction -/

def red : Pixel := ⟨255#8, 0#8, 0#8, 255#8⟩
def green : Pixel := ⟨0#8, 255#8, 0#8, 255#8⟩
def blue : Pixel := ⟨0#8, 0#8, 255#8, 255#8⟩
def black : Pixel := ⟨0#8, 0#8, 0#8, 255#8⟩

/-- The state of a step that goes on, and the fault of one that stops. -/
def after : Outcome → Option State
  | .next t => some t
  | .fault _ => none
  | .refused _ => none
def faultOf : Outcome → Option Fault
  | .next _ => none
  | .fault f => some f
  | .refused _ => none

/-- A fresh decoder at the header position, over a buffer. -/
def atHeader (bytes : Bytes) : State := { construct bytes State.reset with control := .header }

/-- A ready decoder at the first block-introducer position of a buffer that holds only blocks: screen
`w` × `h` and the four-entry palette of HDR4. -/
def atBlock (w h : U16) (bytes : Bytes) : State :=
  { construct bytes State.reset with
    phase := .ready
    control := .block
    scr := ⟨.gif89a, w, h, true, 1#3, 0#8⟩
    gpal := [red, green, blue, black] }

/-- The code loop of a frame `w` × 1 that fills the screen, m = 2, over a chain. -/
def atCode (w : U16) (bytes : Bytes) : State :=
  { atBlock w 1#16 bytes with
    control := .code
    img := ⟨0#16, 0#16, w, 1#16, false, false, 0#3⟩
    lzw := engineInit 2 []
    cur := ⟨0, 0, w.toNat, w.toNat, 1⟩
    canvas := ⟨true, List.replicate w.toNat zeroPixel, .same⟩ }

/-- HDR2 (§8 item 1): the registers and the palette, `pos` after the 19 bytes. -/
theorem test_parseHeader : (after (step (atHeader hdr2))).map (fun t => (t.scr, t.gpal, t.pos, t.phase)) =
    some (⟨.gif89a, 1#16, 1#16, true, 0#3, 1#8⟩, [red, green], 19, .ready) := by decide
/-- TV-CB-5: a palette that runs past the buffer is Truncated at 13. -/
theorem test_parseHeader_truncated :
    (after (step (atHeader (hdr2.take 15)))).map (fun t => (t.pos, t.phase, t.scr.W)) =
      some (13, .failed (.error .truncated), 1#16) := by decide
/-- IMG1 up to its chain: 11 bytes, engine (3, 6, NONE) (R222, R180). -/
theorem test_image : (after (step (atBlock 1#16 1#16 img1))).map
    (fun t => (t.pos, t.lzw.width, t.lzw.size, t.canvas.output, t.control)) =
      some (11, 3, 6, [zeroPixel], .dispose) := by decide
/-- TV-EX-1: min_code_size 0 faults before the partial interlaced frame does. -/
theorem test_image_fault_order : (faultOf (step (atBlock 1#16 2#16 [0x2C#8, 0#8, 0#8, 0#8, 0#8, 1#8, 0#8,
    1#8, 0#8, 0x40#8, 0#8, 2#8, 0x4C#8, 1#8, 0#8]))).map Fault.code = some 0x10 := by decide
/-- S5: an image of width 0 is skipped with its chain. -/
theorem test_imageEmpty : (after (step (atBlock 1#16 1#16 [0x2C#8, 0#8, 0#8, 0#8, 0#8, 0#8, 0#8, 1#8, 0#8,
    0#8, 2#8, 2#8, 0x4C#8, 1#8, 0#8, 0x3B#8]))).map (fun t => (t.pos, t.phase, t.canvas.written)) =
      some (15, .ready, false) := by decide
/-- §8 items 8 and 11: flags 0x0D, delay 7. -/
theorem test_extGce : (after (step (atBlock 1#16 1#16 [0x21#8, 0xF9#8, 4#8, 0x0D#8, 7#8, 0#8, 3#8, 0#8]))).map
    (fun t => (t.pos, t.gc)) = some (8, ⟨7#16, some 3#8, .restorePrev⟩) := by decide
/-- TV-CB-16: terminator 0x01. -/
theorem test_extGce_terminator : (faultOf (step (atBlock 1#16 1#16 [0x21#8, 0xF9#8, 4#8, 0#8, 0#8, 0#8, 0#8,
    1#8]))).map (fun f => (f.code, f.state.pos)) = some (0x13, 8) := by decide
/-- TV-CB-12: a comment. -/
theorem test_extSkip : (after (step (atBlock 1#16 1#16 [0x21#8, 0xFE#8, 1#8, 0x41#8, 0#8, 0x3B#8]))).map
    (fun t => (t.pos, t.phase)) = some (5, .ready) := by decide
/-- TV-RD-11: the declared length runs past the buffer. -/
theorem test_extSkip_malformed : (after (step (atBlock 1#16 1#16 [0x21#8, 0xFE#8, 4#8, 0x41#8]))).map
    (fun t => (t.pos, t.phase)) = some (3, .failed (.error .malformed)) := by decide
/-- P1's terminator (§8 item 12). -/
theorem test_trailer : (after (step (atBlock 1#16 1#16 [0x3B#8]))).map
    (fun t => (t.pos, t.phase, t.outbox, t.control)) = some (1, .done, [.noFrame], .idle) := by decide
/-- TV-CB-9. -/
theorem test_unexpected : (after (step (atBlock 1#16 1#16 [0#8]))).map (fun t => (t.pos, t.phase, t.outbox)) =
    some (1, .failed (.error .unexpectedBlock), [.error .unexpectedBlock]) := by decide
/-- TV-LZ-11: CLEAR restores width 3 after width 4. -/
theorem test_clear :
    (after (step { atCode 4#16 [1#8, 0x04#8, 0#8] with
      lzw := { engineInit 2 [] with width := 4, size := 8, prevCode := some 2 } })).map
      (fun t => (t.lzw.width, t.lzw.size, t.lzw.prevCode)) = some (3, 6, none) := by decide
/-- TV-RD-8: END with 2 bytes of the sub-block and one more sub-block left. -/
theorem test_endCode :
    (after (exec .endCode { atCode 4#16 [0x03#8, 0x2C#8, 0x0A#8, 0x0B#8, 0x01#8, 0xFF#8, 0x00#8] with
      pos := 2, reader := ⟨2, 0, 2⟩ })).map (fun t => (t.pos, t.reader, t.control)) =
      some (7, ⟨0, 0, 0⟩, .emit) := by decide
/-- TV-LZ-1's third code: 1 after 0 emits 1 and defines 6 as [0, 1]. -/
theorem test_dict :
    (after (exec (.dict 1) { atCode 4#16 [] with
      lzw := { engineInit 2 [] with prevCode := some 0 }, cur := ⟨1, 0, 4, 4, 1⟩ })).map
      (fun t => (t.canvas.output, t.lzw.entry 6, t.lzw.width, t.lzw.size, t.lzw.prevCode)) =
      some ([zeroPixel, green, zeroPixel, zeroPixel], [0, 1], 3, 7, some 1) := by decide
/-- TV-CO-13: index 3 of a 2-entry palette. -/
theorem test_dict_palette :
    (faultOf (exec (.dict 3) { atCode 1#16 [] with gpal := [red, green] })).map Fault.code =
      some 0x12 := by decide
/-- TV-LZ-3's second KwKwK code: 7 after 6 = [1, 1] emits 1, 1, 1, and the width grows to 4. -/
theorem test_kwkwk :
    (after (exec (.kwkwk 7) { atCode 4#16 [] with
      lzw := { engineInit 2 [(6, [1, 1])] with size := 7, prevCode := some 6 } })).map
      (fun t => (t.canvas.output, t.lzw.entry 7, t.lzw.width, t.lzw.size, t.lzw.prevCode)) =
      some ([green, green, green, zeroPixel], [1, 1, 1], 4, 8, some 7) := by decide
/-- TV-LZ-6: the leading 7 is skipped. -/
theorem test_skip : (after (step (atCode 1#16 [2#8, 0x4F#8, 1#8, 0#8]))).map
    (fun t => (t.lzw.width, t.lzw.size, t.lzw.prevCode, t.pos, t.reader)) =
      some (3, 6, none, 2, ⟨1, 9, 5⟩) := by decide
/-- TV-LZ-8: 7 above size 6 with a previous code. -/
theorem test_unspecCode :
    (faultOf (exec (.unspecCode 7) { atCode 1#16 [] with
      lzw := { engineInit 2 [] with prevCode := some 1 } })).map Fault.code = some 0x11 := by decide

/-- A frame of two pixels before its disposal, the canvas and what is remembered given. -/
def atDispose (d : Disposal) (output : List Pixel) (prev : Prev) : State :=
  { atCode 2#16 [2#8, 0x4C#8, 1#8, 0#8] with
    control := .dispose, gc := ⟨0#16, none, d⟩, canvas := ⟨true, output, prev⟩ }

theorem test_disposeNone :
    (after (step (atDispose .noneD [green, red] (.snap [red, red])))).map (fun t => (t.canvas, t.control)) =
      some (⟨true, [green, red], .same⟩, .cursor) := by decide
theorem test_disposeKeep :
    (after (step (atDispose .keep [green, red] (.snap [red, red])))).map (fun t => (t.canvas, t.control)) =
      some (⟨true, [green, red], .same⟩, .cursor) := by decide
/-- TV-CO-7: the whole canvas is cleared. -/
theorem test_disposeRestoreBg :
    (after (step (atDispose .restoreBg [red, red] .same))).map (fun t => t.canvas.output) =
      some [zeroPixel, zeroPixel] := by rfl
/-- §8 item 8: the second frame with Previous begins from the snapshot. -/
theorem test_disposeRestorePrev :
    (after (step (atDispose .restorePrev [green, red] (.snap [red, red])))).map (fun t => t.canvas) =
      some ⟨true, [red, red], .snap [red, red]⟩ := by decide
/-- §8 item 8: the first one takes the snapshot. -/
theorem test_disposeRestorePrev_snapshot :
    (after (step (atDispose .restorePrev [red, red] .same))).map (fun t => t.canvas) =
      some ⟨true, [red, red], .snap [red, red]⟩ := by decide

/-- A decoder between commands, in a phase, with one command waiting. -/
def waiting (p : Phase) (n : Nat) (bytes : Bytes) : State :=
  { atBlock 1#16 2#16 [0x3B#8] with phase := p, control := .idle, inbox := [⟨n, bytes⟩] }

/-- TV-HI-1, the mark of a command refused before it cleared (R380). -/
theorem test_construct : (after (step { waiting .done 0 img1 with refused := true, everRefused := true })).map
    (fun t => (t.phase, t.len, t.byteAt? 13, t.refused, t.everRefused)) =
      some (.fresh, 15, some 1#8, false, true) := by decide
/-- R349: in FAILED no command but RELEASE is admitted. -/
theorem test_construct_refused : (after (step (waiting (.failed (.error .truncated)) 0 img1))).map
    (fun t => (t.phase, t.len, t.outbox, t.refused)) =
      some (.failed (.error .truncated), 1, [.refused], true) := by decide
theorem test_nextFrame : (after (step (waiting .ready 1 []))).map (fun t => (t.control, t.outbox)) =
    some (.block, []) := by decide
/-- TV-CB-24: in DONE nothing is read. -/
theorem test_nextFrame_done : (after (step (waiting .done 1 []))).map (fun t => (t.pos, t.outbox)) =
    some (0, [.noFrame]) := by decide
theorem test_getVersion : (after (step (waiting .ready 2 []))).map (fun t => t.outbox) =
    some [.version .gif89a] := by decide
theorem test_getWidth : (after (step (waiting .done 3 []))).map (fun t => t.outbox) =
    some [.number 1#16] := by decide
/-- TV-HI-2: refused before the header is parsed. -/
theorem test_getWidth_refused : (after (step (waiting .fresh 3 []))).map
    (fun t => (t.outbox, t.refused, t.phase)) = some ([.refused], true, .fresh) := by decide
theorem test_getHeight : (after (step (waiting .ready 4 []))).map (fun t => t.outbox) =
    some [.number 2#16] := by decide
theorem test_getBackgroundColor : (after (step (waiting .ready 5 []))).map (fun t => t.outbox) =
    some [.color red] := by decide
/-- TV-HI-6: bg_index 5 of 2 entries. -/
theorem test_getBackgroundColor_index : (faultOf (step { waiting .ready 5 [] with
    scr := ⟨.gif89a, 1#16, 1#16, true, 0#3, 5#8⟩, gpal := [red, green] })).map
      (fun f => (f.code, f.state.phase)) = some (0x12, .failed (.fault .unspecPaletteIndex)) := by decide
/-- TV-HI-7. -/
theorem test_release : (after (step (waiting (.failed (.error .invalidHeader)) 6 []))).map
    (fun t => (t.phase, t.outbox)) = some (.released, []) := by decide
theorem test_release_twice : (after (step (waiting .released 6 []))).map
    (fun t => (t.phase, t.outbox, t.refused)) = some (.released, [.refused], true) := by decide

/-- §8 item 11: the frame handed out, `delay_ms` 70. -/
theorem test_emit : (after (step { atDispose .noneD [red, green] .same with
    control := .emit, gc := ⟨7#16, none, .noneD⟩ })).map (fun t => t.outbox) =
      some [.frame ⟨2#16, 1#16, 70, [red, green]⟩] := by decide
/-- S6: stored row s of 8 goes to display row [0, 4, 2, 6, 1, 3, 5, 7][s]. -/
theorem test_passOrder : passOrder 8 = [0, 4, 2, 6, 1, 3, 5, 7] := by decide
/-- TV-RD-3: a 12-bit code over two sub-blocks. -/
theorem test_readCode : readCode 12 (atCode 1#16 [1#8, 0xAA#8, 1#8, 0xBB#8, 0#8]) =
    .ok 0xBAA { atCode 1#16 [1#8, 0xAA#8, 1#8, 0xBB#8, 0#8] with pos := 4, reader := ⟨0, 0xB, 4⟩ } := by
  decide
/-- TV-RD-5: a sub-block longer than the buffer. -/
theorem test_readCode_malformed : readCode 3 (atCode 1#16 [5#8, 0xAA#8, 0#8]) =
    .trap (.error .malformed) { atCode 1#16 [5#8, 0xAA#8, 0#8] with pos := 1 } := by decide

/-! ## The hypotheses of the obligations are met

`witness_X` gives values that meet the hypotheses of `Obligations.X`, clause by clause where it has
several. -/

theorem witness_WrittenWordsDecode : (k1.m = 2 ∧ k1.size = 6 ∧ k1.prevCode = some 1) ∧
    k0.m = 2 ∧ k0.size = 6 ∧ k0.prevCode = none := by decide
theorem witness_DecodeInvertsEncode :
    ((Instr.kwkwk 6).wellFormed = true ∧ (Instr.kwkwk 6).fits k1 = true) ∧
    (Instr.imageEmpty descEmpty (some pal2) (some 0#8)).wellFormed = true ∧
    (Instr.imageEmpty descEmpty (some pal2) (some 0#8)).fits k1 = true := by decide
theorem witness_EncodeInvertsDecode :
    (decode k0 (.block img1) = .ok (.image (some desc1) (some []) (some 2#8)) ∧
      (Instr.image (some desc1) (some []) (some 2#8)).wellFormed = true) ∧
    decode k0 (.command 6 []) = .ok .release ∧ Instr.release.wellFormed = true := by decide
theorem witness_IntroducerAndLabelSelectToken :
    ∃ t : Byte, t ≠ 0x2C#8 ∧ t ≠ 0x21#8 ∧ t ≠ 0x3B#8 := ⟨0x2D#8, by decide⟩
/-- One state for each place an instruction is read from. -/
theorem witness_StepRunsDecodedInstruction :
    ((waiting .ready 6 []).control = .idle ∧ (waiting .ready 6 []).inbox = [⟨6, []⟩] ∧
      decode (waiting .ready 6 []).codeContext (.command 6 []) = .ok .release) ∧
    ((atHeader []).control = .header ∧
      decode (atHeader []).codeContext (.header ((atHeader []).bytesFrom 0)) = .ok (.parseHeader none none)) ∧
    ((atBlock 1#16 1#16 [0x3B#8]).control = .block ∧
      decode (atBlock 1#16 1#16 [0x3B#8]).codeContext (.block ((atBlock 1#16 1#16 [0x3B#8]).bytesFrom 0)) =
        .ok .trailer) ∧
    ((atDispose .keep [red, red] .same).control = .dispose ∧
      decode (atDispose .keep [red, red] .same).codeContext
        (.selector (atDispose .keep [red, red] .same).gc.disposal.selector) = .ok .disposeKeep) ∧
    (∃ t, (atCode 1#16 [1#8, 5#8, 0#8]).control = .code ∧
      readCode (atCode 1#16 [1#8, 5#8, 0#8]).lzw.width (atCode 1#16 [1#8, 5#8, 0#8]) = .ok 5 t ∧
      decode t.codeContext (.code 5) = .ok .endCode) ∧
    ∃ t, readCode (atCode 1#16 [0#8]).lzw.width (atCode 1#16 [0#8]) = .trap (.error .truncated) t :=
  ⟨by decide, by decide, by decide, by decide, ⟨_, rfl, rfl, by decide⟩, _, rfl⟩

/-- A frame before its disposal, and the same frame inside the code loop. -/
def framed : State := atDispose .keep [red, green] .same
def coding : State := startCodes framed

theorem framed_inFrame : InFrame framed where
  kept :=
    { buffer := ⟨by decide, by decide⟩
      gpal_alpha := by decide
      lpal_alpha := by decide
      output_length := by decide
      snap_length := fun _ b h => nomatch h
      dict := by decide
      frames := fun f h => nomatch h }
  ready := rfl
  palette := by decide
  frame := ⟨by decide, by decide, by decide, by decide, by decide, by decide⟩
  engine := engineInit_ok (m := 2) (by decide) (by decide) []

theorem coding_inv : Machine.Inv coding := inv_startCodes framed_inFrame

theorem witness_StepKeepsInv : Machine.Inv coding ∧ ∃ t, step coding = .next t := ⟨coding_inv, _, rfl⟩
theorem witness_EveryCommandTerminates : Machine.Inv coding ∧ coding.control = .code := ⟨coding_inv, rfl⟩
theorem witness_NextFrameEntersByPhase : (waiting .fresh 1 []).phase = .fresh ∧
    (waiting .ready 1 []).phase = .ready ∧ (waiting .done 1 []).phase = .done ∧
    (waiting .released 1 []).phase = .released ∧
    (waiting (.failed (.error .truncated)) 1 []).phase = .failed (.error .truncated) := by decide
theorem witness_AttributeReadsReturnRegisters : (waiting .ready 2 []).phase = .ready ∧
    (waiting .done 3 []).phase = .done ∧ (waiting .fresh 4 []).phase = .fresh := by decide
/-- The last entry of a palette of two, and the first index beyond it. -/
theorem witness_BackgroundColorFromGlobalPalette :
    ∃ s u : State, (s.phase = .ready ∧ s.scr.gctPresent = true ∧ s.gpal[s.scr.bgIndex.toNat]? = some green) ∧
      (u.phase = .done ∧ u.scr.gctPresent = true ∧ u.gpal.length = u.scr.bgIndex.toNat) ∧
      State.reset.scr.gctPresent = false :=
  ⟨{ waiting .ready 5 [] with scr := ⟨.gif89a, 1#16, 1#16, true, 0#3, 1#8⟩, gpal := [red, green] },
    { waiting .done 5 [] with scr := ⟨.gif89a, 1#16, 1#16, true, 0#3, 2#8⟩, gpal := [red, green] },
    by decide⟩
theorem witness_ReleaseGivesUpBuffers : (waiting .done 6 []).phase ≠ .released ∧
    (waiting .released 6 []).phase = .released := by decide
/-- A phase that admits CONSTRUCT and the two that refuse it. -/
theorem witness_ConstructMakesFreshDecoder : (waiting .ready 0 hdr2).phase = .ready ∧
    (waiting .released 0 hdr2).phase = .released ∧
    (waiting (.failed (.error .truncated)) 0 hdr2).phase = .failed (.error .truncated) := by decide
theorem witness_RefusedMarkStays :
    ∃ s t : State, step s = .next t ∧ s.refused = true ∧ s.everRefused = true ∧ s.inbox = [⟨2, []⟩] :=
  ⟨{ waiting .ready 2 [] with refused := true, everRefused := true }, _, rfl, rfl, rfl, rfl⟩
/-- In FAILED and in RELEASED: nothing waiting, the first and the last command that is refused, and RELEASE. -/
theorem witness_FailedIsAbsorbing :
    let s (p : Phase) (q : List HostWord) : State := { waiting p 0 [] with inbox := q }
    let failed : Phase := .failed (.error .malformed)
    ((∃ t, step (s failed []) = .next t) ∧ (∃ t, step (s failed [⟨0, hdr2⟩]) = .next t) ∧
      (∃ t, step (s failed [⟨5, []⟩]) = .next t) ∧ ∃ t, step (s failed [⟨6, []⟩]) = .next t) ∧
    (∃ t, step (s .released []) = .next t) ∧ (∃ t, step (s .released [⟨0, hdr2⟩]) = .next t) ∧
      ∃ t, step (s .released [⟨6, []⟩]) = .next t :=
  ⟨⟨⟨_, rfl⟩, ⟨_, rfl⟩, ⟨_, rfl⟩, _, rfl⟩, ⟨_, rfl⟩, ⟨_, rfl⟩, _, rfl⟩
theorem witness_IdleCoreWaitsOrTakesCommand : State.reset.control = .idle ∧ State.reset.inbox = [] ∧
    (waiting .ready 7 []).inbox = [⟨7, []⟩] := by decide
theorem witness_TrapEntryRecordsCause :
    (raise .truncated State.reset : Result Unit) = .trap (.error .truncated) State.reset ∧
    (fault .unspecCode State.reset : Result Unit) = .trap (.fault .unspecCode) State.reset := ⟨rfl, rfl⟩
theorem witness_TrapExposesNoFrame :
    ∃ t, step (atBlock 1#16 1#16 [0#8]) = .next t ∧ (atBlock 1#16 1#16 [0#8]).phase ≠ t.phase ∧
      t.phase = .failed (.error .unexpectedBlock) := ⟨_, rfl, by decide, rfl⟩
/-- One step for each place a model fault is raised at. -/
theorem witness_FaultsRecordCodeAndPlace :
    let image (h flags v : Byte) : Bytes := [0x2C#8, 0#8, 0#8, 0#8, 0#8, 1#8, 0#8, h, 0#8, flags, v, 0#8]
    (∃ t, step (atBlock 1#16 2#16 (image 2#8 0#8 1#8)) = .fault (.unspecMinCodeSize t)) ∧
    (∃ t, step (atBlock 1#16 2#16 (image 1#8 0x40#8 2#8)) = .fault (.unspecPartialInterlace t)) ∧
    (∃ t, step (atBlock 1#16 2#16 [0x21#8, 0xF9#8, 4#8, 0#8, 0#8, 0#8, 0#8, 1#8]) =
      .fault (.unspecGceTerminator t)) ∧
    (∃ t, step { atCode 1#16 [1#8, 7#8, 0#8] with lzw := { engineInit 2 [] with prevCode := some 1 } } =
      .fault (.unspecCode t)) ∧
    (∃ t, step { atCode 1#16 [1#8, 3#8, 0#8] with gpal := [red, green] } = .fault (.unspecPaletteIndex t)) ∧
    ∃ t, step { waiting .ready 5 [] with gpal := [] } = .fault (.unspecBackgroundIndex t) :=
  ⟨⟨_, rfl⟩, ⟨_, rfl⟩, ⟨_, rfl⟩, ⟨_, rfl⟩, ⟨_, rfl⟩, ⟨_, rfl⟩⟩
/-- Twelve bytes, and thirteen with a signature that is neither. -/
theorem witness_InvalidHeaderExactly :
    ((atHeader (hdr2.take 12)).control = .header ∧ (atHeader (hdr2.take 12)).len < 13) ∧
    (∀ v, ((atHeader (0#8 :: hdr2.take 12)).bytesFrom 0).take 6 ≠ encodeSignature (some v)) ∧
    ∃ t, step (atHeader (hdr2.take 12)) = .next t ∧ (atHeader (hdr2.take 12)).phase ≠ t.phase ∧
      t.phase = .failed (.error .invalidHeader) :=
  ⟨by decide, fun v => by cases v <;> decide, _, rfl, by decide, rfl⟩
theorem witness_UnexpectedBlockExactly :
    (atBlock 1#16 1#16 [0x2D#8]).control = .block ∧ (atBlock 1#16 1#16 [0x2D#8]).byteAt? 0 = some 0x2D#8 ∧
    (0x2D#8 : Byte) ≠ 0x2C#8 ∧ (0x2D#8 : Byte) ≠ 0x21#8 ∧ (0x2D#8 : Byte) ≠ 0x3B#8 := by decide
/-- A palette of two, no palette, a palette cut short, and the two ways to have no version. -/
theorem witness_ParseHeaderWritesScreen :
    (screen1.version = some .gif89a ∧
      pal2.length = if screen1.flags.getLsbD 7 then 2 ^ ((screen1.flags.extractLsb' 0 3).toNat + 1) else 0) ∧
    (([] : List Rgb).length =
      if (0x77#8 : Byte).getLsbD 7 then 2 ^ (((0x77#8 : Byte).extractLsb' 0 3).toNat + 1) else 0) ∧
    screen1.flags.getLsbD 7 = true ∧
    (some { screen1 with version := none }).map (fun x : Screen => x.version) = some none := by decide
theorem witness_BlockLoopTruncated :
    ((atBlock 1#16 1#16 []).control = .block ∧ (atBlock 1#16 1#16 []).len ≤ (atBlock 1#16 1#16 []).pos) ∧
    (atBlock 1#16 1#16 [0x21#8]).byteAt? 0 = some 0x21#8 ∧ (atBlock 1#16 1#16 [0x21#8]).len = 0 + 1 := by
  decide
/-- The lowest min_code_size, without a palette and interlaced over the whole screen height. -/
theorem witness_ImageBeginsFrame :
    ∃ (s : State) (d : ImageDesc) (p : List Rgb) (v : Byte), d.width ≠ 0#16 ∧ d.height ≠ 0#16 ∧
      p.length = (if d.flags.getLsbD 7 then 2 ^ ((d.flags.extractLsb' 0 3).toNat + 1) else 0) ∧ v.toNat = 2 ∧
      d.flags.getLsbD 6 = true ∧ s.scr.W ≠ 0#16 ∧ d.top = 0#16 ∧ d.height = s.scr.H :=
  ⟨atBlock 1#16 2#16 [], ⟨0#16, 0#16, 1#16, 2#16, 0xC0#8⟩, pal2, 2#8, by decide⟩
/-- min_code_size 1, and each way an interlaced frame is partial. -/
theorem witness_ImageFaultsBeforeDisposal :
    desc1.width ≠ 0#16 ∧ desc1.height ≠ 0#16 ∧ (1#8 : Byte).toNat < 2 ∧ 2 ≤ (2#8 : Byte).toNat ∧
    (0x40#8 : Byte).getLsbD 6 = true ∧ (atBlock 0#16 1#16 []).scr.W = 0#16 ∧
    (⟨0#16, 1#16, 1#16, 1#16, 0x40#8⟩ : ImageDesc).top ≠ 0#16 ∧
    (⟨0#16, 0#16, 1#16, 1#16, 0x40#8⟩ : ImageDesc).height ≠ (atBlock 1#16 2#16 []).scr.H := by decide
theorem witness_ImageCutShortTruncated : descEmpty.flags.getLsbD 7 = true ∧
    pal2.length =
      (if descEmpty.flags.getLsbD 7 then 2 ^ ((descEmpty.flags.extractLsb' 0 3).toNat + 1) else 0) := by
  decide

theorem blocksOk_small : BlocksOk [[0x41#8], [0x42#8, 0x43#8]] := by unfold BlocksOk; decide
/-- The longest sub-block (R7). -/
theorem blocksOk_longest : BlocksOk [List.replicate 255 0#8] := by
  intro b hb
  rw [List.mem_singleton] at hb
  rw [hb, List.length_replicate]
  omega

theorem witness_EmptyImageIsSkipped :
    let s := atBlock 1#16 1#16 (0x2C#8 :: encodeDesc descEmpty ++ encodePalette pal2
      ++ [0#8, 1#8, 0x41#8, 2#8, 0x42#8, 0x43#8, 0#8, 0x3B#8])
    descEmpty.width = 0#16 ∧
      pal2.length =
        (if descEmpty.flags.getLsbD 7 then 2 ^ ((descEmpty.flags.extractLsb' 0 3).toNat + 1) else 0) ∧
      s.bytesFrom (s.pos + 11 + 3 * pal2.length) = encodeChain [[0x41#8], [0x42#8, 0x43#8]] ++ [0x3B#8] := by
  decide
theorem witness_ExtensionIsSkipped :
    let s := atBlock 1#16 1#16 [0x21#8, 0xFE#8, 1#8, 0x41#8, 2#8, 0x42#8, 0x43#8, 0#8, 0x3B#8]
    s.bytesFrom (s.pos + 2) = encodeChain [[0x41#8], [0x42#8, 0x43#8]] ++ [0x3B#8] ∧
    (atBlock 1#16 1#16 [0x21#8, 0xFE#8, 0#8]).bytesFrom 2 = encodeChain [] ++ [] := by decide
/-- The buffer ends after the blocks, and a length one more than what is left, for each of the three. -/
theorem witness_BrokenChainRaises :
    let blocks : List Bytes := [[0x41#8], [0x42#8, 0x43#8]]
    let ext (rest : Bytes) := atBlock 1#16 1#16 ([0x21#8, 0xFE#8] ++ encodeBlocks blocks ++ rest)
    let code : State := { atCode 1#16 ([1#8, 0x05#8] ++ encodeBlocks blocks) with
      pos := 1, reader := ⟨1, 0, 0⟩ }
    let img := atBlock 1#16 1#16 (0x2C#8 :: encodeDesc descEmpty ++ encodePalette pal2
      ++ [0#8] ++ encodeBlocks blocks ++ [2#8, 0x44#8])
    ((ext []).bytesFrom ((ext []).pos + 2) = encodeBlocks blocks ++ [] ∧ (ext []).pos + 2 ≤ (ext []).len) ∧
    (ext [2#8, 0x44#8]).bytesFrom 2 = encodeBlocks blocks ++ 2#8 :: [0x44#8] ∧
    (code.bytesFrom (code.pos + code.reader.sbRem) = encodeBlocks blocks ++ [] ∧
      code.pos + code.reader.sbRem ≤ code.len) ∧
    (img.bytesFrom (img.pos + 11 + 3 * pal2.length) = encodeBlocks blocks ++ 2#8 :: [0x44#8] ∧
      img.pos + 11 + 3 * pal2.length ≤ img.len) ∧
    (2#8 : Byte) ≠ 0#8 ∧ [0x44#8].length + 1 = (2#8 : Byte).toNat := by decide
theorem witness_GceWritesGraphicControl :
    (⟨4#8, 0#8, 0#16, 0#8, 0#8⟩ : GceBody).terminator = 0#8 ∧
    (⟨4#8, 0#8, 0#16, 0#8, 1#8⟩ : GceBody).terminator ≠ 0#8 := by decide

/-- A reader with 2 bits left over, one byte of its sub-block, and one more sub-block. -/
def reading (rest : Bytes) : State :=
  { atCode 1#16 ([0x41#8, 1#8, 0x42#8] ++ rest) with reader := ⟨1, 3, 2⟩ }

theorem reading_inChain (rest : Bytes)
    (h : (reading rest).bytesFrom 0 = [0x41#8] ++ encodeBlocks [[0x42#8]] ++ rest) :
    InChain (reading rest) [0x41#8] [[0x42#8]] rest :=
  ⟨(by decide : 3 < 2 ^ 2), rfl, by unfold BlocksOk; decide, h⟩

/-- All 18 bits that are left. -/
theorem witness_ReadCodeTakesNextBits : InChain (reading [0#8]) [0x41#8] [[0x42#8]] [0#8] ∧
    (reading [0#8]).pendingBits [0x41#8] [[0x42#8]] = 18 := ⟨reading_inChain _ (by decide), by decide⟩
/-- One bit more than is left, in front of the end of the buffer, the terminator, and a sub-block that
lacks one byte. -/
theorem witness_ReadCodeShortOfBitsRaises :
    InChain (reading []) [0x41#8] [[0x42#8]] [] ∧ InChain (reading [0#8]) [0x41#8] [[0x42#8]] [0#8] ∧
    InChain (reading [2#8, 9#8]) [0x41#8] [[0x42#8]] [2#8, 9#8] ∧ (reading []).pos ≤ (reading []).len ∧
    (reading []).pendingBits [0x41#8] [[0x42#8]] < 19 ∧ [9#8].length + 1 = (2#8 : Byte).toNat :=
  ⟨reading_inChain _ (by decide), reading_inChain _ (by decide), reading_inChain _ (by decide), by decide,
    by decide, by decide⟩
/-- The codes of IMG1, cut after their first byte. -/
theorem witness_PackedCodesReadBack :
    let s := atCode 1#16 [1#8, 0x4C#8, 1#8, 0x01#8, 0#8, 0x3B#8]
    s.reader = ⟨0, 0, 0⟩ ∧ s.bytesFrom s.pos = encodeChain [[0x4C#8], [0x01#8]] ++ [0x3B#8] ∧
    [[0x4C#8], [0x01#8]].flatten = packCodes [(4, 3), (1, 3), (5, 3)] ∧
    ∀ x ∈ [(4, 3), (1, 3), (5, 3)], x.1 < 2 ^ x.2 := by decide
theorem witness_EndSkipsResidual :
    let s : State := { atCode 1#16 [3#8, 0x2C#8, 0x0A#8, 0x0B#8, 1#8, 0xFF#8, 0#8] with
      pos := 2, reader := ⟨2, 0, 2⟩ }
    s.bytesFrom (s.pos + s.reader.sbRem) = encodeChain [[0xFF#8]] ++ [] := by decide
/-- The last palette entry, and an index beyond the palette that is transparent; a full dictionary. -/
theorem witness_DictEmitsAndAdds :
    let s : State := { atCode 4#16 [] with
      gc := ⟨0#16, some 9#8, .noneD⟩
      lzw := { engineInit 2 [(6, [3, 9])] with size := 4096, prevCode := some 6 } }
    Dict.wf s.lzw.dict = true ∧ s.lzw.entry 6 = [3, 9] ∧
    ∀ i ∈ s.lzw.entry 6, i < s.activePalette.length ∨ s.gc.tidx.map BitVec.toNat = some i := by decide
/-- The last entry that can be added. -/
theorem witness_KwkwkEmitsAndDefines :
    let s : State := { atCode 4#16 [] with
      lzw := { engineInit 2 [(6, [3, 0])] with size := 4095, prevCode := some 6 } }
    Dict.wf s.lzw.dict = true ∧ s.lzw.prevCode = some 6 ∧ s.lzw.size < 4096 ∧
    ∀ i ∈ s.lzw.entry 6 ++ [(s.lzw.entry 6).headD 0],
      i < s.activePalette.length ∨ s.gc.tidx.map BitVec.toNat = some i := by decide
/-- The first index beyond a palette of four, after one that is placed. -/
theorem witness_PaletteFaultEndsCode :
    let s : State := { atCode 4#16 [] with lzw := { engineInit 2 [(6, [3, 4])] with size := 7 } }
    s.lzw.entry 6 = [3] ++ 4 :: [] ∧ s.gc.tidx.map BitVec.toNat ≠ some 4 ∧ s.activePalette.length = 4 ∧
    ∃ t, emitAll [3] s = .ok () t ∧ t.cur.cy < t.cur.yLimit ∧ t.cur.cx < t.cur.safeEnd :=
  ⟨by decide, by decide, by decide, _, rfl, by decide, by decide⟩
theorem witness_NoneAndKeepAliasPrevious :
    ∃ i j : Instr, i = .disposeNone ∧ j = .disposeKeep := ⟨_, _, rfl, rfl⟩
theorem witness_RestorePreviousCopiesSnapshot :
    let s := atDispose .restorePrev [red, red] .same
    s.canvas.prev = .same ∧ (atDispose .restorePrev [red, red] (.snap [green, red])).canvas.prev ≠ .same ∧
    ∃ t u v, exec .disposeRestorePrev s = .next t ∧ u.canvas.prev = t.canvas.prev ∧
      exec .disposeRestorePrev u = .next v :=
  ⟨rfl, by decide, _, atDispose .restorePrev [blue, red] (.snap [red, red]), _, rfl, rfl, rfl⟩
theorem witness_CursorStartsAtRectangle : { framed with control := .cursor }.control = .cursor := rfl
/-- Below the stop row and at it, in the last column and the first one clipped, the last index of the
palette and the first beyond it. -/
theorem witness_PlaceWritesOnePixel :
    let s (cx cy : Nat) : State := { atCode 4#16 [] with cur := ⟨cx, cy, 6, 4, 1⟩ }
    (s 0 1).cur.yLimit ≤ (s 0 1).cur.cy ∧ (s 4 0).cur.cy < (s 4 0).cur.yLimit ∧
    (s 4 0).cur.safeEnd ≤ (s 4 0).cur.cx ∧ (s 3 0).cur.cx < (s 3 0).cur.safeEnd ∧
    (s 3 0).gc.tidx.map BitVec.toNat ≠ some 3 ∧ (s 3 0).activePalette[3]? = some black ∧
    (s 3 0).activePalette.length ≤ 4 := by decide
/-- Two indices of a 2 × 1 frame, the second one transparent. -/
theorem witness_FrameIsDrawnRowMajor :
    let s : State := { framed with gc := ⟨0#16, some 2#8, .keep⟩ }
    s.img.width ≠ 0#16 ∧ s.canvas.output.length = s.canvasSize ∧
    (∃ t, emitAll [1, 2] (cursorInit Config.vclipLimit s) = .ok () t) ∧
    (s.img.columnOf 0 < s.scr.W.toNat ∧ s.img.rowOf 0 < yLimitOf Config.vclipLimit s ∧
      s.gc.tidx.map BitVec.toNat ≠ some 1) ∧
    s.img.columnOf 1 = 1 ∧ s.img.rowOf 1 = 0 ∧ s.gc.tidx.map BitVec.toNat = some 2 := by
  generalize Config.vclipLimit = v
  cases v <;> exact ⟨by decide, by decide, ⟨_, rfl⟩, by decide, by decide⟩
theorem witness_OidxNumbersScreen : (1 : Nat) < 2 ∧ (0 : Nat) < 1 ∧ oidx 2 1 1 0 = 1 := by decide
theorem witness_DeinterlaceMovesRows :
    let s : State := { framed with scr := ⟨.gif89a, 1#16, 2#16, true, 1#3, 0#8⟩ }
    s.canvas.output.length = s.canvasSize ∧ (passOrder s.scr.H.toNat)[1]? = some 1 ∧ 0 < s.scr.W.toNat := by
  decide
theorem witness_FrameIsEmitted : { framed with control := .emit }.control = .emit := rfl
theorem witness_OnlyConstructWritesBuffer :
    (∃ t, exec .trailer (atBlock 1#16 1#16 [0x3B#8]) = .next t) ∧
    ∃ t, step (atBlock 1#16 1#16 [0x3B#8]) = .next t ∧ (atBlock 1#16 1#16 [0x3B#8]).inbox = [] :=
  ⟨⟨_, rfl⟩, _, rfl, rfl⟩
theorem witness_HeaderNeverMutates : ∃ t, step (waiting .ready 1 []) = .next t ∧
    (waiting .ready 1 []).control ≠ .header ∧ (waiting .ready 1 []).inbox = [⟨1, []⟩] :=
  ⟨_, rfl, by decide, rfl⟩
theorem witness_PosNeverMovesBack : Machine.Inv coding ∧ (∃ t, step coding = .next t) ∧
    coding.control ≠ .idle := ⟨coding_inv, ⟨_, rfl⟩, by decide⟩
theorem witness_OnlyGceWritesGraphicControl : ∃ t, exec (.extSkip 1#8)
    (atBlock 1#16 1#16 [0x21#8, 1#8, 0#8]) = .next t := ⟨_, rfl⟩
theorem witness_CanvasPersists : (∃ t, exec .clear framed = .next t) ∧ framed.canvas.written = true :=
  ⟨⟨_, rfl⟩, rfl⟩
/-- One token of each kind that completes. -/
theorem witness_BlockTokensKeepTheRest :
    (∃ t, exec (.image (some desc1) (some []) (some 2#8)) (atBlock 1#16 1#16 img1) = .next t) ∧
    (∃ t, exec (.imageEmpty descEmpty (some pal2) (some 2#8))
      (atBlock 1#16 1#16 (List.replicate 18 0#8)) = .next t) ∧
    (∃ t, exec (.extGce (some ⟨4#8, 0#8, 0#16, 0#8, 0#8⟩)) (atBlock 1#16 1#16 []) = .next t) ∧
    ∃ t, exec (.extSkip 1#8) (atBlock 1#16 1#16 [0x21#8, 1#8, 0#8]) = .next t :=
  ⟨⟨_, rfl⟩, ⟨_, rfl⟩, ⟨_, rfl⟩, ⟨_, rfl⟩⟩
theorem witness_CodesKeepTheRest :
    (∃ t, exec (.dict 1) (atCode 4#16 []) = .next t) ∧
    (∃ t, exec (.kwkwk 6) { atCode 4#16 [] with lzw := { engineInit 2 [] with prevCode := some 1 } } =
      .next t) ∧
    ∃ t, exec .endCode (atCode 4#16 [0#8]) = .next t := ⟨⟨_, rfl⟩, ⟨_, rfl⟩, ⟨_, rfl⟩⟩

end Sys2Proof.Tests
end

section
/-! PROOFS. The statements about the state as a whole: its value after reset (R38, R380), the invariant
of Sys2Proof/Safety.lean under every step, and which steps write the header registers (R25), `pos` (R21)
and the graphic control registers (R29). -/

namespace Sys2Proof

/-- The instructions other than PARSE_HEADER (R220), EXT_GCE (R223) and CONSTRUCT (R310). -/
def Instr.isSteady : Instr → Bool
  | .parseHeader _ _ => false
  | .extGce _ => false
  | .construct _ => false
  | _ => true

end Sys2Proof

namespace Sys2Proof.Machine

/-! ## Reset -/

/-- Settles O7: every value is the one `State.reset` is given, and over an empty buffer no offset has a
byte. -/
theorem resetStateHoldsGivenValues : Obligations.ResetStateHoldsGivenValues :=
  ⟨rfl, rfl, rfl, rfl, rfl, rfl, fun p => State.byteAt?_eq_none.mpr (Nat.zero_le p), rfl⟩

/-! ## The invariant, place by place -/

/-- The bytes ahead of `pos` end at the end of the buffer (R21, R71). -/
theorem pos_add_bytesFrom_length {s : State} (h : BufferOk s) :
    s.pos + (s.bytesFrom s.pos).length = s.len := by
  have := h.pos_le
  rw [State.bytesFrom_length]
  omega

/-- A host command taken at an idle point keeps the invariant (R310 to R316). -/
theorem inv_command {s t : State} {n : Nat} {bytes : Bytes} {i : Instr} (h : Inv s)
    (hc : s.control = .idle) (hd : decodeCommand n bytes = .ok i) (ht : exec i s = .next t) : Inv t := by
  rcases decodeCommand_cases n bytes with ⟨-, e⟩ | ⟨-, e⟩ | ⟨-, e⟩ | ⟨-, e⟩ | ⟨-, e⟩ | ⟨-, e⟩ | ⟨-, e⟩ | ⟨-, e⟩ <;>
    cases e.symm.trans hd
  · exact inv_execConstruct h ht
  · exact inv_nextFrame h ht
  · exact Host.Outcome.next.inj ht ▸ inv_attributeRead h (by simp)
  · exact Host.Outcome.next.inj ht ▸ inv_attributeRead h (by simp)
  · exact Host.Outcome.next.inj ht ▸ inv_attributeRead h (by simp)
  · exact inv_getBackgroundColor h ht
  · exact inv_release h hc ht

/-- PARSE_HEADER read from offset 0 keeps the invariant (R220). -/
theorem inv_header {s t : State} (h : Inv s) (hc : s.control = .header)
    (ht : exec (decodeHeader (s.bytesFrom 0)) s = .next t) : Inv t := by
  have hw := decodeHeader_within (s.bytesFrom 0)
  obtain ⟨screen, gpal, e⟩ := decodeHeader_kind (s.bytesFrom 0)
  rw [e, State.bytesFrom_length] at hw
  rw [e] at ht
  exact inv_parseHeader h hc hw ht

/-- A block token read at `pos` keeps the invariant (R222 to R226, R229). -/
theorem inv_blockToken {s t : State} {i : Instr} (h : Inv s) (hc : s.control = .block)
    (hd : decodeBlock (s.bytesFrom s.pos) = .ok i) (ht : exec i s = .next t) : Inv t := by
  have hn := pos_add_bytesFrom_length h.buffer
  have hw := decodeBlock_within hd
  have hi := h.atBlock hc
  rcases decodeBlock_kind hd with ⟨d, p, v, rfl⟩ | ⟨d, p, v, rfl⟩ | ⟨b, rfl⟩ | ⟨l, rfl⟩ | rfl | ⟨b, rfl⟩
  · exact inv_image hi hn hw ht
  · exact inv_imageEmpty hi hn hw ht
  · exact inv_extGce hi hn hw ht
  · exact inv_extSkip hi hn hw ht
  · exact inv_trailer hi hn hw ht
  · exact inv_unexpected hi hn hw ht

/-- The disposal selector of a frame keeps the invariant (R263 to R266). -/
theorem inv_dispose {s t : State} (h : InFrame s)
    (ht : exec (decodeSelector s.gc.disposal.selector) s = .next t) : Inv t := by
  rw [decodeSelector_selector] at ht
  cases hd : s.gc.disposal <;> rw [hd] at ht <;> obtain rfl := Host.Outcome.next.inj ht
  case noneD => exact inv_aliasPrev h
  case keep => exact inv_aliasPrev h
  case restoreBg => exact inv_restoreBackground _ h
  case restorePrev => exact inv_restorePrevious h

/-- A data code is neither of the engine's two reserved codes (R115, R191). -/
theorem ne_reserved_of_isData {s : State} {c : Nat} (he : EngineOk s.lzw)
    (hd : s.codeContext.isData c = true) : c ≠ s.lzw.clearCode ∧ c ≠ s.lzw.endCode := by
  simp only [CodeContext.isData, State.codeContext, clearCodeOf, endCodeOf, Bool.and_eq_true,
    bne_iff_ne] at hd
  rwa [he.clear_eq, he.end_eq]

/-- A code of at most 12 bits, classified and run, keeps the invariant (R182 to R187). -/
theorem inv_code {s t : State} {c : Nat} (h : Inv s) (hc : s.control = .code) (hlt : c < 4096)
    (ht : exec (decodeCode s.codeContext c) s = .next t) : Inv t := by
  have he : EngineOk s.lzw := h.engine (by rw [hc]; rfl)
  rcases decodeCode_cases s.codeContext c with ⟨e, -⟩ | ⟨e, -⟩ | ⟨e, hd, hs⟩ | ⟨e, -⟩ | ⟨e, hd, hs, -⟩ | ⟨e, -⟩ <;>
    rw [e] at ht
  · exact inv_clear h hc ht
  · exact inv_endCode h hc ht
  · obtain ⟨h1, h2⟩ := ne_reserved_of_isData he hd
    exact inv_dict h hc hs h1 h2 ht
  · exact Host.Outcome.next.inj ht ▸ h
  · obtain ⟨h1, h2⟩ := ne_reserved_of_isData he hd
    exact inv_kwkwk h hc hs hlt h1 h2 ht
  · cases ht

/-- A code that cannot be read leaves a state of the invariant (R151, R347). -/
theorem inv_readCode_error {s t : State} {k : ErrorKind} (h : Inv s) (hc : s.control = .code)
    (hr : readCode s.lzw.width s = .trap (.error k) t) : Inv (takeError k t) := by
  have hm := readCode_move s.lzw.width s
  have hp := readCode_pos_le (n := s.lzw.width) (h.reader hc)
  rw [hr] at hm hp
  exact inv_takeError k (kept_readerMove h.kept hm hp)

/-- A missing label is reported behind the introducer that was read (R221, decision D40). -/
theorem inv_noLabel {s : State} (h : Inv s) (hc : s.control = .block) (hb : s.bytesFrom s.pos = [0x21#8]) :
    Inv (takeError .truncated (s.advance 1)) :=
  inv_takeError _ ((h.atBlock hc).advance (State.bytesFrom_eq_cons hb).1).kept

/-- Settles O9: at each place of a command, what the step can be there keeps the invariant. -/
theorem stepKeepsInv : Obligations.StepKeepsInv := by
  intro s t h ht
  rcases step_next_cases ht with ⟨-, -, rfl⟩ | ⟨w, ws, i, hc, -, hd, he⟩ | ⟨i, hc, rfl, he⟩ | ⟨i, hc, hd, he⟩ |
    ⟨-, -, rfl⟩ | ⟨hc, hb, rfl⟩ | ⟨hc, he⟩ | ⟨hc, rfl⟩ | ⟨hc, rfl⟩ | ⟨c, u, hc, hr, he⟩ | ⟨k, u, hc, hr, rfl⟩
  · exact h
  · exact inv_command (inv_inbox ws h) hc hd he
  · exact inv_header h hc he
  · exact inv_blockToken h hc hd he
  · exact inv_takeError _ h.kept
  · exact inv_noLabel h hc hb
  · exact inv_dispose (h.inFrame (by rw [hc]; rfl)) he
  · exact inv_startCodes (h.inFrame (by rw [hc]; rfl))
  · exact inv_finishFrame (h.inFrame (by rw [hc]; rfl))
  · obtain ⟨hu, huc, -, -, hlt⟩ := inv_readCode h hc hr
    exact inv_code hu huc hlt he
  · exact inv_readCode_error h hc hr

/-! ## What only CONSTRUCT, PARSE_HEADER and EXT_GCE write -/

/-- The header registers, the global palette and the graphic control registers are the same, and `pos`
did not go back. -/
structure Steady (s t : State) : Prop where
  scr    : t.scr = s.scr
  gpal   : t.gpal = s.gpal
  gc     : t.gc = s.gc
  pos_le : s.pos ≤ t.pos

theorem Steady.refl (s : State) : Steady s s := ⟨rfl, rfl, rfl, le_refl _⟩

theorem Steady.trans (a b c : State) (h : Steady a b) (k : Steady b c) : Steady a c :=
  ⟨k.scr.trans h.scr, k.gpal.trans h.gpal, k.gc.trans h.gc, h.pos_le.trans k.pos_le⟩

/-- From a frame equation `t = u`, where `u` is `s` with the fields that may differ taken from `t`. -/
theorem Steady.of_frame {s t u : State} (h : t = u) (hu : Steady s u) : Steady s t := h ▸ hu

theorem Steady.advance (s : State) (n : Nat) : Steady s (s.advance n) :=
  ⟨rfl, rfl, rfl, Nat.le_add_right _ _⟩

theorem Steady.takeError {s t : State} (h : Steady s t) (k : ErrorKind) : Steady s (takeError k t) :=
  ⟨h.scr, h.gpal, h.gc, h.pos_le⟩

/-- An operation's step is steady when the operation is, completed or stopped. -/
theorem Steady.finish {s t : State} {r : Result Unit} (h : Steady s r.state) (ht : r.finish = .next t) :
    Steady s t := by
  rcases Result.finish_state ht with rfl | ⟨k, rfl⟩
  · exact h
  · exact h.takeError k

theorem ReaderMove.steady {s t : State} (h : ReaderMove s t) : Steady s t :=
  .of_frame h.frame ⟨rfl, rfl, rfl, h.pos_le⟩

/-- The operands of an image, complete or cut short, move `pos` forward (R222). -/
theorem beginImage_pos_le (d : Option ImageDesc) (p : Option (List Rgb)) (v : Option Byte) (s : State) :
    s.pos ≤ (beginImage d p v s).state.pos := by
  cases d with
  | none => exact Nat.le_add_right _ _
  | some d =>
    simp only [beginImage, readLocalPalette]
    split
    · cases p <;> cases v <;> simp [readPalette] <;> omega
    · cases v <;> simp; omega

theorem beginImage_steady (d : Option ImageDesc) (p : Option (List Rgb)) (v : Option Byte) (s : State) :
    Steady s (beginImage d p v s).state :=
  .of_frame (beginImage_frame d p v s) ⟨rfl, rfl, rfl, beginImage_pos_le d p v s⟩

/-- DECODE_FRAME up to DISPOSE does not move `pos` (R180, R230, R261, R274). -/
theorem beginFrame_pos (v : Byte) (s : State) : (beginFrame v s).state.pos = s.pos := by
  simp only [beginFrame, lzwInit]
  split
  · rfl
  · simp only [Result.bind_ok, interlaceCheck]
    split
    · rfl
    · exact firstAlloc_pos _

theorem beginFrame_steady (v : Byte) (s : State) : Steady s (beginFrame v s).state :=
  .of_frame (beginFrame_frame v s).1 ⟨rfl, rfl, rfl, (beginFrame_pos v s).ge⟩

theorem imageBody_steady (v : Byte) (s : State) : Steady s (imageBody v s).state := by
  unfold imageBody
  split
  · exact (skipChain_move s).steady
  · exact Steady.trans s (selectPalette s) _ ⟨rfl, rfl, rfl, le_refl _⟩ (beginFrame_steady v _)

/-- SKIP_RESIDUAL, whole or stopped (R154). -/
theorem skipResidual_steady (s : State) : Steady s (skipResidual s).state :=
  (ReaderMove.trans _ _ _ (ReaderMove.mk' s _ _ (Nat.le_add_right _ _)) (skipChain_move _)).steady

/-- Every instruction but those three keeps the header registers, the global palette and the graphic
control registers, and moves `pos` nowhere or forward (R21, R25, R26, R29). -/
theorem exec_steady {i : Instr} {s t : State} (hi : i.isSteady = true) (ht : exec i s = .next t) :
    Steady s t := by
  cases i with
  | parseHeader h p => cases hi
  | extGce b => cases hi
  | construct b => cases hi
  | image d p v =>
    exact .finish (Result.bind_state Steady.trans (beginImage_steady d p v s) fun b u _ =>
      imageBody_steady b u) ht
  | imageEmpty d p v =>
    exact .finish (Result.bind_state Steady.trans (beginImage_steady (some d) p v s) fun _ u _ =>
      (skipChain_move u).steady) ht
  | extSkip l => exact .finish (Steady.trans _ _ _ (.advance s 2) (skipChain_move _).steady) ht
  | trailer => exact Host.Outcome.next.inj ht ▸ ⟨rfl, rfl, rfl, Nat.le_add_right _ _⟩
  | unexpected b => exact Host.Outcome.next.inj ht ▸ (Steady.advance s 1).takeError _
  | endCode =>
    exact .finish (Result.bind_state Steady.trans (skipResidual_steady s) fun _ _ _ =>
      ⟨rfl, rfl, rfl, le_refl _⟩) ht
  | dict c => exact .of_frame (code_frame ht (.inl ⟨c, rfl⟩)).1 ⟨rfl, rfl, rfl, le_refl _⟩
  | kwkwk c => exact .of_frame (code_frame ht (.inr ⟨c, rfl⟩)).1 ⟨rfl, rfl, rfl, le_refl _⟩
  | skip c => exact Host.Outcome.next.inj ht ▸ .refl s
  | unspecCode c => cases ht
  | clear | disposeNone | disposeKeep | disposeRestoreBg =>
    exact Host.Outcome.next.inj ht ▸ ⟨rfl, rfl, rfl, le_refl _⟩
  | disposeRestorePrev =>
    exact Host.Outcome.next.inj ht ▸ .of_frame
      (congrArg (State.goto · .cursor) (restorePrevious_frame s)) ⟨rfl, rfl, rfl, le_refl _⟩
  | nextFrame | getVersion | getWidth | getHeight | getBackgroundColor =>
    exact .of_frame (host_frame ht (by simp)) ⟨rfl, rfl, rfl, le_refl _⟩
  | release => exact .of_frame (release_frame ht) ⟨rfl, rfl, rfl, le_refl _⟩

/-- Settles O57: PARSE_HEADER keeps the graphic control registers by its frame, every instruction other
than EXT_GCE and CONSTRUCT by `exec_steady`. -/
theorem onlyGceWritesGraphicControl : Obligations.OnlyGceWritesGraphicControl := by
  intro i s t ht hgce hconstruct
  cases i with
  | parseHeader h p => rw [header_frame ht]
  | extGce b => exact absurd rfl (hgce b)
  | construct b => exact absurd rfl (hconstruct b)
  | _ => exact (exec_steady rfl ht).gc

/-! ## Steps away from the header position -/

/-- Of the host commands only number 0 is CONSTRUCT (decision D39). -/
theorem decodeCommand_isSteady {n : Nat} {bytes : Bytes} {i : Instr} (hn : n ≠ 0)
    (hd : decodeCommand n bytes = .ok i) : i.isSteady = true := by
  unfold decodeCommand at hd
  split at hd
  · exact absurd rfl hn
  all_goals cases hd <;> rfl

theorem decodeSelector_isSteady (d : Disposal) : (decodeSelector d.selector).isSteady = true := by
  cases d <;> rfl

theorem decodeCode_isSteady (k : CodeContext) (c : Nat) : (decodeCode k c).isSteady = true := by
  rcases decodeCode_cases k c with ⟨e, -⟩ | ⟨e, -⟩ | ⟨e, -⟩ | ⟨e, -⟩ | ⟨e, -⟩ | ⟨e, -⟩ <;> rw [e] <;> rfl

/-- EXT_GCE is the one block token that writes these registers (R223). -/
theorem decodeBlock_isSteady {bs : Bytes} {i : Instr} (hd : decodeBlock bs = .ok i) :
    i.isSteady = true ∨ ∃ b, i = .extGce b := by
  rcases decodeBlock_kind hd with ⟨d, p, v, rfl⟩ | ⟨d, p, v, rfl⟩ | h | ⟨l, rfl⟩ | rfl | ⟨b, rfl⟩
  · exact .inl rfl
  · exact .inl rfl
  · exact .inr h
  all_goals exact .inl rfl

theorem finishFrame_steady (s : State) : Steady s (finishFrame s) := by
  unfold finishFrame
  split <;> exact ⟨rfl, rfl, rfl, le_refl _⟩

/-- A step that is not at the header position and takes no CONSTRUCT is steady, or runs an EXT_GCE. -/
theorem step_steady {s t : State} (ht : step s = .next t) (hh : s.control ≠ .header)
    (hn : ∀ w ws, s.control = .idle → s.inbox = w :: ws → w.number ≠ 0) :
    Steady s t ∨ ∃ b, execExtGce b s = .next t := by
  rcases step_next_cases ht with ⟨-, -, rfl⟩ | ⟨w, ws, i, hc, hw, hd, he⟩ | ⟨i, hc, -⟩ | ⟨i, -, hd, he⟩ |
    ⟨-, -, rfl⟩ | ⟨-, -, rfl⟩ | ⟨-, he⟩ | ⟨-, rfl⟩ | ⟨-, rfl⟩ | ⟨c, u, -, hr, he⟩ | ⟨k, u, -, hr, rfl⟩
  · exact .inl (.refl _)
  · have hs := exec_steady (decodeCommand_isSteady (hn w ws hc hw) hd) he
    exact .inl ⟨hs.scr, hs.gpal, hs.gc, hs.pos_le⟩
  · exact absurd hc hh
  · rcases decodeBlock_isSteady hd with hi | ⟨b, rfl⟩
    · exact .inl (exec_steady hi he)
    · exact .inr ⟨b, he⟩
  · exact .inl ((Steady.refl s).takeError _)
  · exact .inl ((Steady.advance s 1).takeError _)
  · exact .inl (exec_steady (decodeSelector_isSteady _) he)
  · exact .inl ⟨rfl, rfl, rfl, le_refl _⟩
  · exact .inl (finishFrame_steady s)
  · have hs := (readCode_move s.lzw.width s).steady
    rw [hr] at hs
    exact .inl (Steady.trans _ _ _ hs (exec_steady (decodeCode_isSteady _ c) he))
  · have hs := (readCode_move s.lzw.width s).steady
    rw [hr] at hs
    exact .inl (hs.takeError k)

/-- Settles O55: a step away from the header position is steady, or an EXT_GCE, whose frame holds both. -/
theorem headerNeverMutates : Obligations.HeaderNeverMutates := by
  intro s t ht hh hn
  rcases step_steady ht hh hn with hs | ⟨b, hb⟩
  · exact ⟨hs.scr, hs.gpal⟩
  · rw [extGce_frame hb]
    exact ⟨rfl, rfl⟩

/-- EXT_GCE moves `pos` forward, whether or not it is cut short (R223). -/
theorem extGce_pos_le {b : Option GceBody} {s t : State} (ht : execExtGce b s = .next t) :
    s.pos ≤ t.pos := by
  have hop : s.pos ≤ (extGce b s).state.pos := by
    cases b with
    | none => exact Nat.le_add_right _ _
    | some b =>
      simp only [extGce]
      split <;> exact Nat.le_add_right _ _
  rcases Result.finish_state ht with rfl | ⟨k, rfl⟩ <;> exact hop

/-- Settles O56: at the header position the decoder is fresh and `pos` is 0, elsewhere the step is steady
or an EXT_GCE; that `pos` stays inside the buffer is O9. -/
theorem posNeverMovesBack : Obligations.PosNeverMovesBack := by
  intro s t h ht hn
  refine ⟨?_, (stepKeepsInv s t h ht).buffer.pos_le⟩
  by_cases hc : s.control = .header
  · rw [h.phase.fresh_pos (h.phase.header_fresh hc)]
    exact Nat.zero_le _
  · rcases step_steady ht hc hn with hs | ⟨b, hb⟩
    · exact hs.pos_le
    · exact extGce_pos_le hb

end Sys2Proof.Machine
end

section
/-! PROOFS. The statements about the two memories: the numbering of the canvas elements by OIDX (R75,
R278), and the input buffer, which is read only to every step but CONSTRUCT (R22, R70). -/

namespace Sys2Proof.Machine

/-! ## Canvas elements -/

/-- Canvas element `k` is the pixel in column `k mod W` of the row that stands `k div W` rows above the
bottom one (R75). -/
theorem oidx_onto {W H k : Nat} (hk : k < W * H) : ∃ x y, x < W ∧ y < H ∧ oidx W H x y = k := by
  have hW : 0 < W := Nat.pos_of_mul_pos_right (Nat.zero_lt_of_lt hk)
  have hrow : k / W < H := Nat.div_lt_of_lt_mul hk
  have hy : H - 1 - k / W < H := (Nat.sub_le _ _).trans_lt (Nat.sub_one_lt_of_lt hrow)
  refine ⟨k % W, H - 1 - k / W, Nat.mod_lt k hW, hy, ?_⟩
  calc oidx W H (k % W) (H - 1 - k / W)
      = k / W * W + k % W := by rw [oidx, Nat.sub_sub_self (Nat.le_sub_one_of_lt hrow)]
    _ = k := Nat.div_add_mod' k W

/-- Settles O50: OIDX is in range and one to one by its two lemmas, and onto by division with remainder. -/
theorem oidxNumbersScreen : Obligations.OidxNumbersScreen := fun _ _ =>
  ⟨fun _ _ hx hy => oidx_lt hx hy, fun _ _ _ _ hx hy hx' hy' h => oidx_inj hx hx' hy hy' h,
    fun _ hk => oidx_onto hk⟩

/-! ## Input buffer -/

/-- The input buffer and its length are the same. -/
structure SameBuffer (s t : State) : Prop where
  buf : t.buf = s.buf
  len : t.len = s.len

theorem SameBuffer.trans {s t u : State} (h : SameBuffer s t) (k : SameBuffer t u) : SameBuffer s u :=
  ⟨k.buf.trans h.buf, k.len.trans h.len⟩

/-- From a frame equation `t = u`, where `u` is `s` with the fields that may differ taken from `t`. -/
theorem SameBuffer.of_frame {s t u : State} (h : t = u) (hu : SameBuffer s u) : SameBuffer s t := h ▸ hu

/-- The same buffer has the same bytes, and ends at the same offset (R70, R71). -/
theorem SameBuffer.bytes {s t : State} (h : SameBuffer s t) :
    t.len = s.len ∧ ∀ p, t.byteAt? p = s.byteAt? p :=
  ⟨h.len, State.byteAt?_congr h.buf h.len⟩

theorem ReaderMove.sameBuffer {s t : State} (h : ReaderMove s t) : SameBuffer s t := ⟨h.buf, h.len⟩

/-- No frame but CONSTRUCT's has the buffer among the fields that may differ (R70). -/
theorem exec_sameBuffer {i : Instr} {s t : State} (ht : exec i s = .next t)
    (hi : ∀ b, i ≠ .construct b) : SameBuffer s t := by
  cases i with
  | construct b => exact absurd rfl (hi b)
  | parseHeader h p => exact .of_frame (header_frame ht) ⟨rfl, rfl⟩
  | image d p v => exact .of_frame (image_frame ht).1 ⟨rfl, rfl⟩
  | imageEmpty d p v => exact .of_frame (imageEmpty_frame ht) ⟨rfl, rfl⟩
  | extGce b => exact .of_frame (extGce_frame ht) ⟨rfl, rfl⟩
  | extSkip l => exact .of_frame (extSkip_frame (l := l) ht) ⟨rfl, rfl⟩
  | endCode => exact .of_frame (endCode_frame ht) ⟨rfl, rfl⟩
  | dict c => exact .of_frame (code_frame ht (.inl ⟨c, rfl⟩)).1 ⟨rfl, rfl⟩
  | kwkwk c => exact .of_frame (code_frame ht (.inr ⟨c, rfl⟩)).1 ⟨rfl, rfl⟩
  | unspecCode c => cases ht
  | trailer | unexpected | clear | skip | disposeNone | disposeKeep | disposeRestoreBg =>
    exact Host.Outcome.next.inj ht ▸ ⟨rfl, rfl⟩
  | disposeRestorePrev =>
    exact Host.Outcome.next.inj ht ▸ ⟨restorePrevious_buf s, restorePrevious_len s⟩
  | nextFrame | getVersion | getWidth | getHeight | getBackgroundColor =>
    exact .of_frame (host_frame ht (by simp)) ⟨rfl, rfl⟩
  | release => exact .of_frame (release_frame ht) ⟨rfl, rfl⟩

/-- CONSTRUCT is not among the steady instructions. -/
theorem ne_construct_of_isSteady {i : Instr} (hi : i.isSteady = true) (b : Bytes) : i ≠ .construct b := by
  rintro rfl
  cases hi

/-- No block token is CONSTRUCT, which is read from the host's queue alone (R106, decision D39). -/
theorem decodeBlock_ne_construct {bs : Bytes} {i : Instr} (hd : decodeBlock bs = .ok i) (b : Bytes) :
    i ≠ .construct b := by
  rcases decodeBlock_isSteady hd with hi | ⟨body, rfl⟩
  · exact ne_construct_of_isSteady hi b
  · exact Instr.noConfusion

theorem decodeHeader_ne_construct (bs b : Bytes) : decodeHeader bs ≠ .construct b := by
  obtain ⟨screen, gpal, e⟩ := decodeHeader_kind bs
  rw [e]
  exact Instr.noConfusion

theorem finishFrame_sameBuffer (s : State) : SameBuffer s (finishFrame s) := by
  unfold finishFrame
  split <;> exact ⟨rfl, rfl⟩

/-- A step that takes no CONSTRUCT from the host's queue keeps the buffer (R70). -/
theorem step_sameBuffer {s t : State} (ht : step s = .next t)
    (hn : ∀ w ws, s.control = .idle → s.inbox = w :: ws → w.number ≠ 0) : SameBuffer s t := by
  rcases step_next_cases ht with ⟨-, -, rfl⟩ | ⟨w, ws, i, hc, hw, hd, he⟩ | ⟨i, -, rfl, he⟩ | ⟨i, -, hd, he⟩ |
    ⟨-, -, rfl⟩ | ⟨-, -, rfl⟩ | ⟨-, he⟩ | ⟨-, rfl⟩ | ⟨-, rfl⟩ | ⟨c, u, -, hr, he⟩ | ⟨k, u, -, hr, rfl⟩
  · exact ⟨rfl, rfl⟩
  · obtain ⟨hbuf, hlen⟩ :=
      exec_sameBuffer he (ne_construct_of_isSteady (decodeCommand_isSteady (hn w ws hc hw) hd))
    exact ⟨hbuf, hlen⟩
  · exact exec_sameBuffer he (decodeHeader_ne_construct _)
  · exact exec_sameBuffer he (decodeBlock_ne_construct hd)
  · exact ⟨rfl, rfl⟩
  · exact ⟨rfl, rfl⟩
  · exact exec_sameBuffer he (ne_construct_of_isSteady (decodeSelector_isSteady _))
  · exact ⟨rfl, rfl⟩
  · exact finishFrame_sameBuffer s
  · have hm := (readCode_move s.lzw.width s).sameBuffer
    rw [hr] at hm
    exact hm.trans (exec_sameBuffer he (ne_construct_of_isSteady (decodeCode_isSteady _ c)))
  · have hm := (readCode_move s.lzw.width s).sameBuffer
    rw [hr] at hm
    exact ⟨hm.buf, hm.len⟩

/-- Settles O54: at instruction level by the frames, at step level by what each place of a command reads. -/
theorem onlyConstructWritesBuffer : Obligations.OnlyConstructWritesBuffer :=
  ⟨fun _ _ _ ht hi => (exec_sameBuffer ht hi).bytes, fun _ _ ht hn => (step_sameBuffer ht hn).bytes⟩

end Sys2Proof.Machine
end

section
/-! PROOFS. The statements about the encoding (spec/30_encoding.md): what each decoder and encoder gives,
and that they undo one another (R101 to R115). -/

namespace Sys2Proof

section

variable {k : CodeContext}

/-! ## The decoder at each place an instruction is read from -/

@[simp] theorem decode_header (b : Bytes) : decode k (.header b) = .ok (decodeHeader b) := rfl
@[simp] theorem decode_block (b : Bytes) : decode k (.block b) = decodeBlock b := rfl
@[simp] theorem decode_code (c : Nat) : decode k (.code c) = .ok (decodeCode k c) := rfl
@[simp] theorem decode_selector (d : BitVec 2) : decode k (.selector d) = .ok (decodeSelector d) := rfl
@[simp] theorem decode_command (n : Nat) (b : Bytes) : decode k (.command n b) = decodeCommand n b := rfl

@[simp] theorem FetchWord.followedBy_header (b tail : Bytes) :
    (FetchWord.header b).followedBy tail = .header (b ++ tail) := rfl
@[simp] theorem FetchWord.followedBy_block (b tail : Bytes) :
    (FetchWord.block b).followedBy tail = .block (b ++ tail) := rfl
@[simp] theorem FetchWord.followedBy_code (c : Nat) (tail : Bytes) :
    (FetchWord.code c).followedBy tail = .code c := rfl
@[simp] theorem FetchWord.followedBy_selector (d : BitVec 2) (tail : Bytes) :
    (FetchWord.selector d).followedBy tail = .selector d := rfl
@[simp] theorem FetchWord.followedBy_command (n : Nat) (b tail : Bytes) :
    (FetchWord.command n b).followedBy tail = .command n b := rfl

/-! ## Codes (R115) -/

theorem CodeContext.isData_iff {c : Nat} :
    k.isData c = true ↔ c ≠ clearCodeOf k.m ∧ c ≠ endCodeOf k.m := by
  simp [CodeContext.isData]

/-! The condition column of R115, row by row. -/

theorem Instr.fits_dict {c : Nat} : (Instr.dict c).fits k = true ↔ k.isData c = true ∧ c < k.size := by
  simp [Instr.fits]

theorem Instr.fits_kwkwk {c : Nat} :
    (Instr.kwkwk c).fits k = true ↔ k.isData c = true ∧ c = k.size ∧ k.prevCode.isSome = true := by
  simp [Instr.fits, and_assoc]

theorem Instr.fits_skip {c : Nat} :
    (Instr.skip c).fits k = true ↔ k.isData c = true ∧ k.size ≤ c ∧ k.prevCode = none := by
  simp [Instr.fits, and_assoc]

theorem Instr.fits_unspecCode {c : Nat} :
    (Instr.unspecCode c).fits k = true ↔ k.isData c = true ∧ k.size < c ∧ k.prevCode.isSome = true := by
  simp [Instr.fits, and_assoc]

/-- A code decodes to `i` exactly when `i` is encoded as that code and stands in its row of R115. -/
theorem decodeCode_eq_iff {c : Nat} {i : Instr} :
    decodeCode k c = i ↔ encode k i = .code c ∧ i.fits k = true := by
  constructor
  · rintro rfl
    rcases decodeCode_cases k c with ⟨e, rfl⟩ | ⟨e, rfl⟩ | ⟨e, h⟩ | ⟨e, h⟩ | ⟨e, h⟩ | ⟨e, h⟩ <;> rw [e]
    · exact ⟨rfl, rfl⟩
    · exact ⟨rfl, rfl⟩
    · exact ⟨rfl, Instr.fits_dict.mpr h⟩
    · exact ⟨rfl, Instr.fits_skip.mpr h⟩
    · exact ⟨rfl, Instr.fits_kwkwk.mpr h⟩
    · exact ⟨rfl, Instr.fits_unspecCode.mpr h⟩
  · rintro ⟨he, hf⟩
    cases i with
    | clear =>
      cases he
      exact if_pos rfl
    | endCode =>
      cases he
      simp [decodeCode, endCodeOf, clearCodeOf]
    | dict x =>
      cases he
      obtain ⟨hd, hs⟩ := Instr.fits_dict.mp hf
      simp [decodeCode, CodeContext.isData_iff.mp hd, hs]
    | kwkwk x =>
      cases he
      obtain ⟨hd, rfl, hp⟩ := Instr.fits_kwkwk.mp hf
      obtain ⟨p, hp⟩ := Option.isSome_iff_exists.mp hp
      simp [decodeCode, CodeContext.isData_iff.mp hd, hp]
    | skip x =>
      cases he
      obtain ⟨hd, hs, hp⟩ := Instr.fits_skip.mp hf
      simp [decodeCode, CodeContext.isData_iff.mp hd, hs.not_gt, hp]
    | unspecCode x =>
      cases he
      obtain ⟨hd, hs, hp⟩ := Instr.fits_unspecCode.mp hf
      obtain ⟨p, hp⟩ := Option.isSome_iff_exists.mp hp
      simp [decodeCode, CodeContext.isData_iff.mp hd, hs.not_gt, hs.ne', hp]
    | _ => cases he

/-! ## What a well-formed header or image carries -/

theorem Instr.wellFormed_parseHeader {screen : Option Screen} {gpal : Option (List Rgb)}
    (hw : (Instr.parseHeader screen gpal).wellFormed = true) :
    ∃ h p, screen = some h ∧ gpal = some p ∧ h.version.isSome = true ∧ p.length = paletteLength h.flags := by
  match screen, gpal, hw with
  | some h, some p, hw => exact ⟨h, p, rfl, rfl, by simpa [Instr.wellFormed] using hw⟩

theorem Instr.wellFormed_image {desc : Option ImageDesc} {lpal : Option (List Rgb)} {v : Option Byte}
    (hw : (Instr.image desc lpal v).wellFormed = true) :
    ∃ d p b, desc = some d ∧ lpal = some p ∧ v = some b ∧ d.isEmpty = false ∧
      p.length = paletteLength d.flags := by
  match desc, lpal, v, hw with
  | some d, some p, some b, hw => exact ⟨d, p, b, rfl, rfl, rfl, by simpa [Instr.wellFormed] using hw⟩

theorem Instr.wellFormed_imageEmpty {d : ImageDesc} {lpal : Option (List Rgb)} {v : Option Byte}
    (hw : (Instr.imageEmpty d lpal v).wellFormed = true) :
    ∃ p b, lpal = some p ∧ v = some b ∧ d.isEmpty = true ∧ p.length = paletteLength d.flags := by
  match lpal, v, hw with
  | some p, some b, hw => exact ⟨p, b, rfl, rfl, by simpa [Instr.wellFormed] using hw⟩

/-! ## Disposal selectors and host commands (R109, decision D39) -/

/-- The four selectors are read from the values they are encoded as. -/
theorem encode_decodeSelector (d : BitVec 2) : encode k (decodeSelector d) = .selector d := by
  have hd : d = 0#2 ∨ d = 1#2 ∨ d = 2#2 ∨ d = 3#2 := by
    revert d
    decide
  rcases hd with rfl | rfl | rfl | rfl <;> rfl

/-- A host command is read from its number; only CONSTRUCT's operand bytes are kept. -/
theorem encode_decodeCommand {n : Nat} {b : Bytes} {i : Instr} (h : decodeCommand n b = .ok i)
    (hb : n = 0 ∨ b = []) : encode k i = .command n b := by
  rcases decodeCommand_cases n b with ⟨rfl, e⟩ | ⟨rfl, e⟩ | ⟨rfl, e⟩ | ⟨rfl, e⟩ | ⟨rfl, e⟩ | ⟨rfl, e⟩ | ⟨rfl, e⟩ |
    ⟨-, e⟩ <;> cases e.symm.trans h
  · rfl
  all_goals
    obtain rfl : b = [] := hb.resolve_left (by decide)
    rfl

/-! ## Header (R101, R102, R104) -/

/-- A signature that was recognised is the encoding of its version (R101). -/
theorem encodeSignature_decodeSignature {b : Bytes} (h : (decodeSignature b).isSome = true) :
    encodeSignature (decodeSignature b) = b := by
  unfold decodeSignature at h ⊢
  split_ifs at h ⊢ with h87 h89
  · exact h87.symm
  · exact h89.symm
  · cases h

/-- An encoded screen descriptor reads back, and the palette its flags ask for is read behind it. -/
theorem decodeHeader_encodeScreen {h : Screen} (hv : h.version.isSome = true) (rest : Bytes) :
    decodeHeader (encodeScreen h ++ rest) =
      .parseHeader (some h) ((takePalette (paletteLength h.flags) rest).map Prod.fst) := by
  obtain ⟨version, width, height, flags, bgIndex, aspect⟩ := h
  rcases version with _ | (_ | _)
  · cases hv
  all_goals
    simp [encodeScreen, encodeSignature, u16bytes, decodeHeader, decodeSignature, u16le_split]

/-- A header that reads as a well-formed one begins with its encoding. -/
theorem header_of_decodeHeader {b : Bytes} (hw : (decodeHeader b).wellFormed = true) :
    ∃ tail, .header b = (encode k (decodeHeader b)).followedBy tail := by
  unfold decodeHeader at hw ⊢
  split at hw
  next s0 s1 s2 s3 s4 s5 w0 w1 h0 h1 f bg asp rest =>
    obtain ⟨_, _, ⟨⟩, hp, hv, -⟩ := Instr.wellFormed_parseHeader hw
    obtain ⟨p, hp, -⟩ := Option.map_eq_some_iff.mp hp
    have hs := encodeSignature_decodeSignature hv
    exact ⟨p.2, by simpa [encode, encodeScreen, u16bytes_u16le, hs, hp] using encodePalette_take hp⟩
  next => cases hw

/-! ## Block tokens (R105 to R112) -/

theorem decodeBlock_image (rest : Bytes) : decodeBlock (0x2C#8 :: rest) = .ok (decodeImage rest) := rfl

theorem decodeBlock_gce (body : Bytes) :
    decodeBlock (0x21#8 :: 0xF9#8 :: body) = .ok (decodeGce body) := rfl

theorem decodeBlock_extSkip {l : Byte} (hl : l ≠ 0xF9#8) (body : Bytes) :
    decodeBlock (0x21#8 :: l :: body) = .ok (.extSkip l) := if_neg hl

theorem decodeBlock_trailer (rest : Bytes) : decodeBlock (0x3B#8 :: rest) = .ok .trailer := rfl

theorem decodeBlock_unexpected {t : Byte} (h1 : t ≠ 0x2C#8) (h2 : t ≠ 0x21#8) (h3 : t ≠ 0x3B#8)
    (rest : Bytes) : decodeBlock (t :: rest) = .ok (.unexpected t) := by
  simp [decodeBlock, h1, h2, h3]

/-- The bytes a block token was read from, and what was read there. -/
theorem decodeBlock_ok {bs : Bytes} {i : Instr} (h : decodeBlock bs = .ok i) :
    (∃ rest, bs = 0x2C#8 :: rest ∧ i = decodeImage rest) ∨
    (∃ body, bs = 0x21#8 :: 0xF9#8 :: body ∧ i = decodeGce body) ∨
    (∃ l body, bs = 0x21#8 :: l :: body ∧ i = .extSkip l) ∨
    (∃ rest, bs = 0x3B#8 :: rest ∧ i = .trailer) ∨
    ∃ t rest, bs = t :: rest ∧ i = .unexpected t := by
  match bs with
  | [] => nomatch h
  | t :: rest =>
    by_cases h1 : t = 0x2C#8
    · subst h1
      exact .inl ⟨rest, rfl, (Except.ok.inj h).symm⟩
    by_cases h2 : t = 0x21#8
    · subst h2
      match rest with
      | [] => nomatch h
      | l :: body =>
        by_cases hl : l = 0xF9#8
        · subst hl
          exact .inr (.inl ⟨body, rfl, (Except.ok.inj h).symm⟩)
        · rw [decodeBlock_extSkip hl] at h
          exact .inr (.inr (.inl ⟨l, body, rfl, (Except.ok.inj h).symm⟩))
    by_cases h3 : t = 0x3B#8
    · subst h3
      exact .inr (.inr (.inr (.inl ⟨rest, rfl, (Except.ok.inj h).symm⟩)))
    rw [decodeBlock_unexpected h1 h2 h3] at h
    exact .inr (.inr (.inr (.inr ⟨t, rest, rfl, (Except.ok.inj h).symm⟩)))

/-! ### Images -/

theorem imageOf_kind (d : ImageDesc) (p : Option (List Rgb)) (v : Option Byte) :
    imageOf d p v = .image (some d) p v ∨ imageOf d p v = .imageEmpty d p v := by
  unfold imageOf
  split
  · exact .inr rfl
  · exact .inl rfl

theorem encode_imageOf (d : ImageDesc) (p : Option (List Rgb)) (v : Option Byte) :
    encode k (imageOf d p v) = .block (encodeImage d p v) := by
  rcases imageOf_kind d p v with e | e <;> rw [e] <;> rfl

/-- A well-formed image has its palette and its min_code_size byte. -/
theorem imageOf_complete {d : ImageDesc} {p : Option (List Rgb)} {v : Option Byte}
    (h : (imageOf d p v).wellFormed = true) : p.isSome = true ∧ v.isSome = true := by
  rcases imageOf_kind d p v with e | e <;> rw [e] at h
  · obtain ⟨_, _, _, -, rfl, rfl, -⟩ := Instr.wellFormed_image h
    exact ⟨rfl, rfl⟩
  · obtain ⟨_, _, rfl, rfl, -⟩ := Instr.wellFormed_imageEmpty h
    exact ⟨rfl, rfl⟩

/-- Behind the 0x2C introducer stands IMAGE or IMAGE_EMPTY. -/
theorem decodeImage_kind (bs : Bytes) :
    (∃ d p v, decodeImage bs = .image d p v) ∨ ∃ d p v, decodeImage bs = .imageEmpty d p v := by
  have hof : ∀ d p v, (∃ d' p' v', imageOf d p v = .image d' p' v') ∨
      ∃ d' p' v', imageOf d p v = .imageEmpty d' p' v' := fun d p v =>
    (imageOf_kind d p v).imp (fun e => ⟨_, _, _, e⟩) fun e => ⟨_, _, _, e⟩
  unfold decodeImage
  split
  · simp only
    split
    · exact hof _ _ _
    · exact hof _ _ _
  · exact .inl ⟨_, _, _, rfl⟩

/-- An encoded descriptor reads back, and its palette and min_code_size byte are read behind it. -/
theorem decodeImage_encodeDesc {d : ImageDesc} {rest : Bytes} {p : List Rgb × Bytes}
    (hp : takePalette (paletteLength d.flags) rest = some p) :
    decodeImage (encodeDesc d ++ rest) = imageOf d (some p.1) p.2.head? := by
  simp [encodeDesc, u16bytes, decodeImage, u16le_split, hp]

/-- An encoded image reads back (R110). -/
theorem decodeBlock_encodeImage {d : ImageDesc} {p : List Rgb} {v : Byte}
    (hp : p.length = paletteLength d.flags) (tail : Bytes) :
    decodeBlock (encodeImage d (some p) (some v) ++ tail) = .ok (imageOf d (some p) (some v)) := by
  have ht : takePalette (paletteLength d.flags) (encodePalette p ++ (v :: tail)) = some (p, v :: tail) :=
    hp ▸ takePalette_encode (v :: tail) p
  calc decodeBlock (encodeImage d (some p) (some v) ++ tail)
      = .ok (decodeImage (encodeDesc d ++ (encodePalette p ++ (v :: tail)))) := by
        simp [encodeImage, decodeBlock_image]
    _ = .ok (imageOf d (some p) (some v)) := by rw [decodeImage_encodeDesc ht]; rfl

/-- Bytes that read as a well-formed image begin with its encoding. -/
theorem block_of_decodeImage {rest : Bytes} (hw : (decodeImage rest).wellFormed = true) :
    ∃ tail, .block (0x2C#8 :: rest) = (encode k (decodeImage rest)).followedBy tail := by
  unfold decodeImage at hw ⊢
  split at hw
  next l0 l1 t0 t1 w0 w1 h0 h1 f rest =>
    cases hp : takePalette (paletteLength f) rest with
    | none =>
      simp only [hp] at hw
      cases (imageOf_complete hw).1
    | some p =>
      simp only [hp] at hw ⊢
      obtain ⟨v, hv⟩ := Option.isSome_iff_exists.mp (imageOf_complete hw).2
      obtain ⟨tail, ht⟩ := List.head?_eq_some_iff.mp hv
      refine ⟨tail, ?_⟩
      simp [encode_imageOf, encodeImage, encodeDesc, u16bytes_u16le, encodePalette_take hp, ht]
  next => cases hw

/-! ### Extensions -/

theorem decodeGce_kind (bs : Bytes) : ∃ b, decodeGce bs = .extGce b := by
  unfold decodeGce
  split <;> exact ⟨_, rfl⟩

/-- An encoded graphic control extension reads back (R107). -/
theorem decodeBlock_encodeGce (b : GceBody) (tail : Bytes) :
    decodeBlock (encodeGce b ++ tail) = .ok (.extGce (some b)) := by
  simp [encodeGce, u16bytes, decodeBlock_gce, decodeGce, u16le_split]

/-- Bytes that read as a complete graphic control extension begin with its encoding. -/
theorem block_of_decodeGce {body : Bytes} (hw : (decodeGce body).wellFormed = true) :
    ∃ tail, .block (0x21#8 :: 0xF9#8 :: body) = (encode k (decodeGce body)).followedBy tail := by
  unfold decodeGce at hw ⊢
  split at hw
  next bs f d0 d1 t term tail =>
    exact ⟨tail, by simp [encode, encodeGce, u16bytes_u16le]⟩
  next => cases hw

/-- A well-formed block token that was read stands at the start of the bytes. -/
theorem block_of_decodeBlock {b : Bytes} {i : Instr} (h : decodeBlock b = .ok i)
    (hw : i.wellFormed = true) : ∃ tail, .block b = (encode k i).followedBy tail := by
  rcases decodeBlock_ok h with ⟨rest, rfl, rfl⟩ | ⟨body, rfl, rfl⟩ | ⟨l, body, rfl, rfl⟩ | ⟨rest, rfl, rfl⟩ |
    ⟨t, rest, rfl, rfl⟩
  · exact block_of_decodeImage hw
  · exact block_of_decodeGce hw
  · exact ⟨body, rfl⟩
  · exact ⟨rest, rfl⟩
  · exact ⟨rest, rfl⟩

end

/-! ## The statements -/

/-- Settles O5: each class is its encoding and its row's condition, written out. -/
theorem codeClassesPartition : Obligations.CodeClassesPartition := by
  intro k c
  simp only [decode_code, Except.ok.injEq, decodeCode_eq_iff, encode, FetchWord.code.injEq,
    Instr.fits_dict, Instr.fits_kwkwk, Instr.fits_skip, Instr.fits_unspecCode, CodeContext.isData_iff,
    Option.isSome_iff_ne_none, and_assoc]
  refine ⟨?_, ?_, fun x => ?_, fun x => ?_, fun x => ?_, fun x => ?_⟩
  · exact (and_iff_left rfl).trans eq_comm
  · exact (and_iff_left rfl).trans eq_comm
  all_goals exact and_congr_right (by rintro rfl; rfl)

/-- Settles O1: the fields, palettes and codes are computed from the words; the last two code classes by the
previous code. -/
theorem writtenWordsDecode : Obligations.WrittenWordsDecode := by
  rintro ⟨m, size, prevCode⟩ hm hs
  obtain rfl : m = 2 := hm
  obtain rfl : size = 6 := hs
  refine ⟨rfl, rfl, rfl, rfl, rfl, rfl, rfl, rfl, rfl, rfl, ?prevCode, ?noPrevCode, rfl, rfl, rfl, rfl,
    rfl, rfl, rfl, rfl, rfl, rfl, rfl⟩
  case prevCode =>
    rintro rfl
    exact ⟨rfl, rfl⟩
  case noPrevCode =>
    rintro rfl
    exact ⟨rfl, rfl⟩

/-- Settles O2: the codes by the row of R115 they stand in, the header and the block tokens by reading
their encodings back field by field. -/
theorem decodeInvertsEncode : Obligations.DecodeInvertsEncode := by
  intro k i tail hw hf
  cases i with
  | parseHeader screen gpal =>
    obtain ⟨h, p, rfl, rfl, hv, hp⟩ := Instr.wellFormed_parseHeader hw
    simp [encode, decodeHeader_encodeScreen hv, ← hp, takePalette_encode]
  | image desc lpal v =>
    obtain ⟨d, p, b, rfl, rfl, rfl, hd, hp⟩ := Instr.wellFormed_image hw
    simp [encode, decodeBlock_encodeImage hp, imageOf, hd]
  | imageEmpty d lpal v =>
    obtain ⟨p, b, rfl, rfl, hd, hp⟩ := Instr.wellFormed_imageEmpty hw
    simp [encode, decodeBlock_encodeImage hp, imageOf, hd]
  | extGce body =>
    cases body with
    | none => cases hw
    | some b => exact decodeBlock_encodeGce b tail
  | extSkip l => exact decodeBlock_extSkip (by simpa [Instr.wellFormed] using hw) tail
  | trailer => exact decodeBlock_trailer tail
  | unexpected t =>
    simp only [Instr.wellFormed, Bool.and_eq_true, bne_iff_ne] at hw
    obtain ⟨⟨h1, h2⟩, h3⟩ := hw
    exact decodeBlock_unexpected h1 h2 h3 tail
  | clear | endCode | dict | kwkwk | skip | unspecCode =>
    exact congrArg Except.ok (decodeCode_eq_iff.mpr ⟨rfl, hf⟩)
  | disposeNone | disposeKeep | disposeRestoreBg | disposeRestorePrev | construct | nextFrame | getVersion |
    getWidth | getHeight | getBackgroundColor | release => rfl

/-- Settles O3: a code, a selector and a command are read from nothing but their encoding; a header and a
block token from bytes that begin with it. -/
theorem encodeInvertsDecode : Obligations.EncodeInvertsDecode := by
  intro k w i h hw hc
  cases w with
  | header b => exact Except.ok.inj h ▸ header_of_decodeHeader (Except.ok.inj h ▸ hw)
  | block b => exact block_of_decodeBlock h hw
  | code c => exact ⟨[], by simp [(decodeCode_eq_iff.mp (Except.ok.inj h)).1]⟩
  | selector d => exact ⟨[], by simp [← Except.ok.inj h, encode_decodeSelector]⟩
  | command n b => exact ⟨[], by simp [encode_decodeCommand h (hc n b rfl)]⟩

/-- Settles O4: the block decoder by its first bytes; UNEXPECTED raises behind the byte it consumed. -/
theorem introducerAndLabelSelectToken : Obligations.IntroducerAndLabelSelectToken := by
  intro k t rest
  refine ⟨?image, ?extension, ?trailer, ?unexpected⟩
  case image =>
    rintro rfl
    exact ⟨decodeImage rest, rfl, decodeImage_kind rest⟩
  case extension =>
    rintro rfl l body rfl
    refine ⟨?_, fun hl => decodeBlock_extSkip hl body⟩
    rintro rfl
    obtain ⟨b, hb⟩ := decodeGce_kind body
    exact ⟨b, congrArg Except.ok hb⟩
  case trailer =>
    rintro rfl
    exact decodeBlock_trailer rest
  case unexpected => exact fun h1 h2 h3 => ⟨decodeBlock_unexpected h1 h2 h3 rest, fun _ => rfl⟩

end Sys2Proof
end

section
/-! PROOFS. Packed codes read back (R114, R152, R153): one code of the logical stream, then a run of
them. -/

namespace Sys2Proof.Machine

/-- READ_CODE where the chain has the bits: it takes the oldest `n` of them (R152, R24). -/
theorem readCode_in {s : State} {cur : Bytes} {blocks : List Bytes} {rest : Bytes} {n : Nat}
    (h : InChain s cur blocks rest) (hn : n ≤ s.pendingBits cur blocks) :
    ∃ t cur' blocks', readCode n s = .ok (s.pending cur blocks % 2 ^ n) t ∧
      InChain t cur' blocks' rest ∧ t.pending cur' blocks' = s.pending cur blocks / 2 ^ n ∧
      t.pendingBits cur' blocks' + n = s.pendingBits cur blocks ∧
      t = { s with pos := t.pos, reader := t.reader } := by
  obtain ⟨u, cur', blocks', hfill, hu, hval, hbits, hframe, hle⟩ := fill_in (rounds := n) h hn (by omega)
  have hpow : 2 ^ u.reader.nacc = 2 ^ n * 2 ^ (u.reader.nacc - n) := by
    rw [← pow_add, Nat.add_sub_cancel' hle]
  have hsplit : s.pending cur blocks = u.reader.acc +
      2 ^ n * (2 ^ (u.reader.nacc - n) * streamValue (cur' ++ blocks'.flatten)) := by
    rw [← hval, State.pending, hpow, mul_assoc]
  refine ⟨{ u with reader := { u.reader with
      acc := u.reader.acc / 2 ^ n, nacc := u.reader.nacc - n } }, cur', blocks', ?_,
    ⟨?_, hu.sbRem_eq, hu.blocks_ok, hu.bytes⟩, ?_, ?_, ?_⟩
  · rw [readCode, hfill, hsplit, Nat.add_mul_mod_self_left]
    rfl
  · exact Nat.div_lt_of_lt_mul (hpow ▸ hu.acc_lt)
  · rw [hsplit, Nat.add_mul_div_left _ _ (by positivity)]
    rfl
  · simp only [State.pendingBits] at hbits ⊢
    omega
  · rw [hframe]

/-- A number that ends in a code and what is packed above it gives both back. -/
theorem mod_div_of_packed {P c w v n : Nat} (hc : c < 2 ^ w) (h : P % 2 ^ (w + n) = c + 2 ^ w * v) :
    P % 2 ^ w = c ∧ P / 2 ^ w % 2 ^ n = v := by
  have hmod : P % 2 ^ w = c := by
    rw [← Nat.mod_mod_of_dvd P (pow_dvd_pow 2 (Nat.le_add_right w n)), h, Nat.add_mul_mod_self_left,
      Nat.mod_eq_of_lt hc]
  rw [pow_add, Nat.mod_mul, hmod] at h
  exact ⟨hmod, Nat.eq_of_mul_eq_mul_left (by positivity) (Nat.add_left_cancel h)⟩

/-- A stream that begins with packed codes gives them back, code by code (R114). -/
theorem readCodes_in {rest : Bytes} : ∀ {cs : List (Nat × Nat)} {s : State} {cur : Bytes}
    {blocks : List Bytes}, InChain s cur blocks rest → (∀ x ∈ cs, x.1 < 2 ^ x.2) →
    packedBits cs ≤ s.pendingBits cur blocks →
    s.pending cur blocks % 2 ^ packedBits cs = packedValue cs →
    ∃ t, readCodes (cs.map Prod.snd) s = .ok (cs.map Prod.fst) t
  | [], s, _, _, _, _, _, _ => ⟨s, rfl⟩
  | (c, w) :: cs, s, cur, blocks, h, hcs, hbits, hval => by
    obtain ⟨hc, hcs⟩ := List.forall_mem_cons.mp hcs
    simp only [packedBits] at hbits hval
    obtain ⟨hcode, habove⟩ := mod_div_of_packed hc hval
    obtain ⟨t, cur', blocks', hread, ht, hpend, hleft, -⟩ := readCode_in (n := w) h (by omega)
    obtain ⟨u, hu⟩ := readCodes_in ht hcs (by omega) (hpend ▸ habove)
    exact ⟨u, by simp [readCodes, hread, hcode, hu]⟩

/-- The data bytes of packed codes hold their number, padded with 0 bits (R114, R120). -/
theorem streamValue_packCodes {cs : List (Nat × Nat)} (h : ∀ x ∈ cs, x.1 < 2 ^ x.2) :
    streamValue (packCodes cs) = packedValue cs := by
  have hle : 2 ^ packedBits cs ≤ 256 ^ ((packedBits cs + 7) / 8) := by
    rw [show 256 = 2 ^ 8 from rfl, ← pow_mul]
    exact Nat.pow_le_pow_right (by decide) (by omega)
  rw [packCodes, streamValue_bytesOfValue, Nat.mod_eq_of_lt ((packedValue_lt cs h).trans_le hle)]

/-- A reader just reset stands in front of the chain's first sub-block (R150, R113). -/
theorem inChain_start {s : State} {blocks : List Bytes} {tail : Bytes} (hok : BlocksOk blocks)
    (hr : s.reader = ⟨0, 0, 0⟩) (hb : s.bytesFrom s.pos = encodeChain blocks ++ tail) :
    InChain s [] blocks (0x00#8 :: tail) where
  acc_lt := by simp [hr]
  sbRem_eq := by simp [hr]
  blocks_ok := hok
  bytes := by simp [hb, encodeChain_eq]

/-- Settles O36: the stream of the chain is the packed number, and reading takes it apart from its low end. -/
theorem packedCodesReadBack : Obligations.PackedCodesReadBack := by
  intro s blocks tail cs hok hr hb hdata hcs
  have hpend : s.pending [] blocks = packedValue cs := by
    simp [State.pending, hr, hdata, streamValue_packCodes hcs]
  have hbits : packedBits cs ≤ s.pendingBits [] blocks := by
    simp only [State.pendingBits, hr, List.nil_append, hdata, packCodes, bytesOfValue_length]
    omega
  exact readCodes_in (inChain_start hok hr hb) hcs hbits
    (by rw [hpend, Nat.mod_eq_of_lt (packedValue_lt cs hcs)])

end Sys2Proof.Machine
end

section
/-! PROOFS. The bit-stream reader on a single code and on a chain that breaks off (spec/40_bit_reader.md):
READ_CODE where the chain has the bits (R152) and where it has not (R151), and the instructions that skip a
chain without its terminator (R155). -/

namespace Sys2Proof.Machine

/-! ## READ_CODE -/

/-- READ_CODE stops where its bit loop stops (R152). -/
theorem readCode_of_fillBits_trap {n : Nat} {s t : State} {k : Cause} (h : fillBits n n s = .trap k t) :
    readCode n s = .trap k t := by
  rw [readCode, h, Result.bind_trap]

/-- Settles O34: the bit loop leaves the logical stream as it is, and its low end is the code. -/
theorem readCodeTakesNextBits : Obligations.ReadCodeTakesNextBits :=
  fun _ _ _ _ _ => readCode_in

/-- Settles O35: `n` rounds of the bit loop use up the chain's data, and the fetch behind it raises what
follows there. -/
theorem readCodeShortOfBitsRaises : Obligations.ReadCodeShortOfBitsRaises := by
  intro s cur blocks rest n h hpos hshort
  obtain ⟨hend, hzero, hlong⟩ := fill_end (rounds := n) h hpos hshort (by omega)
  refine ⟨fun hr => ?atEnd, fun r hr => ?atTerminator, fun l r hr hl hlt => ?atLongBlock⟩
  case atEnd =>
    obtain ⟨t, ht, hp⟩ := hend hr
    exact ⟨t, readCode_of_fillBits_trap ht, hp⟩
  case atTerminator =>
    obtain ⟨t, ht, hp⟩ := hzero r hr
    exact ⟨t, readCode_of_fillBits_trap ht, hp⟩
  case atLongBlock =>
    obtain ⟨t, ht, hp⟩ := hlong l r hr hl hlt
    exact ⟨t, readCode_of_fillBits_trap ht, hp⟩

/-! ## An error in a skipped chain is the instruction's -/

variable {s t : State} {k : ErrorKind}

/-- EXT_SKIP is SKIP_CHAIN behind the label (R224). -/
theorem extSkip_of_skipChain_raise (l : Byte) (h : skipChain { s with pos := s.pos + 2 } = raise k t) :
    exec (.extSkip l) s = .next (takeError k t) :=
  congrArg Result.finish h

/-- END does not reach the frame's end when the residual chain is broken (R183, R154). -/
theorem endCode_of_skipChain_raise
    (h : skipChain { s with pos := s.pos + s.reader.sbRem, reader := ⟨0, 0, 0⟩ } = raise k t) :
    exec .endCode s = .next (takeError k t) := by
  simp only [exec, execEndCode, skipResidual, h, bind_raise, finish_raise]

/-- IMAGE_EMPTY is SKIP_CHAIN behind the operands (R229). -/
theorem imageEmpty_of_skipChain_raise {u : State} {d : ImageDesc} {p : Option (List Rgb)} {v : Option Byte}
    {b : Byte} (hbegin : beginImage (some d) p v s = .ok b u) (h : skipChain u = raise k t) :
    exec (.imageEmpty d p v) s = .next (takeError k t) := by
  simp only [exec, execImageEmpty, skipImage, hbegin, Result.bind_ok, h, finish_raise]

/-- Settles O31: each of the three instructions comes to SKIP_CHAIN in `u` and raises what it raises there. -/
theorem brokenChainRaises : Obligations.BrokenChainRaises := by
  intro s u i blocks rest hok hi hbytes hpos
  have hraise : ∀ k t, skipChain u = raise k t → exec i s = .next (takeError k t) := by
    intro k t h
    rcases hi with ⟨l, rfl, rfl⟩ | ⟨rfl, rfl⟩ | ⟨d, p, v, rfl, hp, rfl⟩
    · exact extSkip_of_skipChain_raise l h
    · exact endCode_of_skipChain_raise h
    · exact imageEmpty_of_skipChain_raise (beginImage_complete s d p v hp) h
  obtain ⟨hend, hlong⟩ := skipChain_broken hok hbytes hpos
  exact ⟨fun hr => hraise _ _ (hend hr), fun n r hr hn hlt => hraise _ _ (hlong n r hr hn hlt)⟩

end Sys2Proof.Machine
end

section
/-! PROOFS. The LZW engine (spec/41_lzw_engine.md): the faults before a frame's disposal (R180, R274, R350 (c)),
and what each code class does (R182 to R189). -/

namespace Sys2Proof.Machine

/-! ## The faults before the disposal -/

/-- IMAGE with all its operands is DECODE_FRAME behind them, unless the image is empty (R222, R229). -/
theorem exec_image_of_beginFrame_fault {s u t : State} {d : ImageDesc} {p : List Rgb} {v : Byte}
    {f : FaultCode} (hbegin : beginImage (some d) (some p) (some v) s = .ok v u) (hw : u.img.width ≠ 0#16)
    (hh : u.img.height ≠ 0#16) (h : beginFrame v (selectPalette u) = fault f t) :
    exec (.image (some d) (some p) (some v)) s = .fault (modelFault f t) := by
  simp only [exec, execImage, hbegin, Result.bind_ok, imageBody, hw, hh, or_self, if_false, h, finish_fault]

/-- LZW_INIT is the first check of DECODE_FRAME (R180, R230). -/
theorem beginFrame_small {v : Byte} (h : v.toNat < 2) (s : State) :
    beginFrame v s = fault .unspecMinCodeSize { s with lzw := { s.lzw with m := v.toNat } } := by
  have hm : clampMinCodeSize v = v.toNat := Nat.min_eq_left (h.le.trans (by decide))
  simp only [beginFrame, lzwInit, hm, if_pos h, bind_fault]

/-- INTERLACE_CHECK is the second, on the engine that LZW_INIT has set up (R180, R274). -/
theorem beginFrame_partialInterlace {v : Byte} (h : 2 ≤ v.toNat) {s : State} (hi : s.img.interlaced = true)
    (hpart : s.scr.W = 0#16 ∨ s.img.top ≠ 0#16 ∨ s.img.height ≠ s.scr.H) :
    beginFrame v s =
      fault .unspecPartialInterlace { s with lzw := engineInit (clampMinCodeSize v) s.lzw.dict } := by
  have hm : ¬ clampMinCodeSize v < Config.minCodeSizeLow := Nat.not_lt.mpr (Nat.le_min.mpr ⟨h, by decide⟩)
  have hcheck : (s.scr.W == 0#16 || s.img.top != 0#16 || s.img.height != s.scr.H) = true := by
    simpa [or_assoc] using hpart
  simp only [beginFrame, lzwInit, if_neg hm, Result.bind_ok, interlaceCheck, hi, hcheck, Bool.and_self,
    if_true, bind_fault]

/-- Settles O27: each check stops DECODE_FRAME before FIRST_ALLOC touches the canvas. -/
theorem imageFaultsBeforeDisposal : Obligations.ImageFaultsBeforeDisposal := by
  intro s d p v hw hh hp
  have hbegin := beginImage_complete s d p v hp
  refine ⟨fun hv => ?small, fun hv hi hpart => ?partialInterlace⟩
  case small =>
    exact ⟨_, exec_image_of_beginFrame_fault hbegin hw hh (beginFrame_small hv _), rfl, rfl, rfl, rfl⟩
  case partialInterlace =>
    exact ⟨_, exec_image_of_beginFrame_fault hbegin hw hh (beginFrame_partialInterlace hv hi hpart),
      rfl, rfl, rfl, rfl⟩

/-! ## The codes without an emission -/

/-- Settles O37: CLEAR's arm is `Engine.clear` on the engine registers (R182). -/
theorem clearResetsEngine : Obligations.ClearResetsEngine := fun _ => rfl

/-- Settles O38: END is SKIP_CHAIN behind the rest of the sub-block, and the chain is there. -/
theorem endSkipsResidual : Obligations.EndSkipsResidual := by
  intro s blocks tail hok hbytes
  have hskip : skipResidual s = _ := skipChain_encodeChain (s := { s with
    pos := s.pos + s.reader.sbRem, reader := ⟨0, 0, 0⟩ }) hok hbytes
  simp only [exec, execEndCode, hskip, Result.bind_ok, Result.finish_ok]
  rfl

/-- Settles O42: SKIP's arm answers the state it is given (R186). -/
theorem skipChangesNothing : Obligations.SkipChangesNothing := fun _ _ => rfl

/-- Settles O43: UNSPEC_CODE's arm is the model fault (R187), which records its cause (R347). -/
theorem unspecCodeStops : Obligations.UnspecCodeStops := fun _ _ => rfl

/-! ## Emission -/

section
variable {q : List Nat} {s t : State}

/-- A completed emission moves the cursor and writes canvas elements; the engine is as before it (R190). -/
theorem emitAll_ok_frame (h : emitAll q s = .ok () t) :
    t = { s with canvas := { s.canvas with output := t.canvas.output }, cur := t.cur } := by
  have hmove := emitAll_move q s
  rw [h] at hmove
  exact hmove.frame

theorem emitAll_ok_lzw (h : emitAll q s = .ok () t) : t.lzw = s.lzw := by rw [emitAll_ok_frame h]

/-- DICT's engine update follows its emission (R184). -/
theorem exec_dict_of_emitAll {c : Nat} (h : emitAll (s.lzw.entry c) s = .ok () t) :
    exec (.dict c) s = .next { t with lzw := s.lzw.dictCode c } := by
  simp only [exec, execDict, h, Result.bind_ok, Result.finish_ok, emitAll_ok_lzw h]

/-- KWKWK's engine update follows its emission (R185). -/
theorem exec_kwkwk_of_emitAll {c p : Nat} (hp : s.lzw.prevCode = some p)
    (h : emitAll (s.lzw.kwkwkSequence p) s = .ok () t) :
    exec (.kwkwk c) s = .next { t with lzw := s.lzw.kwkwkCode p c } := by
  simp only [exec, execKwkwk, hp, h, Result.bind_ok, Result.finish_ok, emitAll_ok_lzw h]

end

/-! ## Engine updates -/

section
variable {e : Engine} {c p : Nat}

/-- GROW writes the width alone (R189). -/
theorem Engine.grow_eq (e : Engine) : e.grow = { e with
    width := if e.size = 2 ^ e.width ∧ e.width < 12 then e.width + 1 else e.width } := by
  unfold Engine.grow
  split <;> rfl

/-- The entry that DICT adds, if any: none without a previous code or with a full dictionary (R184, R188). -/
def Engine.dictEntry (e : Engine) (c : Nat) : Option (List Nat) :=
  match e.prevCode with
  | none => none
  | some p => if e.size < 4096 then some (e.entry p ++ [(e.entry c).headD 0]) else none

/-- Where DICT adds nothing it remembers the code and runs GROW (R184). -/
theorem Engine.dictCode_of_dictEntry_none (h : e.dictEntry c = none) :
    e.dictCode c = { e with prevCode := some c }.grow := by
  cases hp : e.prevCode with
  | none => simp only [Engine.dictCode, hp]
  | some p =>
    have hfull : ¬ e.size < 4096 := by simpa [Engine.dictEntry, hp] using h
    simp only [Engine.dictCode, hp, if_neg hfull]

/-- Where DICT adds an entry, ADD_ENTRY comes before both (R184, R188). -/
theorem Engine.dictCode_of_dictEntry_some {q : List Nat} (h : e.dictEntry c = some q) :
    e.dictCode c = { e.addEntry q with prevCode := some c }.grow := by
  cases hp : e.prevCode with
  | none => simp [Engine.dictEntry, hp] at h
  | some p =>
    obtain ⟨hroom, rfl⟩ : e.size < 4096 ∧ e.entry p ++ [(e.entry c).headD 0] = q := by
      simpa [Engine.dictEntry, hp] using h
    simp only [Engine.dictCode, hp, if_pos hroom, firstSymbol]

/-- KWKWK adds the sequence it has emitted (R185, R188). -/
theorem Engine.kwkwkCode_adds (hroom : e.size < 4096) :
    e.kwkwkCode p c = { e.addEntry (e.kwkwkSequence p) with prevCode := some c }.grow := by
  simp only [Engine.kwkwkCode, if_pos hroom]

end

/-! ## DICT and KWKWK -/

/-- Settles O39: the emission completes, and the engine update adds an entry or none; the statement's `added`
is `Engine.dictEntry` by definition. -/
theorem dictEmitsAndAdds : Obligations.DictEmitsAndAdds := by
  intro s c hwf hq added size
  obtain ⟨t, ht⟩ : ∃ t, emitAll (s.lzw.entry c) s = .ok () t := hq.elim emitAll_completes id
  have hexec := exec_dict_of_emitAll ht
  cases hadded : added with
  | none =>
    have hsize : size = s.lzw.size := by simp [size, hadded]
    rw [Engine.dictCode_of_dictEntry_none hadded, Engine.grow_eq] at hexec
    refine ⟨t, s.lzw.dict, ht, emitAll_ok_frame ht, hsize ▸ hexec, fun x => ?_⟩
    simp [Engine.entry]
  | some q =>
    have hsize : size = s.lzw.size + 1 := by simp [size, hadded]
    rw [Engine.dictCode_of_dictEntry_some hadded, Engine.grow_eq] at hexec
    exact ⟨t, _, ht, emitAll_ok_frame ht, hsize ▸ hexec, fun x => Engine.addEntry_entry q x hwf⟩

/-- Settles O40: the emission completes, the dictionary has room, and the entry at its size is the sequence. -/
theorem kwkwkEmitsAndDefines : Obligations.KwkwkEmitsAndDefines := by
  intro s c p hwf hp hc hroom q hq
  obtain ⟨t, ht⟩ : ∃ t, emitAll q s = .ok () t := hq.elim emitAll_completes id
  have hexec := exec_kwkwk_of_emitAll (c := c) hp ht
  rw [Engine.kwkwkCode_adds hroom, Engine.grow_eq] at hexec
  refine ⟨t, _, ht, emitAll_ok_frame ht, hexec, fun x => ?_⟩
  rw [hc]
  exact Engine.addEntry_entry q x hwf

/-- Settles O60: the frames of an emission with its engine update, and of END. -/
theorem codesKeepTheRest : Obligations.CodesKeepTheRest := by
  intro i s t ht
  refine ⟨code_frame ht, fun hi => ?_⟩
  subst hi
  exact endCode_frame ht

end Sys2Proof.Machine
end

section
/-! PROOFS. The container blocks (spec/42_container_blocks.md): the header and each block token, complete and
cut short, and what each token can change (R220 to R229). -/

namespace Sys2Proof.Machine

/-! ## Operands -/

/-- READ_PALETTE for a global palette of the length the flags byte gives, which is none without its flag
(R220, R227). -/
theorem readGlobalPalette_complete {flags : Byte} {p : List Rgb} (hp : p.length = paletteLength flags)
    (s : State) : readGlobalPalette flags (some p) s = .ok (p.map colorOf) (s.advance (3 * p.length)) := by
  unfold readGlobalPalette
  split
  · rename_i hf
    rw [hp, paletteLength_of_flag hf]
    rfl
  · rename_i hf
    obtain rfl : p = [] := List.eq_nil_of_length_eq_zero (hp.trans (if_neg hf))
    rfl

/-- READ_PALETTE for a local palette of the length the flags byte gives; without its flag the register
keeps its value (R222, R227). -/
theorem readLocalPalette_complete {flags : Byte} {p : List Rgb} (hp : p.length = paletteLength flags)
    (s : State) : readLocalPalette flags (some p) s = .ok () { s with
      pos := s.pos + 3 * p.length
      lpal := if paletteFlag flags then p.map colorOf else s.lpal } := by
  unfold readLocalPalette
  split
  · rename_i hf
    rw [hp, paletteLength_of_flag hf]
    rfl
  · rename_i hf
    obtain rfl : p = [] := List.eq_nil_of_length_eq_zero (hp.trans (if_neg hf))
    rfl

section
variable {s u : State} {d : ImageDesc}

/-- An image whose local palette is cut short stops behind its descriptor (R222, R350). -/
theorem beginImage_without_palette (s : State) (hf : paletteFlag d.flags = true) (v : Option Byte) :
    beginImage (some d) none v s = raise .truncated { s with pos := s.pos + 10, img := imageRegs d } := by
  simp only [beginImage, readLocalPalette, if_pos hf, readPalette, bind_raise]

/-- An image without a min_code_size byte stops behind its local palette (R222, R350). -/
theorem beginImage_without_minCodeSize (s : State) {p : List Rgb} (hp : p.length = paletteLength d.flags) :
    beginImage (some d) (some p) none s = raise .truncated { s with
      pos := s.pos + 10 + 3 * p.length
      img := imageRegs d
      lpal := if paletteFlag d.flags then p.map colorOf else s.lpal } := by
  simp only [beginImage, readLocalPalette_complete hp, Result.bind_ok]

/-- An error in the operands is the token's, for an image and for an empty one (R222, R229). -/
theorem exec_image_of_beginImage_raise {p : Option (List Rgb)} {v : Option Byte} {k : ErrorKind}
    (h : beginImage (some d) p v s = raise k u) {i : Instr}
    (hi : i = .image (some d) p v ∨ i = .imageEmpty d p v) : exec i s = .next (takeError k u) := by
  rcases hi with rfl | rfl
  · simp only [exec, execImage, h, bind_raise, finish_raise]
  · simp only [exec, execImageEmpty, h, bind_raise, finish_raise]

end

/-- The disposal selector by its two bits (R109). -/
theorem disposalOf_disposalField (flags : Byte) :
    disposalOf (disposalField flags) =
      if flags.getLsbD 3 then (if flags.getLsbD 2 then .restorePrev else .restoreBg)
      else (if flags.getLsbD 2 then .keep else .noneD) := by
  have hbits : ∀ d : BitVec 2, disposalOf d =
      if d.getLsbD 1 then (if d.getLsbD 0 then .restorePrev else .restoreBg)
      else (if d.getLsbD 0 then .keep else .noneD) := by decide
  simp [hbits, disposalField]

/-! ## Tokens -/

/-- Settles O24: the header with its whole palette, with its palette cut short, and without a version. -/
theorem parseHeaderWritesScreen : Obligations.ParseHeaderWritesScreen := by
  refine ⟨fun s h v p hv hp => ?complete, fun s h v hv hf => ?cutShort, fun s h p hnone => ?noVersion⟩
  case complete =>
    simp only [exec, execParseHeader, parseHeader, hv, readGlobalPalette_complete hp, Result.bind_ok,
      Result.finish_ok]
    rfl
  case cutShort =>
    have hpal : paletteFlag h.flags = true := hf
    simp only [exec, execParseHeader, parseHeader, hv, readGlobalPalette, readPalette, screenRegs, hpal]
    rfl
  case noVersion =>
    rcases hnone with rfl | hnone
    · rfl
    · obtain ⟨x, rfl, hx⟩ := Option.map_eq_some_iff.mp hnone
      simp only [exec, execParseHeader, parseHeader, hx, finish_raise]

/-- Settles O28: the three places an image's operands can end. -/
theorem imageCutShortTruncated : Obligations.ImageCutShortTruncated := by
  intro s d p v img
  exact ⟨fun _ => rfl,
    fun hf _ hi => exec_image_of_beginImage_raise (beginImage_without_palette s hf v) hi,
    fun hp _ hi => exec_image_of_beginImage_raise (beginImage_without_minCodeSize s hp) hi⟩

/-- FIRST_ALLOC writes the canvas registers alone (R261). -/
theorem firstAlloc_eq (s : State) : firstAlloc s = { s with
    canvas := if s.canvas.written then s.canvas else ⟨true, s.zeroCanvas, .snap s.zeroCanvas⟩ } := by
  unfold firstAlloc
  split <;> rfl

/-- DECODE_FRAME reaches DISPOSE when both its checks pass (R180, R230, R274). -/
theorem beginFrame_complete {v : Byte} (hv : 2 ≤ v.toNat) {s : State}
    (hi : s.img.interlaced = true → s.scr.W ≠ 0#16 ∧ s.img.top = 0#16 ∧ s.img.height = s.scr.H) :
    beginFrame v s = .ok () { s with
      lzw := engineInit (clampMinCodeSize v) s.lzw.dict
      canvas := (firstAlloc s).canvas
      control := .dispose } := by
  have hm : ¬ clampMinCodeSize v < Config.minCodeSizeLow := Nat.not_lt.mpr (Nat.le_min.mpr ⟨hv, by decide⟩)
  have hcheck : ∀ e, interlaceCheck { s with lzw := e } = .ok () { s with lzw := e } := fun e =>
    if_neg (by simpa [and_assoc] using hi)
  simp only [beginFrame, lzwInit, if_neg hm, Result.bind_ok, hcheck, firstAlloc_eq]
  rfl

/-- Settles O26: the operands are complete, the image is not empty, and the checks before the disposal
pass; what the dictionary reads afterwards is the literals over what it read before. -/
theorem imageBeginsFrame : Obligations.ImageBeginsFrame := by
  intro s d p v hw hh hp hv hi
  refine ⟨Dict.writeLiterals (2 ^ clampMinCodeSize v) s.lzw.dict, ?_, fun c => Dict.read_writeLiterals _ c _⟩
  simp only [exec, execImage, beginImage_complete s d p v hp, Result.bind_ok, imageBody, hw, hh, or_self,
    if_false]
  rw [beginFrame_complete hv hi, Result.finish_ok, firstAlloc_eq]
  rfl

/-- Settles O29: the operands are complete, and SKIP_CHAIN passes the chain behind them. -/
theorem emptyImageIsSkipped : Obligations.EmptyImageIsSkipped := by
  intro s d p v blocks tail _ hp hok hbytes
  have hbegin := beginImage_complete s d p v hp
  simp only [exec, execImageEmpty, hbegin, Result.bind_ok, skipImage]
  rw [skipChain_encodeChain hok hbytes]
  rfl

/-- Settles O30: SKIP_CHAIN passes the chain behind the label. -/
theorem extensionIsSkipped : Obligations.ExtensionIsSkipped := by
  intro s l blocks tail hok hbytes
  have hskip := skipChain_encodeChain (s := s.advance 2) hok hbytes
  simp only [exec, execExtSkip, hskip, Result.finish_ok]
  rfl

/-- Settles O32: the registers are written before the terminator is looked at (R350 (f)). -/
theorem gceWritesGraphicControl : Obligations.GceWritesGraphicControl := by
  intro s b gc
  have hgc : graphicControl b = gc := by
    simp only [graphicControl, disposalOf_disposalField]
    rfl
  refine ⟨fun h => ?_, fun h => ?_, rfl⟩
  · simp only [exec, execExtGce, extGce, hgc, if_pos h, Result.finish_ok]
  · simp only [exec, execExtGce, extGce, hgc, if_neg h, finish_fault]
    rfl

/-- Settles O33: TRAILER's arm, field by field (R225). -/
theorem trailerEndsStream : Obligations.TrailerEndsStream := fun _ => rfl

/-- Settles O59: the frames of the tokens; TRAILER and UNEXPECTED answer one state each. -/
theorem blockTokensKeepTheRest : Obligations.BlockTokensKeepTheRest := by
  intro i s t ht
  refine ⟨?image, ?imageEmpty, ?extGce, ?others⟩
  case image =>
    rintro ⟨d, p, v, rfl⟩
    exact (image_frame ht).1
  case imageEmpty =>
    rintro ⟨d, p, v, rfl⟩
    exact imageEmpty_frame ht
  case extGce =>
    rintro ⟨b, rfl⟩
    exact extGce_frame ht
  case others =>
    rintro (⟨l, rfl⟩ | rfl | ⟨b, rfl⟩)
    · exact extSkip_frame (l := l) ht
    · exact Host.Outcome.next.inj ht ▸ rfl
    · exact Host.Outcome.next.inj ht ▸ rfl

/-- Settles O25: at the end of the buffer no introducer can be read, and at a last 0x21 no label. -/
theorem blockLoopTruncated : Obligations.BlockLoopTruncated := by
  intro s hc
  refine ⟨fun hend => ?noIntroducer, fun hbyte hlast => ?noLabel⟩
  case noIntroducer =>
    rw [step_block hc, State.bytesFrom_nil hend]
    rfl
  case noLabel =>
    obtain ⟨hlt, hread⟩ := State.byteAt?_eq_some hbyte
    rw [step_block hc, State.bytesFrom_cons hlt, ← hread, State.bytesFrom_nil hlast.le]
    rfl

end Sys2Proof.Machine
end

section
/-! PROOFS. Which error kinds each instruction can raise (R155, R220 to R229), and so where UnexpectedBlock
comes from (R226). -/

namespace Sys2Proof

/-- The error kinds that an instruction's rules raise (R154, R155, R220, R222 to R224, R226, R229). -/
def Instr.raises : Instr → List Machine.ErrorKind
  | .parseHeader _ _ => [.invalidHeader, .truncated]
  | .image _ _ _ => [.truncated, .malformed]
  | .imageEmpty _ _ _ => [.truncated, .malformed]
  | .extGce _ => [.truncated]
  | .extSkip _ => [.truncated, .malformed]
  | .unexpected _ => [.unexpectedBlock]
  | .endCode => [.truncated, .malformed]
  | _ => []

theorem Instr.eq_unexpected_of_raises {i : Instr} (h : .unexpectedBlock ∈ i.raises) :
    ∃ b, i = .unexpected b := by
  cases i with
  | unexpected b => exact ⟨b, rfl⟩
  | _ => simp [Instr.raises] at h

/-! ## Only a block position reads UNEXPECTED -/

theorem decodeCommand_ne_unexpected (n : Nat) (bytes : Bytes) (b : Byte) :
    decodeCommand n bytes ≠ .ok (.unexpected b) := by
  intro h
  rcases decodeCommand_cases n bytes with ⟨-, e⟩ | ⟨-, e⟩ | ⟨-, e⟩ | ⟨-, e⟩ | ⟨-, e⟩ | ⟨-, e⟩ | ⟨-, e⟩ | ⟨-, e⟩ <;>
    cases e.symm.trans h

theorem decodeHeader_ne_unexpected (bs : Bytes) (b : Byte) : decodeHeader bs ≠ .unexpected b := by
  obtain ⟨screen, gpal, e⟩ := decodeHeader_kind bs
  rw [e]
  exact Instr.noConfusion

theorem decodeSelector_ne_unexpected (d : Machine.Disposal) (b : Byte) :
    decodeSelector d.selector ≠ .unexpected b := by
  cases d <;> exact Instr.noConfusion

theorem decodeCode_ne_unexpected (k : CodeContext) (c : Nat) (b : Byte) : decodeCode k c ≠ .unexpected b :=
  fun h => nomatch (decodeCode_eq_iff.mp h).1

/-- UNEXPECTED is read from a byte that is none of the three introducers (R105, R226). -/
theorem decodeBlock_eq_unexpected {bs : Bytes} {b : Byte} (h : decodeBlock bs = .ok (.unexpected b)) :
    ∃ rest, bs = b :: rest ∧ b ≠ 0x2C#8 ∧ b ≠ 0x21#8 ∧ b ≠ 0x3B#8 := by
  match bs with
  | [] => nomatch h
  | t :: rest =>
    obtain ⟨himage, hext, htrailer, -⟩ := introducerAndLabelSelectToken default t rest
    have h1 : t ≠ 0x2C#8 := by
      intro ht
      obtain ⟨i, e, hi⟩ := himage ht
      rcases hi with ⟨d, p, v, rfl⟩ | ⟨d, p, v, rfl⟩ <;> cases e.symm.trans h
    have h2 : t ≠ 0x21#8 := by
      rintro rfl
      match rest with
      | [] => nomatch h
      | l :: body =>
        obtain ⟨hgce, hskip⟩ := hext rfl l body rfl
        by_cases hl : l = 0xF9#8
        · obtain ⟨x, e⟩ := hgce hl
          cases e.symm.trans h
        · cases (hskip hl).symm.trans h
    have h3 : t ≠ 0x3B#8 := fun ht => by cases (htrailer ht).symm.trans h
    rw [decodeBlock_unexpected h1 h2 h3] at h
    cases h
    exact ⟨rest, rfl, h1, h2, h3⟩

end Sys2Proof

namespace Sys2Proof.Machine

section
variable {α β : Type} {ks : List ErrorKind} {p : Phase}

/-- A state reached from phase `p` is FAILED only if `p` was that phase, or for an error kind of `ks`. -/
def FailsOnly (ks : List ErrorKind) (p : Phase) (t : State) : Prop :=
  ∀ k, t.phase = .failed k → t.phase = p ∨ ∃ e ∈ ks, k = .error e

theorem FailsOnly.same {t : State} (h : t.phase = p) : FailsOnly ks p t := fun _ _ => .inl h

theorem FailsOnly.of_not_failed {t : State} (h : t.phase.isFailed = false) : FailsOnly ks p t := by
  intro k hk
  rw [hk] at h
  cases h

theorem FailsOnly.takeError {e : ErrorKind} (h : e ∈ ks) (t : State) : FailsOnly ks p (takeError e t) := by
  intro k hk
  cases hk
  exact .inr ⟨e, h, rfl⟩

theorem FailsOnly.trans {s t : State} (hs : FailsOnly ks p s) (ht : FailsOnly ks s.phase t) :
    FailsOnly ks p t := by
  intro k hk
  rcases ht k hk with h | h
  · rw [h]
    exact hs k (h ▸ hk)
  · exact .inr h

/-- An operation begun in phase `p` raises the error kinds of `ks` only, and fails in no other way. -/
structure Raises (ks : List ErrorKind) (p : Phase) (r : Result α) : Prop where
  trap : ∀ e u, r = .trap (.error e) u → e ∈ ks
  ok   : ∀ a u, r = .ok a u → FailsOnly ks p u

theorem Raises.of_ok {a : α} {u : State} (h : FailsOnly ks p u) : Raises ks p (.ok a u) where
  trap := fun _ _ h => nomatch h
  ok := by rintro _ _ ⟨⟩; exact h

theorem Raises.of_raise {e : ErrorKind} (h : e ∈ ks) (u : State) : Raises ks p (raise (α := α) e u) where
  trap := by rintro _ _ ⟨⟩; exact h
  ok := fun _ _ h => nomatch h

theorem Raises.of_fault (f : FaultCode) (u : State) : Raises ks p (fault (α := α) f u) where
  trap := fun _ _ h => nomatch h
  ok := fun _ _ h => nomatch h

theorem Raises.bind {r : Result α} {f : α → State → Result β} (hr : Raises ks p r)
    (hf : ∀ a u, Raises ks u.phase (f a u)) : Raises ks p (r.bind f) where
  trap := by
    intro e u h
    rcases Result.bind_eq_trap.mp h with h | ⟨a, w, -, h⟩
    · exact hr.trap e u h
    · exact (hf a w).trap e u h
  ok := by
    intro b u h
    obtain ⟨a, w, hw, h⟩ := Result.bind_eq_ok.mp h
    exact (hr.ok a w hw).trans ((hf a w).ok b u h)

/-- The step of an operation fails as the operation does (R347). -/
theorem Raises.finish {r : Result Unit} {t : State} (hr : Raises ks p r) (ht : r.finish = .next t) :
    FailsOnly ks p t := by
  rcases Result.finish_eq_next.mp ht with h | ⟨e, u, h, rfl⟩
  · exact hr.ok () t h
  · exact .takeError (hr.trap e u h) u

end

/-! ## The operations -/

section
variable {ks : List ErrorKind}

theorem readPalette_raises (hk : .truncated ∈ ks) (n : Nat) (pal : Option (List Rgb)) (s : State) :
    Raises ks s.phase (readPalette n pal s) := by
  cases pal with
  | none => exact .of_raise hk s
  | some q => exact .of_ok (.same rfl)

theorem parseHeader_raises (screen : Option Screen) (gpal : Option (List Rgb)) (s : State) :
    Raises [.invalidHeader, .truncated] s.phase (parseHeader screen gpal s) := by
  have hpal : ∀ flags u, Raises [.invalidHeader, .truncated] u.phase (readGlobalPalette flags gpal u) := by
    intro flags u
    unfold readGlobalPalette
    split
    · exact readPalette_raises (by simp) _ gpal u
    · exact .of_ok (.same rfl)
  unfold parseHeader
  split
  · exact .of_raise (by simp) s
  · split
    · exact .of_raise (by simp) s
    · rename_i h _ v _
      exact (hpal h.flags { s with scr := screenRegs v h, pos := Config.headerBytes }).bind fun _ _ =>
        .of_ok (.of_not_failed rfl)

theorem beginImage_raises (hk : .truncated ∈ ks) (desc : Option ImageDesc) (lpal : Option (List Rgb))
    (v : Option Byte) (s : State) : Raises ks s.phase (beginImage desc lpal v s) := by
  have hpal : ∀ flags u, Raises ks u.phase (readLocalPalette flags lpal u) := by
    intro flags u
    unfold readLocalPalette
    split
    · exact (readPalette_raises hk _ lpal u).bind fun _ _ => .of_ok (.same rfl)
    · exact .of_ok (.same rfl)
  cases desc with
  | none => exact .of_raise hk _
  | some d =>
    refine (hpal d.flags { s with img := imageRegs d, pos := s.pos + 10 }).bind fun _ u => ?_
    cases v with
    | none => exact .of_raise hk u
    | some b => exact .of_ok (.same rfl)

theorem ReaderMove.phase {s t : State} (h : ReaderMove s t) : t.phase = s.phase := by rw [h.frame]

theorem skipChain_raises (s : State) : Raises [.truncated, .malformed] s.phase (skipChain s) where
  trap := by
    intro e u h
    rcases skipChainFrom_trap h with h | h <;> simp [Cause.error.inj h]
  ok := by
    intro a u h
    have hmove := skipChain_move s
    rw [h] at hmove
    exact .same hmove.phase

theorem skipResidual_raises (s : State) : Raises [.truncated, .malformed] s.phase (skipResidual s) :=
  skipChain_raises { s with pos := s.pos + s.reader.sbRem, reader := ⟨0, 0, 0⟩ }

/-- DECODE_FRAME up to DISPOSE raises no error kind (R180, R274). -/
theorem beginFrame_raises (v : Byte) (s : State) : Raises ks s.phase (beginFrame v s) where
  trap := by
    intro e u h
    rcases beginFrame_trap h with h | h <;> cases h
  ok := by
    intro a u h
    obtain ⟨-, -, rfl⟩ := beginFrame_ok h
    exact .same rfl

theorem imageBody_raises (v : Byte) (s : State) : Raises [.truncated, .malformed] s.phase (imageBody v s) := by
  unfold imageBody
  split
  · exact skipChain_raises s
  · exact beginFrame_raises v (selectPalette s)

theorem extGce_raises (b : Option GceBody) (s : State) : Raises [.truncated] s.phase (extGce b s) := by
  cases b with
  | none => exact .of_raise (by simp) _
  | some b =>
    simp only [extGce]
    split
    · exact .of_ok (.same rfl)
    · exact .of_fault _ _

end

/-! ## The instructions -/

/-- An instruction enters FAILED only for an error kind of its rules. -/
theorem exec_failsOnly {i : Instr} {s t : State} (ht : exec i s = .next t) :
    FailsOnly i.raises s.phase t := by
  cases i with
  | parseHeader screen gpal => exact (parseHeader_raises screen gpal s).finish ht
  | image d p v => exact ((beginImage_raises (by simp) d p v s).bind imageBody_raises).finish ht
  | imageEmpty d p v =>
    exact ((beginImage_raises (by simp) (some d) p v s).bind fun _ u => skipChain_raises u).finish ht
  | extGce b => exact (extGce_raises b s).finish ht
  | extSkip l => exact (skipChain_raises (s.advance 2)).finish ht
  | trailer => exact Host.Outcome.next.inj ht ▸ .of_not_failed rfl
  | unexpected b => exact Host.Outcome.next.inj ht ▸ .takeError (by simp [Instr.raises]) _
  | endCode =>
    have hleave : ∀ u : State, Raises [.truncated, .malformed] u.phase (.ok () (u.goto .emit)) := fun _ =>
      .of_ok (.same rfl)
    exact ((skipResidual_raises s).bind fun _ => hleave).finish ht
  | dict c => exact .same (by rw [(code_frame ht (.inl ⟨c, rfl⟩)).1])
  | kwkwk c => exact .same (by rw [(code_frame ht (.inr ⟨c, rfl⟩)).1])
  | unspecCode c => cases ht
  | clear | skip | disposeNone | disposeKeep | disposeRestoreBg =>
    exact Host.Outcome.next.inj ht ▸ .same rfl
  | disposeRestorePrev => exact Host.Outcome.next.inj ht ▸ .same (restorePrevious_phase s)
  | construct b =>
    rcases construct_frame ht with ⟨-, rfl⟩ | ⟨-, rfl⟩
    · exact .same rfl
    · exact .of_not_failed rfl
  | nextFrame | getVersion | getWidth | getHeight | getBackgroundColor =>
    exact .same (by rw [host_frame ht (by simp)])
  | release =>
    simp only [exec, execRelease] at ht
    split at ht <;> obtain rfl := Host.Outcome.next.inj ht
    · exact .same rfl
    · exact .of_not_failed rfl

/-- UNEXPECTED alone raises UnexpectedBlock (R226). -/
theorem exec_unexpectedBlock {i : Instr} {s t : State} (ht : exec i s = .next t) (hne : s.phase ≠ t.phase)
    (hf : t.phase = .failed (.error .unexpectedBlock)) : ∃ b, i = .unexpected b := by
  obtain ⟨e, he, hk⟩ := (exec_failsOnly ht _ hf).resolve_left hne.symm
  cases hk
  exact Instr.eq_unexpected_of_raises he

theorem finishFrame_phase (s : State) : (finishFrame s).phase = s.phase := by
  unfold finishFrame
  split <;> rfl

/-- A step that enters FAILED(UnexpectedBlock) runs UNEXPECTED at a block position (R221, R226). -/
theorem step_unexpectedBlock {s t : State} (ht : step s = .next t) (hne : s.phase ≠ t.phase)
    (hf : t.phase = .failed (.error .unexpectedBlock)) :
    s.control = .block ∧ ∃ b, decodeBlock (s.bytesFrom s.pos) = .ok (.unexpected b) := by
  rcases step_next_cases ht with ⟨-, -, rfl⟩ | ⟨w, ws, i, -, -, hd, he⟩ | ⟨i, -, rfl, he⟩ | ⟨i, hc, hd, he⟩ |
    ⟨-, -, rfl⟩ | ⟨-, -, rfl⟩ | ⟨-, he⟩ | ⟨-, rfl⟩ | ⟨-, rfl⟩ | ⟨c, u, -, hr, he⟩ | ⟨k, u, -, hr, rfl⟩
  · exact absurd rfl hne
  · obtain ⟨b, rfl⟩ := exec_unexpectedBlock he hne hf
    exact absurd hd (decodeCommand_ne_unexpected _ _ b)
  · obtain ⟨b, hb⟩ := exec_unexpectedBlock he hne hf
    exact absurd hb (decodeHeader_ne_unexpected _ b)
  · obtain ⟨b, rfl⟩ := exec_unexpectedBlock he hne hf
    exact ⟨hc, b, hd⟩
  · cases hf
  · cases hf
  · obtain ⟨b, hb⟩ := exec_unexpectedBlock he hne hf
    exact absurd hb (decodeSelector_ne_unexpected _ b)
  · exact absurd rfl hne
  · exact absurd (finishFrame_phase s).symm hne
  · have hm := readCode_move s.lzw.width s
    rw [hr] at hm
    obtain ⟨b, hb⟩ := exec_unexpectedBlock he (hm.phase.trans_ne hne) hf
    exact absurd hb (decodeCode_ne_unexpected _ c b)
  · cases hf
    rcases readCode_trap hr with h | h <;> cases h

/-- Settles O23: UNEXPECTED's arm, the block decoder at such a byte, and the way back from the phase to the
instruction and its byte. -/
theorem unexpectedBlockExactly : Obligations.UnexpectedBlockExactly := by
  refine ⟨fun _ _ => rfl, fun s b hc hbyte h1 h2 h3 => ?decodes, fun s t ht hne hf => ?stood⟩
  case decodes =>
    obtain ⟨hlt, rfl⟩ := State.byteAt?_eq_some hbyte
    rw [step_block hc, State.bytesFrom_cons hlt, decodeBlock_unexpected h1 h2 h3]
  case stood =>
    obtain ⟨hc, b, hd⟩ := step_unexpectedBlock ht hne hf
    obtain ⟨rest, hbytes, hb⟩ := decodeBlock_eq_unexpected hd
    exact ⟨hc, b, (State.bytesFrom_eq_cons hbytes).2.1, hb⟩

end Sys2Proof.Machine
end

section
/-! PROOFS. The frame compositor (spec/43_compositor.md): the disposals (R263 to R266), the placement of a
frame's indices (R268 to R273), the interlace passes (R275, R276), emission (R277), and the canvas that
stays (R280). -/

namespace Sys2Proof.Machine

/-! ## Disposal -/

/-- Settles O44: both arms are `aliasPrev`. -/
theorem noneAndKeepAliasPrevious : Obligations.NoneAndKeepAliasPrevious := by
  rintro s i (rfl | rfl) <;> rfl

/-- The snapshot that RestoreBackground takes, if any (R265). -/
theorem restoreBackground_prev (policy : RbPrevPolicy) (s : State) :
    (restoreBackground policy s).canvas.prev =
      if s.canvas.prev = .same ∧ policy = .detach then .snap s.canvas.output else s.canvas.prev := by
  cases hp : s.canvas.prev <;> cases policy <;> simp [restoreBackground, hp]

/-- Settles O45: the arm differs from the statement in how it writes the new `prev`. -/
theorem restoreBackgroundClears : Obligations.RestoreBackgroundClears := by
  intro s
  rw [← restoreBackground_prev]
  rfl

theorem exec_disposeRestorePrev_of_same {s : State} (hp : s.canvas.prev = .same) :
    exec .disposeRestorePrev s = .next { s with
      canvas := { s.canvas with prev := .snap s.canvas.output }, control := .cursor } := by
  simp only [exec, execDisposeRestorePrev, restorePrevious, hp, State.goto]

theorem exec_disposeRestorePrev_of_snap {s : State} {b : List Pixel} (hp : s.canvas.prev = .snap b) :
    exec .disposeRestorePrev s = .next { s with
      canvas := { s.canvas with output := b }, control := .cursor } := by
  simp only [exec, execDisposeRestorePrev, restorePrevious, hp, State.goto]

/-- Whatever `prev` was, RestorePrevious leaves it a snapshot of the canvas (R266). -/
theorem prev_eq_snap_of_disposeRestorePrev {s t : State} (ht : exec .disposeRestorePrev s = .next t) :
    t.canvas.prev = .snap t.canvas.output := by
  cases hp : s.canvas.prev with
  | same =>
    rw [exec_disposeRestorePrev_of_same hp] at ht
    exact Host.Outcome.next.inj ht ▸ rfl
  | snap b =>
    rw [exec_disposeRestorePrev_of_snap hp] at ht
    exact Host.Outcome.next.inj ht ▸ hp

/-- Settles O46: the second of two RestorePrevious copies the snapshot that the first one leaves. -/
theorem restorePreviousCopiesSnapshot : Obligations.RestorePreviousCopiesSnapshot := by
  refine fun s => ⟨exec_disposeRestorePrev_of_same, fun _ => exec_disposeRestorePrev_of_snap, ?twice⟩
  case twice =>
    intro t u v ht hu hv
    rw [exec_disposeRestorePrev_of_snap (hu.trans (prev_eq_snap_of_disposeRestorePrev ht))] at hv
    exact Host.Outcome.next.inj hv ▸ rfl

/-! ## Placement of one index -/

theorem yLimitOf_eq (v : VclipLimit) (s : State) :
    yLimitOf v s = if v = .screen then s.scr.H.toNat
      else min (s.img.top.toNat + s.img.height.toNat) s.scr.H.toNat := by
  cases v <;> rfl

/-- Settles O47: the step at the cursor place is CURSOR_INIT and READER_INIT. -/
theorem cursorStartsAtRectangle : Obligations.CursorStartsAtRectangle := by
  intro s hc
  rw [step_cursor hc, ← yLimitOf_eq]
  rfl

section
variable {s : State} {i : Nat}

theorem State.stopped_eq_true_iff : s.stopped = true ↔ s.cur.yLimit ≤ s.cur.cy := decide_eq_true_iff

theorem State.stopped_eq_false_iff : s.stopped = false ↔ s.cur.cy < s.cur.yLimit :=
  decide_eq_false_iff_not.trans not_le

/-- An index is written inside the screen's columns, if it is not transparent (R270, R271). -/
theorem State.writes_eq_true_iff :
    s.writes i = true ↔ s.cur.cx < s.cur.safeEnd ∧ s.gc.tidx.map BitVec.toNat ≠ some i := by
  rw [State.writes, Bool.and_eq_true, decide_eq_true_iff, Bool.not_eq_true', ← Bool.not_eq_true,
    skips_iff, ne_eq]

theorem State.writes_eq_false_iff :
    s.writes i = false ↔ s.cur.safeEnd ≤ s.cur.cx ∨ s.gc.tidx.map BitVec.toNat = some i := by
  rw [← Bool.not_eq_true, State.writes_eq_true_iff, not_and_or, not_lt, not_not]

/-- PLACE past the stop row (R272). -/
theorem place_of_stopped (h : s.stopped = true) : place i s = .ok () s := by
  rw [place, if_pos h]

/-- PLACE of an index that is clipped or transparent (R270, R271). -/
theorem place_of_not_writes (hs : s.stopped = false) (hw : s.writes i = false) :
    place i s = .ok () (advanceCursor s) := by
  simp only [place, hs, hw, Bool.false_eq_true, if_false]

/-- PLACE of an index that is written is LOOKUP and OutWrite (R269, R273). -/
theorem place_of_writes (hs : s.stopped = false) (hw : s.writes i = true) :
    place i s = (lookup i s).bind fun px t =>
      .ok () (advanceCursor (t.outWrite (t.oidx t.cur.cx t.cur.cy) px)) := by
  simp only [place, hs, hw, Bool.false_eq_true, if_false, if_true]

theorem lookup_of_getElem? {px : Pixel} (h : s.activePalette[i]? = some px) : lookup i s = .ok px s := by
  simp only [lookup, h]

theorem lookup_of_length_le (h : s.activePalette.length ≤ i) : lookup i s = fault .unspecPaletteIndex s := by
  simp only [lookup, List.getElem?_eq_none h]

/-- PLACE faults on an index that is written and has no colour (R273). -/
theorem place_beyond_palette (hy : s.cur.cy < s.cur.yLimit) (hx : s.cur.cx < s.cur.safeEnd)
    (ht : s.gc.tidx.map BitVec.toNat ≠ some i) (hi : s.activePalette.length ≤ i) :
    place i s = fault .unspecPaletteIndex s := by
  rw [place_of_writes (State.stopped_eq_false_iff.mpr hy) (State.writes_eq_true_iff.mpr ⟨hx, ht⟩),
    lookup_of_length_le hi, bind_fault]

end

/-- Settles O48: PLACE at the stop row, on an index that is not written, and on one that is. -/
theorem placeWritesOnePixel : Obligations.PlaceWritesOnePixel := by
  intro s i next
  refine ⟨fun hy => place_of_stopped (State.stopped_eq_true_iff.mpr hy), fun hy => ⟨fun hu => ?unwritten,
    fun hx ht => ⟨fun px hpx => ?written, place_beyond_palette hy hx ht⟩⟩⟩
  all_goals have hs := State.stopped_eq_false_iff.mpr hy
  case unwritten => exact place_of_not_writes hs (State.writes_eq_false_iff.mpr hu)
  case written =>
    rw [place_of_writes hs (State.writes_eq_true_iff.mpr ⟨hx, ht⟩), lookup_of_getElem? hpx]
    rfl

/-! ## What placement leaves unchanged -/

section
variable {s t : State}

theorem PlaceMove.scr (h : PlaceMove s t) : t.scr = s.scr := by rw [h.frame]
theorem PlaceMove.img (h : PlaceMove s t) : t.img = s.img := by rw [h.frame]
theorem PlaceMove.gc (h : PlaceMove s t) : t.gc = s.gc := by rw [h.frame]
theorem PlaceMove.activePalette (h : PlaceMove s t) : t.activePalette = s.activePalette := by
  rw [h.frame]
  rfl

theorem place_ok_move {i : Nat} (h : place i s = .ok () t) : PlaceMove s t := by
  have hmove := place_move i s
  rwa [h] at hmove

theorem emitAll_ok_move {q : List Nat} (h : emitAll q s = .ok () t) : PlaceMove s t := by
  have hmove := emitAll_move q s
  rwa [h] at hmove

end

/-! ## A code whose emission faults -/

section
variable {s t : State} {c : Nat}

/-- An emission stops at the first index that PLACE faults on, with the ones before it placed (R190, R273). -/
theorem emitAll_beyond_palette {i : Nat} {pre : List Nat} (post : List Nat) (hpre : emitAll pre s = .ok () t)
    (hi : place i t = fault .unspecPaletteIndex t) :
    emitAll (pre ++ i :: post) s = fault .unspecPaletteIndex t := by
  rw [emitAll_append, hpre, Result.bind_ok, emitAll, hi, bind_fault]

theorem exec_dict_of_emitAll_fault {f : FaultCode} (h : emitAll (s.lzw.entry c) s = fault f t) :
    exec (.dict c) s = .fault (modelFault f t) := by
  rw [exec, execDict, h, bind_fault, finish_fault]

theorem exec_kwkwk_of_emitAll_fault {f : FaultCode} {p : Nat} (hp : s.lzw.prevCode = some p)
    (h : emitAll (s.lzw.kwkwkSequence p) s = fault f t) : exec (.kwkwk c) s = .fault (modelFault f t) := by
  simp only [exec, execKwkwk, hp, h, bind_fault, finish_fault]

end

/-- Settles O41: the emission stops at the index, so the engine update behind it does not run. -/
theorem paletteFaultEndsCode : Obligations.PaletteFaultEndsCode := by
  intro s t c i pre post q x hx hq hpre hy hcol ht hi
  have hmove := emitAll_ok_move hpre
  have hemit : emitAll q s = fault .unspecPaletteIndex t := by
    rw [hq]
    exact emitAll_beyond_palette post hpre
      (place_beyond_palette hy hcol (hmove.gc ▸ ht) (hmove.activePalette ▸ hi))
  refine ⟨?_, emitAll_ok_lzw hpre⟩
  rcases hx with ⟨rfl, rfl⟩ | ⟨rfl, p, hp, rfl⟩
  · exact exec_dict_of_emitAll_fault hemit
  · exact exec_kwkwk_of_emitAll_fault hp hemit

/-! ## Placement of a frame

`b` is the state before CURSOR_INIT, `s` and `t` are states while the frame's indices are placed. -/

/-- The `j`-th index of a frame, `i`, is drawn: its column is on the screen, its row above the stop row,
and it is not transparent (R270 to R272). -/
def State.Draws (b : State) (j i : Nat) : Prop :=
  b.img.columnOf j < b.scr.W.toNat ∧ b.img.rowOf j < yLimitOf Config.vclipLimit b ∧
    b.gc.tidx.map BitVec.toNat ≠ some i

/-- The canvas element of the `j`-th index of a frame (R75, R269). -/
def State.elementOf (b : State) (j : Nat) : Nat :=
  b.oidx (b.img.columnOf j) (b.img.rowOf j)

/-- The indices before the `j`-th one are placed: the cursor stands at the `j`-th one's place, or at the
stop row, where it stays and which no later index's place is above. -/
structure PlacingAt (b : State) (j : Nat) (s : State) : Prop where
  move     : PlaceMove b s
  cursor   : CursorOk s
  position : (s.cur.cx = b.img.columnOf j ∧ s.cur.cy = b.img.rowOf j) ∨
    (s.cur.yLimit ≤ s.cur.cy ∧ s.cur.yLimit ≤ b.img.rowOf j)

section
variable {b s t : State} {i j : Nat}

/-- CURSOR_INIT stands at the first index's place (R268). -/
theorem placingAt_cursorInit (hw : b.img.width ≠ 0#16) :
    PlacingAt b 0 (cursorInit Config.vclipLimit b) where
  move := ⟨rfl, rfl⟩
  cursor := ⟨rfl, rfl, rfl, le_refl _,
    Nat.lt_add_of_pos_right (Nat.pos_of_ne_zero fun h => hw (BitVec.eq_of_toNat_eq h)), le_refl _⟩
  position := .inl ⟨by simp [cursorInit, ImageRegs.columnOf], by simp [cursorInit, ImageRegs.rowOf]⟩

theorem PlacingAt.yLimit_eq (h : PlacingAt b j s) : s.cur.yLimit = yLimitOf Config.vclipLimit b := by
  rw [h.cursor.yLimit_eq, h.move.frame]
  rfl

/-- Once the cursor is at the stop row, the index's place is not above it. -/
theorem PlacingAt.yLimit_le_rowOf (h : PlacingAt b j s) (hs : s.stopped = true) :
    s.cur.yLimit ≤ b.img.rowOf j := by
  rcases h.position with ⟨-, hy⟩ | ⟨-, hrow⟩
  · exact hy ▸ State.stopped_eq_true_iff.mp hs
  · exact hrow

/-- Until the cursor is at the stop row, it stands at the index's place. -/
theorem PlacingAt.cursor_eq (h : PlacingAt b j s) (hs : s.stopped = false) :
    s.cur.cx = b.img.columnOf j ∧ s.cur.cy = b.img.rowOf j :=
  h.position.resolve_right fun hstop => (State.stopped_eq_false_iff.mp hs).not_ge hstop.1

/-- PLACE writes exactly the indices that are drawn. The cursor is left of the rectangle's end, so
`safe_end` is as good as the screen's last column (R268, R270). -/
theorem PlacingAt.draws_iff (h : PlacingAt b j s) :
    b.Draws j i ↔ s.stopped = false ∧ s.writes i = true := by
  have hcol : s.cur.cx < s.cur.safeEnd ↔ s.cur.cx < b.scr.W.toNat := by
    rw [h.cursor.safeEnd_eq, h.move.scr, lt_min_iff, and_iff_right h.cursor.cx_high]
  rw [State.Draws, State.writes_eq_true_iff, hcol, h.move.gc, ← h.yLimit_eq]
  constructor
  · rintro ⟨hx, hy, ht⟩
    have hs : s.stopped = false := Bool.eq_false_iff.mpr fun hs => hy.not_ge (h.yLimit_le_rowOf hs)
    exact ⟨hs, (h.cursor_eq hs).1 ▸ hx, ht⟩
  · rintro ⟨hs, hx, ht⟩
    obtain ⟨hcx, hcy⟩ := h.cursor_eq hs
    exact ⟨hcx ▸ hx, hcy ▸ State.stopped_eq_false_iff.mp hs, ht⟩

/-- PLACE goes from one index to the next (R269). -/
theorem PlacingAt.next (h : PlacingAt b j s) (hp : place i s = .ok () t) : PlacingAt b (j + 1) t := by
  refine ⟨PlaceMove.trans b s t h.move (place_ok_move hp), place_cursorOk h.cursor hp, ?_⟩
  have himg := h.move.img
  have hnext (hs : s.stopped = false) : (s.cur.next s.img.left.toNat).cx = b.img.columnOf (j + 1) ∧
      (s.cur.next s.img.left.toNat).cy = b.img.rowOf (j + 1) := by
    obtain ⟨hcx, hcy⟩ := h.cursor_eq hs
    have hc := h.cursor
    have hw : 0 < b.img.width.toNat := by
      have := hc.cx_low.trans_lt hc.cx_high
      rw [hc.rowEnd_eq, himg] at this
      exact Nat.pos_of_lt_add_right this
    rw [himg]
    exact Cursor.next_position hw (himg ▸ hc.rowEnd_eq) hcx hcy
  rcases place_ok hp with ⟨hs, rfl⟩ | ⟨hs, -, rfl⟩ | ⟨hs, -, px, -, rfl⟩
  · exact .inr ⟨State.stopped_eq_true_iff.mp hs,
      (h.yLimit_le_rowOf hs).trans (b.img.rowOf_mono (Nat.le_succ j))⟩
  · exact .inl (hnext hs)
  · exact .inl (hnext hs)

/-- What PLACE does to the canvas: an index that is drawn sets its element to its colour, any other sets
nothing (R269 to R273). -/
theorem PlacingAt.output (h : PlacingAt b j s) (hp : place i s = .ok () t) :
    (b.Draws j i ∧ ∃ px, b.activePalette[i]? = some px ∧
      t.canvas.output = s.canvas.output.set (b.elementOf j) px) ∨
    (¬ b.Draws j i ∧ t.canvas.output = s.canvas.output) := by
  rw [h.draws_iff]
  rcases place_ok hp with ⟨hs, rfl⟩ | ⟨hs, hw, rfl⟩ | ⟨hs, hw, px, hpx, rfl⟩
  · exact .inr ⟨by simp [hs], rfl⟩
  · exact .inr ⟨by simp [hw], rfl⟩
  · have helem : s.oidx s.cur.cx s.cur.cy = b.elementOf j := by
      obtain ⟨hcx, hcy⟩ := h.cursor_eq hs
      rw [hcx, hcy, h.move.frame]
      rfl
    exact .inl ⟨⟨hs, hw⟩, px, h.move.activePalette ▸ hpx, helem ▸ rfl⟩

theorem State.Draws.rowOf_lt (h : b.Draws j i) : b.img.rowOf j < b.scr.H.toNat :=
  h.2.1.trans_le (yLimitOf_le _ b)

/-- Two indices that are drawn have two canvas elements (R75). -/
theorem State.Draws.elementOf_inj {k i' : Nat} (h : b.Draws j i) (h' : b.Draws k i')
    (he : b.elementOf j = b.elementOf k) : j = k := by
  obtain ⟨hcol, hrow⟩ := oidx_inj h.1 h'.1 h.rowOf_lt h'.rowOf_lt he
  exact ImageRegs.position_inj hcol hrow

/-- A canvas element that no drawn index has keeps its value. -/
theorem emitAll_keeps_element {q : List Nat} {e : Nat} (h : PlacingAt b j s) (ht : emitAll q s = .ok () t)
    (hne : ∀ k i, q[k]? = some i → b.Draws (j + k) i → b.elementOf (j + k) ≠ e) :
    t.outRead e = s.outRead e := by
  induction q generalizing s j with
  | nil =>
    cases ht
    rfl
  | cons i is ih =>
    obtain ⟨_, u, hp, hu⟩ := Result.bind_eq_ok.mp ht
    have htail : t.outRead e = u.outRead e := ih (h.next hp) hu fun k i' hk => by
      rw [Nat.add_right_comm, Nat.add_assoc]
      exact hne (k + 1) i' hk
    rw [htail, State.outRead, State.outRead]
    rcases h.output hp with ⟨hd, px, -, hout⟩ | ⟨-, hout⟩ <;> rw [hout]
    have hhead : b.elementOf j ≠ e := hne 0 i rfl hd
    rw [List.getD_eq_getElem?_getD, List.getElem?_set_ne hhead, ← List.getD_eq_getElem?_getD]

/-- A drawn index stands at its element as its colour: PLACE sets it there, and no later index has that
element. -/
theorem emitAll_draws_element (hlen : b.canvas.output.length = b.canvasSize) {q : List Nat} {k : Nat}
    (h : PlacingAt b j s) (ht : emitAll q s = .ok () t) (hk : q[k]? = some i) (hd : b.Draws (j + k) i) :
    b.activePalette[i]? = some (t.outRead (b.elementOf (j + k))) := by
  induction q generalizing s j k with
  | nil => cases hk
  | cons i₀ is ih =>
    obtain ⟨_, u, hp, hu⟩ := Result.bind_eq_ok.mp ht
    cases k with
    | zero =>
      obtain rfl : i₀ = i := Option.some.inj hk
      obtain ⟨-, px, hpx, hout⟩ := (h.output hp).resolve_right fun hnot => hnot.1 hd
      have htail : t.outRead (b.elementOf j) = u.outRead (b.elementOf j) :=
        emitAll_keeps_element (h.next hp) hu fun k i' _ hk he => by
          have := hk.elementOf_inj hd he
          omega
      have hlt : b.elementOf j < s.canvas.output.length := by
        rw [h.move.length, hlen]
        exact oidx_lt hd.1 hd.rowOf_lt
      rw [hpx, Nat.add_zero, htail, State.outRead, hout, List.getD_eq_getElem?_getD,
        List.getElem?_set_self hlt, Option.getD_some]
    | succ k =>
      rw [Nat.add_comm k, ← Nat.add_assoc] at hd ⊢
      exact ih (h.next hp) hu hk hd

end

/-- Settles O49: from CURSOR_INIT on, the drawn indices stand at their elements and every other element is
kept; an element that a drawn index has is its pixel's alone. -/
theorem frameIsDrawnRowMajor : Obligations.FrameIsDrawnRowMajor := by
  intro s t q hw hlen ht
  have hinit := placingAt_cursorInit hw
  refine ⟨fun j i hj hx hy hi => ?drawn, fun x y hx hy hfree => ?kept, ?length⟩
  case drawn =>
    have hd : s.Draws (0 + j) i := (Nat.zero_add j).symm ▸ ⟨hx, hy, hi⟩
    have := emitAll_draws_element hlen hinit ht hj hd
    rwa [Nat.zero_add] at this
  case kept =>
    refine (emitAll_keeps_element hinit ht fun j i hj hd he => ?_).trans rfl
    rw [Nat.zero_add] at hd he
    obtain ⟨hcol, hrow⟩ := oidx_inj hd.1 hx hd.rowOf_lt hy he
    rcases hfree j i hj hcol hrow with hstop | hi
    · exact hd.2.1.not_ge (hrow ▸ hstop)
    · exact hd.2.2 hi
  case length => exact (emitAll_ok_move ht).length.trans hlen

/-! ## Interlace -/

/-- The four passes have no row in common, and one of them has every row (R276). -/
theorem passOrder_perm_range (n : Nat) : (passOrder n).Perm (List.range n) := by
  have hnodup : (passOrder n).Nodup := by
    simp only [passOrder, List.nodup_append, List.nodup_range.filter, List.mem_append, List.mem_filter,
      decide_eq_true_eq, true_and]
    refine ⟨⟨?_, ?_⟩, ?_⟩ <;> intros <;> omega
  refine (List.perm_ext_iff_of_nodup hnodup List.nodup_range).mpr fun r => ?_
  simp only [passOrder, List.mem_append, List.mem_filter, List.mem_range, decide_eq_true_eq]
  omega

/-- Settles O51: each pass is a filter of the rows in rising order. -/
theorem passOrderPermutesRows : Obligations.PassOrderPermutesRows := by
  intro n
  have hpass (p : Nat → Prop) [DecidablePred p] :
      (∀ r, r ∈ (List.range n).filter p ↔ r < n ∧ p r) ∧
        ((List.range n).filter p).Pairwise (· < ·) :=
    ⟨by simp, List.pairwise_lt_range.filter _⟩
  exact ⟨passOrder_perm_range n, _, _, _, _, rfl, (hpass _).1, (hpass _).1, (hpass _).1, (hpass _).1,
    (hpass _).2, (hpass _).2, (hpass _).2, (hpass _).2⟩

theorem passOrder_length (n : Nat) : (passOrder n).length = n := by
  rw [(passOrder_perm_range n).length_eq, List.length_range]

/-- The row moves of DEINTERLACE: stored row and display row (R275). -/
theorem mem_zip_passOrder {n r d : Nat} :
    (r, d) ∈ (List.range n).zip (passOrder n) ↔ (passOrder n)[r]? = some d := by
  rw [List.mem_iff_getElem?]
  constructor
  · rintro ⟨k, hk⟩
    obtain ⟨hr, hd⟩ := List.getElem?_zip_eq_some.mp hk
    obtain ⟨_, rfl⟩ := List.getElem?_eq_some_iff.mp hr
    simpa using hd
  · intro hd
    have hr : r < n := passOrder_length n ▸ (List.getElem?_eq_some_iff.mp hd).1
    exact ⟨r, List.getElem?_zip_eq_some.mpr ⟨List.getElem?_range hr, hd⟩⟩

theorem map_snd_zip_passOrder (n : Nat) : ((List.range n).zip (passOrder n)).map Prod.snd = passOrder n :=
  List.map_snd_zip (by rw [passOrder_length, List.length_range])

/-- The row moves go to rows of the screen, each row once (R276). -/
theorem lt_of_mem_zip_passOrder {n : Nat} {p : Nat × Nat} (hp : p ∈ (List.range n).zip (passOrder n)) :
    p.2 < n :=
  List.mem_range.mp ((passOrder_perm_range n).mem_iff.mp (List.of_mem_zip hp).2)

theorem nodup_map_snd_zip_passOrder (n : Nat) : (((List.range n).zip (passOrder n)).map Prod.snd).Nodup := by
  rw [map_snd_zip_passOrder]
  exact (passOrder_perm_range n).nodup_iff.mpr List.nodup_range

/-- The only move to display row `d` is the one from its stored row. -/
theorem find?_zip_passOrder {n r d : Nat} (hd : (passOrder n)[r]? = some d) :
    ((List.range n).zip (passOrder n)).find? (fun p => p.2 = d) = some (r, d) := by
  have hmem := mem_zip_passOrder.mpr hd
  cases hf : ((List.range n).zip (passOrder n)).find? (fun p => p.2 = d) with
  | none => exact absurd (decide_eq_true rfl) (List.find?_eq_none.mp hf _ hmem)
  | some p =>
    have hp : p.2 = d := by simpa using List.find?_some hf
    exact congrArg some <| List.inj_on_of_nodup_map (nodup_map_snd_zip_passOrder n)
      (List.mem_of_find?_eq_some hf) hmem hp

/-- A pixel of a display row comes from the stored row that is moved there (R275). -/
theorem deinterlaced_getD {W H r d x : Nat} {old : List Pixel} (hlen : old.length = W * H)
    (hd : (passOrder H)[r]? = some d) (hx : x < W) :
    (deinterlaced W H old).getD (oidx W H x d) zeroPixel = old.getD (oidx W H x r) zeroPixel := by
  have hdH : d < H := lt_of_mem_zip_passOrder (mem_zip_passOrder.mpr hd)
  have hmoves := (moveRows_get W H old _ old hlen (fun _ => lt_of_mem_zip_passOrder)
    (nodup_map_snd_zip_passOrder H)).2 x d hx hdH
  rw [find?_zip_passOrder hd] at hmoves
  exact hmoves

/-- Settles O52: the canvas of DEINTERLACE is `deinterlaced`, read pixel by pixel. -/
theorem deinterlaceMovesRows : Obligations.DeinterlaceMovesRows := fun _ hlen =>
  ⟨fun _ _ _ hd hx => deinterlaced_getD hlen hd hx, rfl, (deinterlaced_length _ _ _).trans hlen⟩

/-! ## Emission -/

/-- Settles O53: the step at the frame's end is `finishFrame`, with and without the interlace. -/
theorem frameIsEmitted : Obligations.FrameIsEmitted := by
  intro s hc out
  rw [step_emit hc]
  cases hi : s.img.interlaced <;> simp only [finishFrame, out, hi] <;> rfl

/-! ## The canvas persists -/

/-- Settles O58: the frame of every other instruction has the canvas among the fields that stay; IMAGE
allocates a canvas only where there is none (R261). -/
theorem canvasPersists : Obligations.CanvasPersists := by
  intro i s t ht hw hbg hprev hdict hkwkwk hrelease hconstruct
  cases i with
  | disposeRestoreBg => exact absurd rfl hbg
  | disposeRestorePrev => exact absurd rfl hprev
  | dict c => exact absurd rfl (hdict c)
  | kwkwk c => exact absurd rfl (hkwkwk c)
  | release => exact absurd rfl hrelease
  | construct b => exact absurd rfl (hconstruct b)
  | parseHeader h p => rw [header_frame ht]
  | image d p v => rw [(image_frame ht).2 hw]
  | imageEmpty d p v => rw [imageEmpty_frame ht]
  | extGce b => rw [extGce_frame ht]
  | extSkip l => rw [extSkip_frame (l := l) ht]
  | endCode => rw [endCode_frame ht]
  | unspecCode c => cases ht
  | trailer | unexpected | clear | skip | disposeNone | disposeKeep => exact Host.Outcome.next.inj ht ▸ rfl
  | nextFrame | getVersion | getWidth | getHeight | getBackgroundColor => rw [host_frame ht (by simp)]

end Sys2Proof.Machine
end

section
/-! PROOFS. The host interface (spec/44_host_interface.md): the instruction a step runs, each host command in
each phase (R310 to R316), and the marks of a refused command under every step (R318, R380). -/

namespace Sys2Proof.Machine

/-! ## The instruction a step runs -/

/-- Settles O6: the step lemma of each place, at the instruction that the place's decoder gives. -/
theorem stepRunsDecodedInstruction : Obligations.StepRunsDecodedInstruction := by
  intro s
  refine ⟨fun w ws i hc hw hd => ?command, fun i hc hd => ?header, fun i hc hd => ?block, fun i hc hd => ?dispose,
    fun c t i hc hr hd => ?code, fun e t hc hr => step_code_trap hc hr⟩
  case command =>
    rw [decode_command] at hd
    rw [step_command hc hw, hd]
  case header => exact Except.ok.inj hd ▸ step_header hc
  case block =>
    rw [decode_block] at hd
    rw [step_block hc, hd]
  case dispose => exact Except.ok.inj hd ▸ step_dispose hc
  case code => exact Except.ok.inj hd ▸ step_code hc hr

/-! ## The phases that refuse a command (R318) -/

section

variable {p : Phase}

theorem Phase.refusesConstruct_iff : p.refusesConstruct = true ↔ p = .released ∨ ∃ k, p = .failed k := by
  cases p <;> simp [Phase.refusesConstruct, Phase.isFailed]

theorem Phase.refusesConstruct_eq_false_iff :
    p.refusesConstruct = false ↔ p = .fresh ∨ p = .ready ∨ p = .done := by
  cases p <;> simp [Phase.refusesConstruct, Phase.isFailed]

/-- NEXT_FRAME is refused where CONSTRUCT is (R311, R349, decision D36). -/
theorem Phase.refusesNextFrame_iff : p.refusesNextFrame = true ↔ p = .released ∨ ∃ k, p = .failed k :=
  Phase.refusesConstruct_iff

theorem Phase.refusesAttribute_iff :
    p.refusesAttribute = true ↔ p = .fresh ∨ p = .released ∨ ∃ k, p = .failed k := by
  cases p <;> simp [Phase.refusesAttribute, Phase.isFailed]

theorem Phase.refusesAttribute_eq_false_iff : p.refusesAttribute = false ↔ p = .ready ∨ p = .done := by
  cases p <;> simp [Phase.refusesAttribute, Phase.isFailed]

theorem Phase.refusesRelease_iff : p.refusesRelease = true ↔ p = .released := beq_iff_eq

end

/-! ## Each command, refused and admitted -/

section

variable {s : State}

theorem exec_construct_of_refuses (bytes : Bytes) (h : s.phase.refusesConstruct = true) :
    exec (.construct bytes) s = .next (refuse s) := if_pos h

theorem exec_construct_of_admits (bytes : Bytes) (h : s.phase.refusesConstruct = false) :
    exec (.construct bytes) s = .next (construct bytes s) := if_neg (Bool.eq_false_iff.mp h)

theorem exec_nextFrame_of_refuses (h : s.phase.refusesNextFrame = true) :
    exec .nextFrame s = .next (refuse s) := if_pos h

theorem exec_nextFrame_of_fresh (h : s.phase = .fresh) : exec .nextFrame s = .next (s.goto .header) := by
  simp [exec, execNextFrame, Phase.refusesNextFrame, Phase.isFailed, h]

theorem exec_nextFrame_of_ready (h : s.phase = .ready) : exec .nextFrame s = .next (s.goto .block) := by
  simp [exec, execNextFrame, Phase.refusesNextFrame, Phase.isFailed, h]

theorem exec_nextFrame_of_done (h : s.phase = .done) : exec .nextFrame s = .next (s.reply .noFrame) := by
  simp [exec, execNextFrame, Phase.refusesNextFrame, Phase.isFailed, h]

theorem attributeRead_of_refuses (r : Reply) (h : s.phase.refusesAttribute = true) :
    attributeRead r s = refuse s := if_pos h

theorem attributeRead_of_admits (r : Reply) (h : s.phase.refusesAttribute = false) :
    attributeRead r s = s.reply r := if_neg (Bool.eq_false_iff.mp h)

theorem exec_getBackgroundColor_of_refuses (h : s.phase.refusesAttribute = true) :
    exec .getBackgroundColor s = .next (refuse s) := if_pos h

theorem exec_getBackgroundColor_of_no_palette (h : s.phase.refusesAttribute = false)
    (hg : s.scr.gctPresent = false) :
    exec .getBackgroundColor s = .next (s.reply (.color zeroPixel)) := by
  simp [exec, execGetBackgroundColor, h, hg]

theorem exec_getBackgroundColor_of_entry (h : s.phase.refusesAttribute = false)
    (hg : s.scr.gctPresent = true) {px : Pixel} (hpx : s.gpal[s.scr.bgIndex.toNat]? = some px) :
    exec .getBackgroundColor s = .next (s.reply (.color px)) := by
  simp only [exec, execGetBackgroundColor, h, hg, hpx]
  rfl

theorem exec_getBackgroundColor_of_no_entry (h : s.phase.refusesAttribute = false)
    (hg : s.scr.gctPresent = true) (hpx : s.gpal[s.scr.bgIndex.toNat]? = none) :
    exec .getBackgroundColor s =
      .fault (.unspecBackgroundIndex (trapEntry (.fault .unspecPaletteIndex) s)) := by
  simp only [exec, execGetBackgroundColor, h, hg, hpx]
  rfl

theorem exec_release_of_refuses (h : s.phase.refusesRelease = true) :
    exec .release s = .next (refuse s) := if_pos h

theorem exec_release_of_admits (h : s.phase.refusesRelease = false) :
    exec .release s = .next { releaseBuffers s with phase := .released } := if_neg (Bool.eq_false_iff.mp h)

end

/-- Settles O11: the admitted CONSTRUCT makes `construct`, whose buffer reads as the host's bytes. -/
theorem constructMakesFreshDecoder : Obligations.ConstructMakesFreshDecoder := fun _ bytes =>
  ⟨fun h => ⟨_, exec_construct_of_admits bytes (Phase.refusesConstruct_eq_false_iff.mpr h),
      rfl, rfl, rfl, rfl, rfl, State.byteAt?_loaded rfl rfl, Memory.ofBytes_wf bytes, rfl⟩,
    fun h => exec_construct_of_refuses bytes (Phase.refusesConstruct_iff.mpr h)⟩

/-- Settles O12: the three phases that admit NEXT_FRAME each have an arm of their own. -/
theorem nextFrameEntersByPhase : Obligations.NextFrameEntersByPhase := fun _ =>
  ⟨exec_nextFrame_of_fresh, exec_nextFrame_of_ready, exec_nextFrame_of_done,
    fun h => exec_nextFrame_of_refuses (Phase.refusesNextFrame_iff.mpr h)⟩

/-- Settles O13: each of the three is `attributeRead` of its register. -/
theorem attributeReadsReturnRegisters : Obligations.AttributeReadsReturnRegisters := by
  intro s
  refine ⟨fun h => ?admitted, fun h i hi => ?refused⟩
  case admitted =>
    have hread (r : Reply) : (.next (attributeRead r s) : Outcome) = .next (s.reply r) :=
      congrArg _ (attributeRead_of_admits r (Phase.refusesAttribute_eq_false_iff.mpr h))
    exact ⟨hread _, hread _, hread _⟩
  case refused =>
    have hread (r : Reply) : (.next (attributeRead r s) : Outcome) = .next (refuse s) :=
      congrArg _ (attributeRead_of_refuses r (Phase.refusesAttribute_iff.mpr h))
    rcases hi with rfl | rfl | rfl <;> exact hread _

/-- Settles O14: with a palette the index has an entry or none, and the palette's length says which. -/
theorem backgroundColorFromGlobalPalette : Obligations.BackgroundColorFromGlobalPalette := by
  intro s
  refine ⟨fun h => ?admitted, fun h => ?refused⟩
  case admitted =>
    have ha := Phase.refusesAttribute_eq_false_iff.mpr h
    exact ⟨exec_getBackgroundColor_of_no_palette ha, fun hg =>
      ⟨fun px hpx => exec_getBackgroundColor_of_entry ha hg hpx,
        fun hlen => exec_getBackgroundColor_of_no_entry ha hg (List.getElem?_eq_none hlen)⟩⟩
  case refused => exact exec_getBackgroundColor_of_refuses (Phase.refusesAttribute_iff.mpr h)

/-- Settles O15: the buffers given up take the values they have at reset. -/
theorem releaseGivesUpBuffers : Obligations.ReleaseGivesUpBuffers := fun _ =>
  ⟨fun h => exec_release_of_admits (Bool.eq_false_iff.mpr (h ∘ Phase.refusesRelease_iff.mp)),
    fun h => exec_release_of_refuses (Phase.refusesRelease_iff.mpr h)⟩

/-! ## The marks of a refused command (R318, R380) -/

/-- The decoder's mark and the run's mark (log 10). -/
def State.marks (s : State) : Bool × Bool := (s.refused, s.everRefused)

/-- The marks stay as they are, or both are set, as a refusal sets them (R318). -/
def KeepsMarks (s t : State) : Prop := t.marks = s.marks ∨ t.marks = (true, true)

/-- From a frame equation `t = u`, where `u` is `s` with the fields that may differ taken from `t`. -/
theorem KeepsMarks.of_frame {s t u : State} (h : t = u) (hu : u.marks = s.marks) : KeepsMarks s t :=
  .inl (h ▸ hu)

/-- A step from a state with the same marks. -/
theorem KeepsMarks.of_same {s t u : State} (hu : u.marks = s.marks) (h : KeepsMarks u t) : KeepsMarks s t :=
  h.imp_left (·.trans hu)

theorem refuse_keepsMarks (s : State) : KeepsMarks s (refuse s) := .inr rfl

theorem ReaderMove.marks {s t : State} (h : ReaderMove s t) : t.marks = s.marks := by rw [h.frame]; rfl

theorem finishFrame_marks (s : State) : (finishFrame s).marks = s.marks := by
  unfold finishFrame
  split <;> rfl

theorem attributeRead_keepsMarks (r : Reply) (s : State) : KeepsMarks s (attributeRead r s) := by
  cases h : s.phase.refusesAttribute with
  | true => exact attributeRead_of_refuses r h ▸ refuse_keepsMarks s
  | false => exact .of_frame (attributeRead_of_admits r h) rfl

/-- An instruction answers one next state. -/
theorem next_unique {i : Instr} {s t u : State} (ht : exec i s = .next t) (hu : exec i s = .next u) : t = u :=
  Host.Outcome.next.inj (ht.symm.trans hu)

theorem nextFrame_keepsMarks {s t : State} (ht : exec .nextFrame s = .next t) : KeepsMarks s t := by
  cases hp : s.phase with
  | fresh => exact .of_frame (next_unique ht (exec_nextFrame_of_fresh hp)) rfl
  | ready => exact .of_frame (next_unique ht (exec_nextFrame_of_ready hp)) rfl
  | done => exact .of_frame (next_unique ht (exec_nextFrame_of_done hp)) rfl
  | failed _ | released =>
    exact next_unique ht (exec_nextFrame_of_refuses (Phase.refusesNextFrame_iff.mpr (by simp [hp]))) ▸
      refuse_keepsMarks s

theorem getBackgroundColor_keepsMarks {s t : State} (ht : exec .getBackgroundColor s = .next t) :
    KeepsMarks s t := by
  cases h : s.phase.refusesAttribute with
  | true => exact next_unique ht (exec_getBackgroundColor_of_refuses h) ▸ refuse_keepsMarks s
  | false =>
    cases hg : s.scr.gctPresent with
    | false => exact .of_frame (next_unique ht (exec_getBackgroundColor_of_no_palette h hg)) rfl
    | true =>
      cases hpx : s.gpal[s.scr.bgIndex.toNat]? with
      | some px => exact .of_frame (next_unique ht (exec_getBackgroundColor_of_entry h hg hpx)) rfl
      | none => cases ht.symm.trans (exec_getBackgroundColor_of_no_entry h hg hpx)

theorem release_keepsMarks {s t : State} (ht : exec .release s = .next t) : KeepsMarks s t := by
  cases h : s.phase.refusesRelease with
  | true => exact next_unique ht (exec_release_of_refuses h) ▸ refuse_keepsMarks s
  | false => exact .of_frame (next_unique ht (exec_release_of_admits h)) rfl

/-- No frame but those of the host commands has the marks among the fields that may differ, and of the host
commands only CONSTRUCT clears one. -/
theorem exec_keepsMarks {i : Instr} {s t : State} (ht : exec i s = .next t)
    (hi : ∀ b, i ≠ .construct b) : KeepsMarks s t := by
  cases i with
  | construct b => exact absurd rfl (hi b)
  | parseHeader h p => exact .of_frame (header_frame ht) rfl
  | image d p v => exact .of_frame (image_frame ht).1 rfl
  | imageEmpty d p v => exact .of_frame (imageEmpty_frame ht) rfl
  | extGce b => exact .of_frame (extGce_frame ht) rfl
  | extSkip l => exact .of_frame (extSkip_frame (l := l) ht) rfl
  | endCode => exact .of_frame (endCode_frame ht) rfl
  | dict c => exact .of_frame (code_frame ht (.inl ⟨c, rfl⟩)).1 rfl
  | kwkwk c => exact .of_frame (code_frame ht (.inr ⟨c, rfl⟩)).1 rfl
  | unspecCode c => cases ht
  | trailer | unexpected | clear | skip | disposeNone | disposeKeep | disposeRestoreBg =>
    exact .of_frame (Host.Outcome.next.inj ht).symm rfl
  | disposeRestorePrev =>
    exact Host.Outcome.next.inj ht ▸
      .of_frame (congrArg (State.goto · .cursor) (restorePrevious_frame s)) rfl
  | nextFrame => exact nextFrame_keepsMarks ht
  | getVersion | getWidth | getHeight => exact Host.Outcome.next.inj ht ▸ attributeRead_keepsMarks _ s
  | getBackgroundColor => exact getBackgroundColor_keepsMarks ht
  | release => exact release_keepsMarks ht

/-- A step that takes no CONSTRUCT from the host's queue clears no mark, and sets them only together. -/
theorem step_keepsMarks {s t : State} (ht : step s = .next t)
    (hn : ∀ w ws, s.control = .idle → s.inbox = w :: ws → w.number ≠ 0) : KeepsMarks s t := by
  have hread := readCode_move s.lzw.width s
  rcases step_next_cases ht with ⟨-, -, rfl⟩ | ⟨w, ws, i, hc, hw, hd, he⟩ | ⟨i, -, rfl, he⟩ | ⟨i, -, hd, he⟩ |
    ⟨-, -, rfl⟩ | ⟨-, -, rfl⟩ | ⟨-, he⟩ | ⟨-, rfl⟩ | ⟨-, rfl⟩ | ⟨c, u, -, hr, he⟩ | ⟨k, u, -, hr, rfl⟩
  · exact .inl rfl
  · exact .of_same (u := { s with inbox := ws }) rfl
      (exec_keepsMarks he (ne_construct_of_isSteady (decodeCommand_isSteady (hn w ws hc hw) hd)))
  · exact exec_keepsMarks he (decodeHeader_ne_construct _)
  · exact exec_keepsMarks he (decodeBlock_ne_construct hd)
  · exact .inl rfl
  · exact .inl rfl
  · exact exec_keepsMarks he (ne_construct_of_isSteady (decodeSelector_isSteady _))
  · exact .inl rfl
  · exact .inl (finishFrame_marks s)
  · rw [hr] at hread
    exact .of_same hread.marks (exec_keepsMarks he (ne_construct_of_isSteady (decodeCode_isSteady _ c)))
  · rw [hr] at hread
    exact .inl hread.marks

/-- A CONSTRUCT clears the decoder's mark and keeps the run's, or is refused (R349, R380). -/
theorem step_construct_marks {s t : State} {w : HostWord} {ws : List HostWord} (ht : step s = .next t)
    (hc : s.control = .idle) (hw : s.inbox = w :: ws) (hn : w.number = 0) :
    t.marks = (false, s.everRefused) ∨ t.marks = (true, true) := by
  rw [step_command hc hw, hn] at ht
  rcases construct_frame ht with ⟨-, rfl⟩ | ⟨-, rfl⟩
  · exact .inr rfl
  · exact .inl rfl

/-- What a step does to the marks: nothing, a refusal's setting of both, or an admitted CONSTRUCT's clearing of
the decoder's own. -/
theorem step_marks_cases {s t : State} (ht : step s = .next t) :
    t.marks = s.marks ∨ t.marks = (true, true) ∨
      (∃ w ws, s.control = .idle ∧ s.inbox = w :: ws ∧ w.number = 0) ∧ t.marks = (false, s.everRefused) := by
  by_cases hn : ∃ w ws, s.control = .idle ∧ s.inbox = w :: ws ∧ w.number = 0
  · obtain ⟨w, ws, hc, hw, h0⟩ := hn
    rcases step_construct_marks ht hc hw h0 with h | h
    · exact .inr (.inr ⟨⟨w, ws, hc, hw, h0⟩, h⟩)
    · exact .inr (.inl h)
  · rcases step_keepsMarks ht fun w ws hc hw h0 => hn ⟨w, ws, hc, hw, h0⟩ with h | h
    · exact .inl h
    · exact .inr (.inl h)

/-- Settles O16: each of the three things a step does to the marks keeps what is asked of them. -/
theorem refusedMarkStays : Obligations.RefusedMarkStays := by
  intro s t ht
  rcases step_marks_cases ht with h | h | ⟨⟨w, ws, hc, hw, h0⟩, h⟩ <;>
    obtain ⟨hr, he⟩ := Prod.mk.inj h <;> rw [hr, he]
  · exact ⟨id, fun _ => id, id⟩
  · exact ⟨fun _ => rfl, fun _ _ => rfl, fun _ => id⟩
  · exact ⟨id, fun hn => absurd h0 (hn w ws hc hw), fun _ => Bool.noConfusion⟩

end Sys2Proof.Machine
end

section
/-! PROOFS. How a step can end (spec/60_exceptions.md): what it hands to the host, where it faults and what the
trap records (R345, R347, R348), and that only an unknown command number is refused (R355, log 18). -/

namespace Sys2Proof

/-! ## The place of an instruction -/

/-- The place of a command that an instruction is read at (R181, R221, R262, R311, R319). -/
def Instr.place : Instr → Machine.Control
  | .parseHeader _ _ => .header
  | .image _ _ _ | .imageEmpty _ _ _ | .extGce _ | .extSkip _ | .trailer | .unexpected _ => .block
  | .clear | .endCode | .dict _ | .kwkwk _ | .skip _ | .unspecCode _ => .code
  | .disposeNone | .disposeKeep | .disposeRestoreBg | .disposeRestorePrev => .dispose
  | .construct _ | .nextFrame | .getVersion | .getWidth | .getHeight | .getBackgroundColor | .release => .idle

theorem decodeHeader_place (bs : Bytes) : (decodeHeader bs).place = .header := by
  obtain ⟨h, p, e⟩ := decodeHeader_kind bs
  rw [e]
  rfl

theorem decodeBlock_place {bs : Bytes} {i : Instr} (h : decodeBlock bs = .ok i) : i.place = .block := by
  rcases decodeBlock_kind h with ⟨d, p, v, rfl⟩ | ⟨d, p, v, rfl⟩ | ⟨b, rfl⟩ | ⟨l, rfl⟩ | rfl | ⟨b, rfl⟩ <;> rfl

theorem decodeSelector_place (d : Machine.Disposal) : (decodeSelector d.selector).place = .dispose := by
  cases d <;> rfl

theorem decodeCode_place (k : CodeContext) (c : Nat) : (decodeCode k c).place = .code := by
  rcases decodeCode_cases k c with ⟨e, -⟩ | ⟨e, -⟩ | ⟨e, -⟩ | ⟨e, -⟩ | ⟨e, -⟩ | ⟨e, -⟩ <;> rw [e] <;> rfl

theorem decodeCommand_place {n : Nat} {bytes : Bytes} {i : Instr} (h : decodeCommand n bytes = .ok i) :
    i.place = .idle := by
  rcases decodeCommand_cases n bytes with ⟨-, e⟩ | ⟨-, e⟩ | ⟨-, e⟩ | ⟨-, e⟩ | ⟨-, e⟩ | ⟨-, e⟩ | ⟨-, e⟩ | ⟨-, e⟩ <;>
    cases e.symm.trans h <;> rfl

end Sys2Proof

namespace Sys2Proof.Machine

/-! ## Trap entry (R347) -/

@[simp] theorem modelFault_state (f : FaultCode) (s : State) : (modelFault f s).state = trapEntry (.fault f) s := by
  cases f <;> rfl

@[simp] theorem modelFault_code (f : FaultCode) (s : State) : (modelFault f s).code = (Cause.fault f).code := by
  cases f <;> rfl

/-- Settles O19: the two trapping arms of `Result.finish`. -/
theorem trapEntryRecordsCause : Obligations.TrapEntryRecordsCause := by
  intro r s k f
  refine ⟨?raised, ?faulted⟩
  case raised =>
    rintro rfl
    rfl
  case faulted =>
    rintro rfl
    exact ⟨modelFault f s, rfl, modelFault_state f s, modelFault_code f s⟩

/-! ## Operations that hand nothing out -/

/-- Nothing is handed to the host, and FAILED is not entered. -/
structure Quiet (s t : State) : Prop where
  outbox : t.outbox = s.outbox
  phase  : FailsOnly [] s.phase t

theorem Quiet.of_same {s t : State} (ho : t.outbox = s.outbox) (hp : t.phase = s.phase) : Quiet s t :=
  ⟨ho, .same hp⟩

theorem Quiet.refl (s : State) : Quiet s s := .of_same rfl rfl

theorem Quiet.trans (a b c : State) (h : Quiet a b) (k : Quiet b c) : Quiet a c :=
  ⟨k.outbox.trans h.outbox, h.phase.trans k.phase⟩

theorem ReaderMove.quiet {s t : State} (h : ReaderMove s t) : Quiet s t :=
  .of_same (by rw [h.frame]) h.phase

theorem PlaceMove.quiet {s t : State} (h : PlaceMove s t) : Quiet s t :=
  .of_same (by rw [h.frame]) (by rw [h.frame])

/-- The place of the rule that raises a model fault; GET_BACKGROUND_COLOR's own is not among them (R340, R345). -/
def FaultCode.place : FaultCode → Control
  | .unspecMinCodeSize | .unspecGceTerminator | .unspecPartialInterlace => .block
  | .unspecCode | .unspecPaletteIndex => .code

section
variable {α β : Type} {c : Control} {s u : State}

/-- An operation at place `c` is quiet until it completes or stops, and faults only as the rules of `c` do. -/
structure Contained (c : Control) (s : State) (r : Result α) : Prop where
  quiet : Quiet s r.state
  place : ∀ f t, r = .trap (.fault f) t → f.place = c

theorem Contained.of_ok {a : α} (h : Quiet s u) : Contained c s (.ok a u) :=
  ⟨h, fun _ _ hk => nomatch hk⟩

theorem Contained.of_raise {e : ErrorKind} (h : Quiet s u) : Contained c s (raise (α := α) e u) :=
  ⟨h, fun _ _ hk => nomatch hk⟩

theorem Contained.of_fault {f : FaultCode} (h : Quiet s u) (hf : f.place = c) :
    Contained c s (fault (α := α) f u) := ⟨h, by rintro _ _ ⟨⟩; exact hf⟩

theorem Contained.of_quiet {r : Result α} (h : Quiet s u) (hr : Contained c u r) : Contained c s r :=
  ⟨.trans _ _ _ h hr.quiet, hr.place⟩

theorem Contained.bind {r : Result α} {f : α → State → Result β} (hr : Contained c s r)
    (hf : ∀ a u, Contained c u (f a u)) : Contained c s (r.bind f) where
  quiet := Result.bind_state Quiet.trans hr.quiet fun a u _ => (hf a u).quiet
  place := by
    intro k t h
    rcases Result.bind_eq_trap.mp h with h | ⟨a, u, -, h⟩
    · exact hr.place k t h
    · exact (hf a u).place k t h

theorem readPalette_contained (n : Nat) (pal : Option (List Rgb)) (s : State) :
    Contained c s (readPalette n pal s) := by
  cases pal with
  | none => exact .of_raise (.refl s)
  | some p => exact .of_ok (.of_same rfl rfl)

theorem readGlobalPalette_contained (flags : Byte) (gpal : Option (List Rgb)) (s : State) :
    Contained c s (readGlobalPalette flags gpal s) := by
  unfold readGlobalPalette
  split
  · exact readPalette_contained _ gpal s
  · exact .of_ok (.refl s)

theorem readLocalPalette_contained (flags : Byte) (lpal : Option (List Rgb)) (s : State) :
    Contained c s (readLocalPalette flags lpal s) := by
  unfold readLocalPalette
  split
  · exact (readPalette_contained _ lpal s).bind fun _ _ => .of_ok (.of_same rfl rfl)
  · exact .of_ok (.refl s)

theorem parseHeader_contained (screen : Option Screen) (gpal : Option (List Rgb)) (s : State) :
    Contained c s (parseHeader screen gpal s) := by
  unfold parseHeader
  split
  · exact .of_raise (.refl s)
  · split
    · exact .of_raise (.refl s)
    · rename_i h _ v _
      exact .of_quiet (u := { s with scr := screenRegs v h, pos := Config.headerBytes }) (.of_same rfl rfl)
        ((readGlobalPalette_contained h.flags gpal _).bind fun _ _ => .of_ok ⟨rfl, .of_not_failed rfl⟩)

theorem beginImage_contained (desc : Option ImageDesc) (lpal : Option (List Rgb)) (v : Option Byte) (s : State) :
    Contained c s (beginImage desc lpal v s) := by
  cases desc with
  | none => exact .of_raise (.of_same rfl rfl)
  | some d =>
    refine .of_quiet (u := { s with img := imageRegs d, pos := s.pos + 10 }) (.of_same rfl rfl)
      ((readLocalPalette_contained d.flags lpal _).bind fun _ u => ?_)
    cases v with
    | none => exact .of_raise (.refl u)
    | some b => exact .of_ok (.of_same rfl rfl)

theorem skipChain_contained (s : State) : Contained c s (skipChain s) where
  quiet := (skipChain_move s).quiet
  place := by
    intro f t h
    rcases skipChainFrom_trap h with h | h <;> cases h

theorem skipResidual_contained (s : State) : Contained c s (skipResidual s) :=
  .of_quiet (u := { s with pos := s.pos + s.reader.sbRem, reader := ⟨0, 0, 0⟩ }) (.of_same rfl rfl)
    (skipChain_contained _)

theorem lzwInit_contained (v : Byte) (s : State) : Contained .block s (lzwInit v s) := by
  simp only [lzwInit]
  split
  · exact .of_fault (.of_same rfl rfl) rfl
  · exact .of_ok (.of_same rfl rfl)

theorem interlaceCheck_contained (s : State) : Contained .block s (interlaceCheck s) := by
  unfold interlaceCheck
  split
  · exact .of_fault (.refl s) rfl
  · exact .of_ok (.refl s)

theorem beginFrame_contained (v : Byte) (s : State) : Contained .block s (beginFrame v s) :=
  (lzwInit_contained v s).bind fun _ u => (interlaceCheck_contained u).bind fun _ w =>
    .of_ok (.of_same (firstAlloc_outbox w) (firstAlloc_phase w))

theorem imageBody_contained (v : Byte) (s : State) : Contained .block s (imageBody v s) := by
  unfold imageBody
  split
  · exact skipChain_contained s
  · exact .of_quiet (u := selectPalette s) (.of_same rfl rfl) (beginFrame_contained v _)

theorem extGce_contained (b : Option GceBody) (s : State) : Contained .block s (extGce b s) := by
  cases b with
  | none => exact .of_raise (.of_same rfl rfl)
  | some b =>
    simp only [extGce]
    split
    · exact .of_ok (.of_same rfl rfl)
    · exact .of_fault (.of_same rfl rfl) rfl

theorem emitAll_contained (q : List Nat) (s : State) : Contained .code s (emitAll q s) where
  quiet := (emitAll_move q s).quiet
  place := by
    intro f t h
    cases emitAll_trap h
    rfl

end

/-! ## What an instruction can end in -/

/-- The ways that an instruction or a whole step at place `c` can end: silently, with one reply, in an error's trap,
or in a model fault of `c` (R317, R345, R347). -/
inductive Answered (c : Control) (s : State) : Outcome → Prop where
  | silent {u : State} (h : Quiet s u) : Answered c s (.next u)
  | reply {u : State} (h : Quiet s u) (r : Reply) : Answered c s (.next (u.reply r))
  | error {u : State} (h : Quiet s u) (e : ErrorKind) : Answered c s (.next (takeError e u))
  | fault {u : State} {f : FaultCode} (h : Quiet s u) (hf : f.place = c) : Answered c s (.fault (modelFault f u))
  | background {u : State} (h : Quiet s u) (hc : c = .idle) :
    Answered c s (.fault (.unspecBackgroundIndex (trapEntry (.fault .unspecPaletteIndex) u)))

section
variable {c : Control} {s u : State}

theorem Answered.of_quiet {o : Outcome} (h : Quiet s u) (ho : Answered c u o) : Answered c s o := by
  cases ho with
  | silent k => exact .silent (.trans _ _ _ h k)
  | reply k r => exact .reply (.trans _ _ _ h k) r
  | error k e => exact .error (.trans _ _ _ h k) e
  | fault k hf => exact .fault (.trans _ _ _ h k) hf
  | background k hc => exact .background (.trans _ _ _ h k) hc

theorem Contained.answered {r : Result Unit} (h : Contained c s r) : Answered c s r.finish := by
  match r, h with
  | .ok () u, h => exact .silent h.quiet
  | .trap (.error e) u, h => exact .error h.quiet e
  | .trap (.fault f) u, h => exact .fault h.quiet (h.place f u rfl)

theorem refuse_answered (s : State) : Answered c s (.next (refuse s)) :=
  .of_quiet (u := { s with refused := true, everRefused := true }) (.of_same rfl rfl) (.reply (.refl _) .refused)

theorem construct_answered (bytes : Bytes) (s : State) : Answered c s (exec (.construct bytes) s) := by
  cases h : s.phase.refusesConstruct with
  | true =>
    rw [exec_construct_of_refuses bytes h]
    exact refuse_answered s
  | false =>
    rw [exec_construct_of_admits bytes h]
    exact .silent ⟨rfl, .of_not_failed rfl⟩

theorem nextFrame_answered (s : State) : Answered c s (exec .nextFrame s) := by
  cases hp : s.phase with
  | fresh =>
    rw [exec_nextFrame_of_fresh hp]
    exact .silent (.of_same rfl rfl)
  | ready =>
    rw [exec_nextFrame_of_ready hp]
    exact .silent (.of_same rfl rfl)
  | done =>
    rw [exec_nextFrame_of_done hp]
    exact .reply (.refl s) .noFrame
  | failed _ | released =>
    rw [exec_nextFrame_of_refuses (Phase.refusesNextFrame_iff.mpr (by simp [hp]))]
    exact refuse_answered s

theorem attributeRead_answered (r : Reply) (s : State) : Answered c s (.next (attributeRead r s)) := by
  cases h : s.phase.refusesAttribute with
  | true =>
    rw [attributeRead_of_refuses r h]
    exact refuse_answered s
  | false =>
    rw [attributeRead_of_admits r h]
    exact .reply (.refl s) r

theorem getBackgroundColor_answered (s : State) : Answered .idle s (exec .getBackgroundColor s) := by
  cases h : s.phase.refusesAttribute with
  | true =>
    rw [exec_getBackgroundColor_of_refuses h]
    exact refuse_answered s
  | false =>
    cases hg : s.scr.gctPresent with
    | false =>
      rw [exec_getBackgroundColor_of_no_palette h hg]
      exact .reply (.refl s) _
    | true =>
      cases hpx : s.gpal[s.scr.bgIndex.toNat]? with
      | some px =>
        rw [exec_getBackgroundColor_of_entry h hg hpx]
        exact .reply (.refl s) _
      | none =>
        rw [exec_getBackgroundColor_of_no_entry h hg hpx]
        exact .background (.refl s) rfl

theorem release_answered (s : State) : Answered c s (exec .release s) := by
  cases h : s.phase.refusesRelease with
  | true =>
    rw [exec_release_of_refuses h]
    exact refuse_answered s
  | false =>
    rw [exec_release_of_admits h]
    exact .silent ⟨rfl, .of_not_failed rfl⟩

end

/-- Every instruction ends in one of the ways of its place. -/
theorem exec_answered (i : Instr) (s : State) : Answered i.place s (exec i s) := by
  cases i with
  | parseHeader screen gpal => exact (parseHeader_contained screen gpal s).answered
  | image d p v => exact ((beginImage_contained d p v s).bind imageBody_contained).answered
  | imageEmpty d p v =>
    exact ((beginImage_contained (some d) p v s).bind fun _ u => skipChain_contained u).answered
  | extGce b => exact (extGce_contained b s).answered
  | extSkip l =>
    exact .of_quiet (u := s.advance 2) (.of_same rfl rfl) (skipChain_contained _).answered
  | trailer =>
    exact .of_quiet (u := ({ s with phase := .done }.advance 1).goto .idle) ⟨rfl, .of_not_failed rfl⟩
      (.reply (.refl _) .noFrame)
  | unexpected b => exact .of_quiet (u := s.advance 1) (.of_same rfl rfl) (.error (.refl _) .unexpectedBlock)
  | clear | skip | disposeNone | disposeKeep | disposeRestoreBg => exact .silent (.of_same rfl rfl)
  | disposeRestorePrev =>
    exact .silent (.of_same (restorePrevious_outbox s) (restorePrevious_phase s))
  | endCode => exact Contained.answered (.bind (skipResidual_contained s) fun _ _ => .of_ok (.of_same rfl rfl))
  | dict c => exact Contained.answered (.bind (emitAll_contained _ s) fun _ _ => .of_ok (.of_same rfl rfl))
  | kwkwk c =>
    simp only [exec, execKwkwk]
    split
    · exact .silent (.refl s)
    · exact Contained.answered (.bind (emitAll_contained _ s) fun _ _ => .of_ok (.of_same rfl rfl))
  | unspecCode c => exact .fault (f := .unspecCode) (.refl s) rfl
  | construct b => exact construct_answered b s
  | nextFrame => exact nextFrame_answered s
  | getVersion | getWidth | getHeight => exact attributeRead_answered _ s
  | getBackgroundColor => exact getBackgroundColor_answered s
  | release => exact release_answered s

/-! ## What a step can end in -/

/-- What a fetch can come to: an instruction of the place the core stands at, or a step without one, which is a core
left waiting, an unknown command number, a block position or a code that cannot be read, or the two places where
none is read (R151, R221, R230, R355, decision D39). -/
inductive FetchedAt (s : State) : Fetched → Prop where
  | run {i : Instr} {u : State} (hp : i.place = s.control) (ho : u.outbox = s.outbox) (hq : u.phase = s.phase) :
    FetchedAt s (.run i u)
  | waits : FetchedAt s (.done (.next s))
  | unknown {w : HostWord} {ws : List HostWord} (hc : s.control = .idle) (hi : s.inbox = w :: ws)
    (hn : 7 ≤ w.number) : FetchedAt s (.done (.refused (.unknownCommand w.number)))
  | unreadable {u : State} {e : ErrorKind} (h : Quiet s u) (he : e = .truncated ∨ e = .malformed) :
    FetchedAt s (.done (.next (takeError e u)))
  | cursor : FetchedAt s (.done (.next (startCodes s)))
  | emit : FetchedAt s (.done (.next (finishFrame s)))

theorem fetchCommand_at {s : State} (hc : s.control = .idle) : FetchedAt s (fetchCommand s) := by
  cases hi : s.inbox with
  | nil => simpa only [fetchCommand, hi] using .waits
  | cons w ws =>
    simp only [fetchCommand, hi, decoded, decode_command]
    cases hd : decodeCommand w.number w.bytes with
    | ok i => exact .run ((decodeCommand_place hd).trans hc.symm) rfl rfl
    | error r =>
      obtain ⟨rfl, hn⟩ := decodeCommand_reject hd
      exact .unknown hc hi hn

theorem fetchBlock_at {s : State} (hc : s.control = .block) :
    FetchedAt s (decoded (.block (s.bytesFrom s.pos)) s) := by
  simp only [decoded, decode_block]
  cases hd : decodeBlock (s.bytesFrom s.pos) with
  | ok i => exact .run ((decodeBlock_place hd).trans hc.symm) rfl rfl
  | error r =>
    rcases decodeBlock_reject hd with ⟨rfl, -⟩ | ⟨rfl, -⟩
    · exact .unreadable (.refl s) (.inl rfl)
    · exact .unreadable (u := s.advance 1) (.of_same rfl rfl) (.inl rfl)

theorem fetchCode_at {s : State} (hc : s.control = .code) : FetchedAt s (fetchCode s) := by
  have hmove := readCode_move s.lzw.width s
  unfold fetchCode
  cases hr : readCode s.lzw.width s with
  | ok c u =>
    rw [hr] at hmove
    exact .run ((decodeCode_place _ c).trans hc.symm) hmove.quiet.outbox hmove.phase
  | trap k u =>
    rw [hr] at hmove
    rcases readCode_trap hr with rfl | rfl
    · exact .unreadable hmove.quiet (.inl rfl)
    · exact .unreadable hmove.quiet (.inr rfl)

theorem fetch_at (s : State) : FetchedAt s (fetch s) := by
  unfold fetch
  split
  next hc => exact fetchCommand_at hc
  next hc => exact .run ((decodeHeader_place _).trans hc.symm) rfl rfl
  next hc => exact fetchBlock_at hc
  next hc => exact .run ((decodeSelector_place _).trans hc.symm) rfl rfl
  next => exact .cursor
  next hc => exact fetchCode_at hc
  next => exact .emit

theorem finishFrame_answered {c : Control} (s : State) : Answered c s (.next (finishFrame s)) := by
  unfold finishFrame
  split
  · exact .of_quiet (u := (deinterlace s).goto .idle) (.of_same rfl rfl) (.reply (.refl _) _)
  · exact .of_quiet (u := s.goto .idle) (.of_same rfl rfl) (.reply (.refl _) _)

/-- A step ends in one of the ways of its place, or finds an unknown command number. -/
theorem step_answered (s : State) : Answered s.control s (step s) ∨ ∃ w ws, s.control = .idle ∧
    s.inbox = w :: ws ∧ 7 ≤ w.number ∧ step s = .refused (.unknownCommand w.number) := by
  have h := fetch_at s
  unfold step
  generalize fetch s = r at h
  cases h with
  | @run i u hp ho hq => exact .inl (.of_quiet (.of_same ho hq) (hp ▸ exec_answered i u))
  | waits => exact .inl (.silent (.refl s))
  | unknown hc hi hn => exact .inr ⟨_, _, hc, hi, hn, rfl⟩
  | unreadable h he => exact .inl (.error h _)
  | cursor => exact .inl (.silent (.of_same rfl rfl))
  | emit => exact .inl (finishFrame_answered s)

theorem step_next_answered {s t : State} (ht : step s = .next t) : Answered s.control s (.next t) := by
  rcases step_answered s with h | ⟨w, ws, -, -, -, h⟩
  · exact ht ▸ h
  · cases h.symm.trans ht

theorem step_fault_answered {s : State} {q : Fault} (hq : step s = .fault q) : Answered s.control s (.fault q) := by
  rcases step_answered s with h | ⟨w, ws, -, -, -, h⟩
  · exact hq ▸ h
  · cases h.symm.trans hq

theorem exec_ne_refused (i : Instr) (s : State) (r : Refusal) : exec i s ≠ .refused r := by
  intro h
  have ha := exec_answered i s
  rw [h] at ha
  cases ha

/-- An unknown command number has no meaning (decision D39, log 18). -/
theorem step_unknownCommand {s : State} {w : HostWord} {ws : List HostWord} (hc : s.control = .idle)
    (hi : s.inbox = w :: ws) (hn : 7 ≤ w.number) : step s = .refused (.unknownCommand w.number) := by
  have hd : decodeCommand w.number w.bytes = .error (.unknownCommand w.number) := by
    obtain ⟨n, hn⟩ := Nat.exists_eq_add_of_le' hn
    rw [hn]
    rfl
  rw [step_command hc hi, hd]
  rfl

/-! ## The statements -/

/-- Settles O18: no way for an instruction or a fetch to end is a refusal, but that of an unknown number. -/
theorem idleCoreWaitsOrTakesCommand : Obligations.IdleCoreWaitsOrTakesCommand := by
  refine ⟨fun s => step_waiting, fun s r => ⟨fun h => ?refused, ?unknown⟩, exec_ne_refused⟩
  case refused =>
    rcases step_answered s with ha | ⟨w, ws, hc, hi, hn, hstep⟩
    · rw [h] at ha
      cases ha
    · exact ⟨w, ws, hc, hi, hn, Host.Outcome.refused.inj (h.symm.trans hstep)⟩
  case unknown =>
    rintro ⟨w, ws, hc, hi, hn, rfl⟩
    exact step_unknownCommand hc hi hn

/-- Settles O20: of the ways a step can end in a next state only an error's trap enters FAILED. -/
theorem trapExposesNoFrame : Obligations.TrapExposesNoFrame := by
  intro s t ht
  cases step_next_answered ht with
  | silent h =>
    refine ⟨⟨[], by simp [h.outbox]⟩, fun k hne hf => ?_⟩
    exact absurd ((h.phase k hf).resolve_right (by simp)).symm hne
  | @reply u h r =>
    refine ⟨⟨[r], by simp [h.outbox]⟩, fun k hne hf => ?_⟩
    exact absurd ((h.phase k hf).resolve_right (by simp)).symm hne
  | @error u h e =>
    have hout : (takeError e u).outbox = s.outbox ++ [.error e] := by rw [takeError_outbox, h.outbox]
    exact ⟨⟨[.error e], hout, le_rfl⟩, fun k _ hf => ⟨e, (Phase.failed.inj hf).symm, hout, rfl⟩⟩

/-- Settles O21: a fault is trap entry's record of a quiet state, at the place of the fault's rule. -/
theorem faultsRecordCodeAndPlace : Obligations.FaultsRecordCodeAndPlace := by
  intro s q hq
  cases step_fault_answered hq with
  | @fault u f h hf =>
    refine ⟨⟨f, by simp, by simp⟩, by simp, by simp [h.outbox], ?_⟩
    cases f <;> exact hf.symm
  | background h hc => exact ⟨⟨.unspecPaletteIndex, rfl, rfl⟩, rfl, h.outbox, hc⟩

end Sys2Proof.Machine
end

section
/-! PROOFS. The two conditions of InvalidHeader (R341), and the phases that a trap and RELEASE leave, which refuse
the host's commands (R349, decision D36). -/

namespace Sys2Proof

/-! ## The header without a version -/

theorem decodeSignature_eq_none_iff {b : Bytes} :
    decodeSignature b = none ↔ ∀ v, b ≠ encodeSignature (some v) := by
  constructor
  · rintro h (_ | _) rfl <;> cases h
  · intro h
    exact (if_neg (h .gif87a)).trans (if_neg (h .gif89a))

/-- The bytes of a header, by position (R102). -/
theorem eq_header_cons {bs : Bytes} (h : 13 ≤ bs.length) :
    bs = bs[0] :: bs[1] :: bs[2] :: bs[3] :: bs[4] :: bs[5] :: bs[6] :: bs[7] :: bs[8] :: bs[9] :: bs[10] ::
      bs[11] :: bs[12] :: bs.drop 13 := by
  simp only [List.getElem_cons_drop, List.drop_zero]

/-- PARSE_HEADER has no version exactly under the two conditions of R341. -/
theorem decodeHeader_without_version_iff (bs : Bytes) : ∃ h p, decodeHeader bs = .parseHeader h p ∧
    ((h = none ∨ h.map (fun x => x.version) = some none) ↔
      bs.length < 13 ∨ ∀ v, bs.take 6 ≠ encodeSignature (some v)) := by
  unfold decodeHeader
  split
  next s0 s1 s2 s3 s4 s5 w0 w1 h0 h1 f bg asp rest =>
    exact ⟨_, _, rfl, by simp [decodeSignature_eq_none_iff]⟩
  next hshort =>
    have hlen : bs.length < 13 := by
      by_contra h
      exact hshort _ _ _ _ _ _ _ _ _ _ _ _ _ _ (eq_header_cons (Nat.le_of_not_lt h))
    exact ⟨none, none, rfl, by simp [hlen]⟩

theorem Instr.place_of_raises_invalidHeader {i : Instr} (h : .invalidHeader ∈ i.raises) : i.place = .header := by
  cases i with
  | parseHeader screen gpal => rfl
  | _ => simp [Instr.raises] at h

end Sys2Proof

namespace Sys2Proof.Machine

/-! ## InvalidHeader (R341) -/

theorem readGlobalPalette_raises (flags : Byte) (gpal : Option (List Rgb)) (s : State) :
    Raises [.truncated] s.phase (readGlobalPalette flags gpal s) := by
  unfold readGlobalPalette
  split
  · exact readPalette_raises (by simp) _ gpal s
  · exact .of_ok (.same rfl)

/-- With a version PARSE_HEADER raises Truncated or nothing (R220, R227). -/
theorem parseHeader_raises_of_version {h : Screen} {v : Version} (hv : h.version = some v)
    (gpal : Option (List Rgb)) (s : State) : Raises [.truncated] s.phase (parseHeader (some h) gpal s) := by
  simp only [parseHeader, hv]
  exact (readGlobalPalette_raises h.flags gpal { s with scr := screenRegs v h, pos := Config.headerBytes }).bind
    fun _ _ => .of_ok (.of_not_failed rfl)

/-- PARSE_HEADER enters FAILED(InvalidHeader) only without a version (R341). -/
theorem parseHeader_invalidHeader {screen : Option Screen} {gpal : Option (List Rgb)} {s t : State}
    (ht : exec (.parseHeader screen gpal) s = .next t) (hne : s.phase ≠ t.phase)
    (hf : t.phase = .failed (.error .invalidHeader)) :
    screen = none ∨ screen.map (fun x => x.version) = some none := by
  cases screen with
  | none => exact .inl rfl
  | some h =>
    cases hv : h.version with
    | none => exact .inr (by simp [hv])
    | some v =>
      rcases (parseHeader_raises_of_version hv gpal s).finish ht _ hf with hsame | ⟨e, he, hk⟩
      · exact absurd hsame.symm hne
      · cases hk
        simp at he

/-- A step that enters FAILED(InvalidHeader) stands at the header position. -/
theorem step_invalidHeader {s t : State} (ht : step s = .next t) (hne : s.phase ≠ t.phase)
    (hf : t.phase = .failed (.error .invalidHeader)) : s.control = .header := by
  have h := fetch_at s
  unfold step at ht
  generalize fetch s = r at h ht
  cases h with
  | @run i u hp ho hq =>
    rcases exec_failsOnly ht _ hf with hsame | ⟨e, he, hk⟩
    · exact absurd (hsame.trans hq).symm hne
    · cases hk
      exact hp.symm.trans (Instr.place_of_raises_invalidHeader he)
  | waits => exact absurd (congrArg State.phase (Host.Outcome.next.inj ht)) hne
  | unknown hc hi hn => cases ht
  | unreadable h he =>
    obtain rfl := Host.Outcome.next.inj ht
    cases hf
    simp at he
  | cursor => exact absurd (congrArg State.phase (Host.Outcome.next.inj ht)) hne
  | emit => exact absurd ((finishFrame_phase s).symm.trans (congrArg State.phase (Host.Outcome.next.inj ht))) hne

/-- Settles O22: at the header position the step is PARSE_HEADER, which has a version or not. -/
theorem invalidHeaderExactly : Obligations.InvalidHeaderExactly := by
  intro s
  obtain ⟨h, p, hd, hiff⟩ := decodeHeader_without_version_iff (s.bytesFrom 0)
  rw [State.bytesFrom_length, Nat.sub_zero] at hiff
  refine ⟨fun hc hbad => ?raised, fun t ht hne hf => ?stood⟩
  case raised =>
    rw [step_header hc, hd]
    obtain ⟨-, -, hwithout⟩ := parseHeaderWritesScreen
    exact hwithout s h p (hiff.mpr hbad)
  case stood =>
    have hc := step_invalidHeader ht hne hf
    rw [step_header hc, hd] at ht
    exact ⟨hc, hiff.mp (parseHeader_invalidHeader ht hne hf)⟩

/-! ## FAILED and RELEASED (R349, decision D36) -/

/-- A step that takes a command runs its instruction. -/
theorem step_command_next {s t : State} {w : HostWord} {ws : List HostWord} (hc : s.control = .idle)
    (hi : s.inbox = w :: ws) (ht : step s = .next t) :
    ∃ i, decodeCommand w.number w.bytes = .ok i ∧ exec i { s with inbox := ws } = .next t := by
  rw [step_command hc hi] at ht
  cases hd : decodeCommand w.number w.bytes with
  | ok i =>
    rw [hd] at ht
    exact ⟨i, rfl, ht⟩
  | error r =>
    rw [hd, (decodeCommand_reject hd).1] at ht
    cases ht

/-- Where CONSTRUCT is refused, every command but RELEASE is (R318, R349, decision D36). -/
theorem exec_command_of_refuses {s : State} {n : Nat} {bytes : Bytes} {i : Instr}
    (hp : s.phase.refusesConstruct = true) (hd : decodeCommand n bytes = .ok i) :
    (n ≤ 5 ∧ exec i s = .next (refuse s)) ∨ (n = 6 ∧ i = .release) := by
  have ha : s.phase.refusesAttribute = true :=
    Phase.refusesAttribute_iff.mpr (.inr (Phase.refusesConstruct_iff.mp hp))
  have hread (r : Reply) : (.next (attributeRead r s) : Outcome) = .next (refuse s) :=
    congrArg _ (attributeRead_of_refuses r ha)
  rcases decodeCommand_cases n bytes with ⟨rfl, e⟩ | ⟨rfl, e⟩ | ⟨rfl, e⟩ | ⟨rfl, e⟩ | ⟨rfl, e⟩ | ⟨rfl, e⟩ | ⟨rfl, e⟩ |
    ⟨-, e⟩ <;> cases e.symm.trans hd
  · exact .inl ⟨by decide, exec_construct_of_refuses bytes hp⟩
  · exact .inl ⟨by decide, exec_nextFrame_of_refuses hp⟩
  · exact .inl ⟨by decide, hread _⟩
  · exact .inl ⟨by decide, hread _⟩
  · exact .inl ⟨by decide, hread _⟩
  · exact .inl ⟨by decide, exec_getBackgroundColor_of_refuses ha⟩
  · exact .inr ⟨rfl, rfl⟩

/-- Settles O17: an idle core waits or takes a command, and the phase refuses the command or is left by RELEASE. -/
theorem failedIsAbsorbing : Obligations.FailedIsAbsorbing := by
  intro s t hc ht
  cases hi : s.inbox with
  | nil =>
    obtain rfl := Host.Outcome.next.inj ((step_waiting hc hi).symm.trans ht)
    exact ⟨fun _ _ => .inl ⟨rfl, rfl⟩, fun _ => .inl ⟨rfl, rfl⟩⟩
  | cons w ws =>
    obtain ⟨i, hd, he⟩ := step_command_next hc hi ht
    refine ⟨fun k hk => .inr ⟨w, ws, rfl, ?failed⟩, fun hk => .inr ⟨w, ws, rfl, ?released⟩⟩
    case failed =>
      have hp : s.phase.refusesConstruct = true := Phase.refusesConstruct_iff.mpr (.inr ⟨k, hk⟩)
      rcases exec_command_of_refuses (s := { s with inbox := ws }) hp hd with ⟨hn, hr⟩ | ⟨hn, rfl⟩
      · exact .inr ⟨hn, next_unique he hr⟩
      · have hadmits : s.phase.refusesRelease = false := by rw [hk]; rfl
        exact .inl ⟨hn, congrArg State.phase (next_unique he (exec_release_of_admits hadmits))⟩
    case released =>
      have hp : s.phase.refusesConstruct = true := Phase.refusesConstruct_iff.mpr (.inl hk)
      rcases exec_command_of_refuses (s := { s with inbox := ws }) hp hd with ⟨hn, hr⟩ | ⟨hn, rfl⟩
      · exact ⟨hn.trans (by decide), next_unique he hr⟩
      · exact ⟨hn.le, next_unique he (exec_release_of_refuses (Phase.refusesRelease_iff.mpr hk))⟩

end Sys2Proof.Machine
end

section
/-! PROOFS. The invariant at reset (R21, R380), and the end of every host command (R391): inside a command each step
leaves fewer steps to take. -/

namespace Sys2Proof.Machine

/-! ## Reset -/

/-- Settles O8: the reset state is the decoder that CONSTRUCT makes over no bytes, with nothing handed out. -/
theorem invHoldsAtReset : Obligations.InvHoldsAtReset :=
  inv_construct (s := State.reset) [] fun _ h => nomatch h

/-! ## The bound on the steps, place by place -/

section
variable {s t : State}

theorem State.stepsLeft_of_idle (hc : s.control = .idle) : s.stepsLeft = 0 := by
  simp only [State.stepsLeft, hc]

theorem State.stepsLeft_of_header (hc : s.control = .header) : s.stepsLeft = 8 * s.len + 6 := by
  simp only [State.stepsLeft, hc]

theorem State.stepsLeft_of_block (hc : s.control = .block) : s.stepsLeft = 8 * (s.len - s.pos) + 5 := by
  simp only [State.stepsLeft, hc]

theorem State.stepsLeft_of_dispose (hc : s.control = .dispose) : s.stepsLeft = 8 * (s.len - s.pos) + 4 := by
  simp only [State.stepsLeft, hc]

theorem State.stepsLeft_of_cursor (hc : s.control = .cursor) : s.stepsLeft = 8 * (s.len - s.pos) + 3 := by
  simp only [State.stepsLeft, hc]

theorem State.stepsLeft_of_code (hc : s.control = .code) : s.stepsLeft = s.bitsLeft + 2 := by
  simp only [State.stepsLeft, hc]

theorem State.stepsLeft_of_emit (hc : s.control = .emit) : s.stepsLeft = 1 := by
  simp only [State.stepsLeft, hc]

/-- Only at the idle point is no step left. -/
theorem State.stepsLeft_eq_zero_iff : s.stepsLeft = 0 ↔ s.control = .idle := by
  unfold State.stepsLeft
  cases s.control <;> simp

/-- The code loop starts with every bit still in the buffer (R150). -/
theorem startCodes_bitsLeft (s : State) : (startCodes s).bitsLeft = 8 * (s.len - s.pos) := rfl

/-- A command that has come back to the host has fewer steps left than a running one. -/
theorem stepsLeft_lt_of_idle (hs : s.control ≠ .idle) (ht : t.control = .idle) : t.stepsLeft < s.stepsLeft := by
  rw [State.stepsLeft_of_idle ht]
  exact Nat.pos_of_ne_zero (mt State.stepsLeft_eq_zero_iff.mp hs)

/-! ## Where an instruction leaves the command -/

/-- An operation that does not complete ends the command (R347). -/
theorem Result.finish_ok_or_idle {r : Result Unit} (ht : r.finish = .next t) :
    r = .ok () t ∨ t.control = .idle := by
  rcases Result.finish_eq_next.mp ht with h | ⟨k, u, -, rfl⟩
  · exact .inl h
  · exact .inr rfl

theorem ReaderMove.control (h : ReaderMove s t) : t.control = s.control := by rw [h.frame]

/-- A complete header leads to the first block (R220, R311). -/
theorem parseHeader_ok_control {screen : Option Screen} {gpal : Option (List Rgb)}
    (h : parseHeader screen gpal s = .ok () t) : t.control = .block := by
  unfold parseHeader at h
  split at h
  · cases h
  · split at h
    · cases h
    · obtain ⟨p, u, -, h⟩ := Result.bind_eq_ok.mp h
      cases h
      rfl

theorem exec_header_control {i : Instr} (hp : i.place = .header) (ht : exec i s = .next t) :
    t.control = .idle ∨ t.control = .block := by
  cases i with
  | parseHeader screen gpal => exact (Result.finish_ok_or_idle ht).symm.imp_right parseHeader_ok_control
  | _ => cases hp

/-- Behind a token the command goes on at the next block or at the frame's disposal, nearer to the end of the
buffer (R119, R221, R230). -/
structure TokenTaken (s t : State) : Prop where
  control : t.control = .block ∨ t.control = .dispose
  pos_lt  : s.pos < t.pos

/-- SKIP_CHAIN stays at a block position (R155). -/
theorem TokenTaken.of_skipChain {u : State} (hc : u.control = .block) (hpos : s.pos < u.pos)
    (h : skipChain u = .ok () t) : TokenTaken s t := by
  have hmove := skipChain_move u
  rw [h] at hmove
  exact ⟨.inl (hmove.control.trans hc), hpos.trans_le hmove.pos_le⟩

/-- The operands of an image are at least 11 bytes, and leave the command where it was (R110, R222). -/
theorem beginImage_ok_place {d : Option ImageDesc} {p : Option (List Rgb)} {v : Option Byte} {b : Byte}
    (h : beginImage d p v s = .ok b t) : t.control = s.control ∧ s.pos < t.pos := by
  obtain ⟨d, -, -, hframe, -, hpos⟩ := beginImage_ok h
  exact ⟨by rw [hframe], by omega⟩

/-- An image goes on at its disposal, or is skipped (R222, R230). -/
theorem TokenTaken.of_imageBody {u : State} {v : Byte} (hc : u.control = .block) (hpos : s.pos < u.pos)
    (h : imageBody v u = .ok () t) : TokenTaken s t := by
  unfold imageBody at h
  split at h
  · exact .of_skipChain hc hpos h
  · obtain ⟨-, -, rfl⟩ := beginFrame_ok h
    exact ⟨.inr rfl, hpos⟩

theorem TokenTaken.of_extGce {b : Option GceBody} (hc : s.control = .block) (h : extGce b s = .ok () t) :
    TokenTaken s t := by
  cases b with
  | none => cases h
  | some b =>
    simp only [extGce] at h
    split at h <;> cases h
    exact ⟨.inl hc, Nat.lt_add_of_pos_right (by decide)⟩

/-- A block token ends the command, or is taken (R222 to R226, R229). -/
theorem exec_block_taken {i : Instr} (hp : i.place = .block) (hc : s.control = .block)
    (ht : exec i s = .next t) : t.control = .idle ∨ TokenTaken s t := by
  cases i with
  | image d p v =>
    refine (Result.finish_ok_or_idle ht).symm.imp_right fun h => ?_
    obtain ⟨b, u, hbegin, hbody⟩ := Result.bind_eq_ok.mp h
    obtain ⟨hctl, hpos⟩ := beginImage_ok_place hbegin
    exact .of_imageBody (hctl.trans hc) hpos hbody
  | imageEmpty d p v =>
    refine (Result.finish_ok_or_idle ht).symm.imp_right fun h => ?_
    obtain ⟨b, u, hbegin, hskip⟩ := Result.bind_eq_ok.mp h
    obtain ⟨hctl, hpos⟩ := beginImage_ok_place hbegin
    exact .of_skipChain (hctl.trans hc) hpos hskip
  | extGce b => exact (Result.finish_ok_or_idle ht).symm.imp_right (.of_extGce hc)
  | extSkip l =>
    exact (Result.finish_ok_or_idle ht).symm.imp_right
      (.of_skipChain (u := s.advance 2) hc (Nat.lt_add_of_pos_right (by decide)))
  | trailer | unexpected b => exact .inl (Host.Outcome.next.inj ht ▸ rfl)
  | _ => cases hp

/-- Every disposal leads to CURSOR_INIT and reads nothing (R230, R263 to R266). -/
theorem exec_dispose_place {i : Instr} (hp : i.place = .dispose) (ht : exec i s = .next t) :
    t.control = .cursor ∧ t.pos = s.pos := by
  cases i with
  | disposeNone | disposeKeep | disposeRestoreBg => exact Host.Outcome.next.inj ht ▸ ⟨rfl, rfl⟩
  | disposeRestorePrev => exact Host.Outcome.next.inj ht ▸ ⟨rfl, restorePrevious_pos s⟩
  | _ => cases hp

/-- A code leaves the code loop, or goes on in it without taking a further bit (R181 to R187). -/
theorem exec_code_place {i : Instr} (hp : i.place = .code) (ht : exec i s = .next t) :
    t.control = .idle ∨ t.control = .emit ∨ (t.control = s.control ∧ t.bitsLeft = s.bitsLeft) := by
  cases i with
  | endCode =>
    refine (Result.finish_ok_or_idle ht).symm.imp_right fun h => .inl ?_
    obtain ⟨_, u, -, h⟩ := Result.bind_eq_ok.mp h
    cases h
    rfl
  | clear | skip c => exact .inr (.inr (Host.Outcome.next.inj ht ▸ ⟨rfl, rfl⟩))
  | dict c =>
    rw [(code_frame ht (.inl ⟨c, rfl⟩)).1]
    exact .inr (.inr ⟨rfl, rfl⟩)
  | kwkwk c =>
    rw [(code_frame ht (.inr ⟨c, rfl⟩)).1]
    exact .inr (.inr ⟨rfl, rfl⟩)
  | unspecCode c => cases ht
  | _ => cases hp

theorem finishFrame_control (s : State) : (finishFrame s).control = .idle := by
  unfold finishFrame
  split <;> rfl

/-! ## Each step leaves fewer -/

/-- The bytes of a token pay for the steps of its frame (R391). -/
theorem TokenTaken.stepsLeft_lt (h : TokenTaken s t) (hc : s.control = .block) (hlen : t.len = s.len)
    (hle : t.pos ≤ t.len) : t.stepsLeft < s.stepsLeft := by
  have hpos := h.pos_lt
  rw [State.stepsLeft_of_block hc]
  rcases h.control with ht | ht
  · rw [State.stepsLeft_of_block ht]
    omega
  · rw [State.stepsLeft_of_dispose ht]
    omega

/-- Reading a code takes at least 3 bits of those left (R152, R391 (c)). -/
theorem readCode_bitsLeft_lt {c : Nat} (h : Inv s) (hc : s.control = .code)
    (hr : readCode s.lzw.width s = .ok c t) : t.bitsLeft < s.bitsLeft := by
  have he : EngineOk s.lzw := h.engine (by rw [hc]; rfl)
  obtain ⟨-, -, hbits⟩ := readCode_ok (h.reader hc) he.width_high hr
  have hwidth := he.width_low
  omega

/-- A code that was read pays for the step it takes (R391 (c)). -/
theorem code_stepsLeft_lt {u : State} {c : Nat} (h : Inv s) (hc : s.control = .code)
    (hr : readCode s.lzw.width s = .ok c u) (he : exec (decodeCode u.codeContext c) u = .next t) :
    t.stepsLeft < s.stepsLeft := by
  have hmove := readCode_move s.lzw.width s
  rw [hr] at hmove
  rcases exec_code_place (decodeCode_place _ c) he with ht | ht | ⟨ht, hbits⟩
  · exact stepsLeft_lt_of_idle (by rw [hc]; decide) ht
  · rw [State.stepsLeft_of_emit ht, State.stepsLeft_of_code hc]
    omega
  · rw [State.stepsLeft_of_code (ht.trans (hmove.control.trans hc)), State.stepsLeft_of_code hc, hbits]
    exact Nat.add_lt_add_right (readCode_bitsLeft_lt h hc hr) 2

/-- The order of the places and the bytes taken make every step inside a command leave fewer (R391). -/
theorem step_stepsLeft_lt (h : Inv s) (hc : s.control ≠ .idle) (ht : step s = .next t) :
    t.stepsLeft < s.stepsLeft := by
  have hlen : t.len = s.len := (step_sameBuffer ht fun _ _ hi => absurd hi hc).len
  have hle : t.pos ≤ t.len := (stepKeepsInv s t h ht).buffer.pos_le
  rcases step_next_cases ht with ⟨hi, -⟩ | ⟨w, ws, i, hi, -⟩ | ⟨i, hs, rfl, he⟩ | ⟨i, hs, hd, he⟩ |
    ⟨-, -, rfl⟩ | ⟨-, -, rfl⟩ | ⟨hs, he⟩ | ⟨hs, rfl⟩ | ⟨-, rfl⟩ | ⟨c, u, hs, hr, he⟩ | ⟨k, u, -, -, rfl⟩
  · exact absurd hi hc
  · exact absurd hi hc
  · rcases exec_header_control (decodeHeader_place _) he with hidle | hblock
    · exact stepsLeft_lt_of_idle hc hidle
    · rw [State.stepsLeft_of_header hs, State.stepsLeft_of_block hblock]
      omega
  · rcases exec_block_taken (decodeBlock_place hd) hs he with hidle | htaken
    · exact stepsLeft_lt_of_idle hc hidle
    · exact htaken.stepsLeft_lt hs hlen hle
  · exact stepsLeft_lt_of_idle hc rfl
  · exact stepsLeft_lt_of_idle hc rfl
  · obtain ⟨hcursor, hpos⟩ := exec_dispose_place (decodeSelector_place _) he
    rw [State.stepsLeft_of_dispose hs, State.stepsLeft_of_cursor hcursor, hlen, hpos]
    omega
  · rw [State.stepsLeft_of_cursor hs, State.stepsLeft_of_code (startCodes_control s), startCodes_bitsLeft]
    omega
  · exact stepsLeft_lt_of_idle hc (finishFrame_control s)
  · exact code_stepsLeft_lt h hs hr he
  · exact stepsLeft_lt_of_idle hc rfl

/-! ## The running command ends -/

/-- The running command has come back to the host, or stopped in a model fault. -/
def EndsCommand (o : Outcome) : Prop :=
  (∃ t, o = .next t ∧ t.control = .idle) ∨ ∃ f, o = .fault f

theorem settle_of_idle (hc : s.control = .idle) : ∀ n, settle n s = .next s
  | 0 => rfl
  | _ + 1 => if_pos hc

theorem settle_succ_of_next {n : Nat} (hc : s.control ≠ .idle) (ht : step s = .next t) :
    settle (n + 1) s = settle n t := by
  simp only [settle, if_neg hc, ht]

theorem settle_succ_of_fault {n : Nat} {f : Fault} (hc : s.control ≠ .idle) (hf : step s = .fault f) :
    settle (n + 1) s = .fault f := by
  simp only [settle, if_neg hc, hf]

/-- Inside a command no step is refused (log 18). -/
theorem step_ne_refused (hc : s.control ≠ .idle) (r : Refusal) : step s ≠ .refused r := by
  obtain ⟨-, hrefused, -⟩ := idleCoreWaitsOrTakesCommand
  intro h
  obtain ⟨w, ws, hi, -⟩ := (hrefused s r).mp h
  exact hc hi

/-- As many steps as the bound allows end the command, by induction on their number. -/
theorem settle_endsCommand : ∀ {n : Nat} {s : State}, Inv s → s.stepsLeft ≤ n → EndsCommand (settle n s)
  | 0, s, _, hn => .inl ⟨s, rfl, State.stepsLeft_eq_zero_iff.mp (Nat.le_zero.mp hn)⟩
  | n + 1, s, h, hn => by
    by_cases hc : s.control = .idle
    · exact .inl ⟨s, settle_of_idle hc _, hc⟩
    · cases hstep : step s with
      | next t =>
        have hlt := step_stepsLeft_lt h hc hstep
        rw [settle_succ_of_next hc hstep]
        exact settle_endsCommand (stepKeepsInv s t h hstep) (by omega)
      | fault f => exact .inr ⟨f, settle_succ_of_fault hc hstep⟩
      | refused r => exact absurd hstep (step_ne_refused hc r)

end

/-- Settles O10: `stepsLeft` bounds the steps of the running command, since each step makes it smaller. -/
theorem everyCommandTerminates : Obligations.EveryCommandTerminates :=
  fun _ h => settle_endsCommand h le_rfl

end Sys2Proof.Machine
end
